-- ==== Sys2Proof/Word.lean ====
section
/-! DEFINITION. Words, bytes and the two floating-point formats (spec/40_numerics.md R80). -/

namespace Sys2Proof

/-- A command word: 32 bits, whole, before any decoding (R61). -/
abbrev CmdWord := BitVec 32

/-- The container of one FMT value: the IEEE 754 interchange bit pattern in the low `Fmt.width`
bits, every higher bit zero (R10, R80; log 2). -/
abbrev Word := BitVec 64

/-- One byte, for a binding that serialises (R44). -/
abbrev Byte := BitVec 8

/-- The format parameter FMT: every register, operand, sample and constant has this one format (R80, D1). -/
inductive Fmt where
  | binary32
  | binary64
deriving DecidableEq, Repr

/-- The width of an FMT value in bits (R80). -/
def Fmt.width : Fmt → Nat
  | .binary32 => 32
  | .binary64 => 64

/-- The number of fraction bits: bits 22:0, or bits 51:0 (R80). -/
def Fmt.fracBits : Fmt → Nat
  | .binary32 => 23
  | .binary64 => 52

/-- The number of exponent bits: bits 30:23, or bits 62:52 (R80). -/
def Fmt.expBits : Fmt → Nat
  | .binary32 => 8
  | .binary64 => 11

/-- The bit pattern is one of FMT: nothing stands above its width. -/
def Fmt.fits (f : Fmt) (w : Word) : Bool :=
  decide (w.toNat < 2 ^ f.width)

/-- The low `Fmt.width` bits of a word. -/
def Fmt.clip (f : Fmt) (w : Word) : Word :=
  match f with
  | .binary32 => (w.setWidth 32).setWidth 64
  | .binary64 => w

end Sys2Proof
end

