-- ==== Sys2Proof/Config.lean ====
section
/-! DEFINITION. What an implementation fixes (spec/00_scope.md R9) and what the spec leaves free. -/

namespace Sys2Proof

/-- The byte order of a binding that serialises values to bytes (R44, D16). -/
inductive ByteOrder where
  | little
  | big
deriving DecidableEq, Repr

/-- The parameters of R9 that are plain data, with BASE of R50. A machine holds one value of them for
good: no command writes any (log 1). `none` for a bound is "unbounded". -/
structure Params where
  /-- FMT, default binary32 (D1). -/
  fmt : Fmt
  /-- H_CAP, the capacity of the harmonic store in entries (D13). -/
  hCap : Option Nat
  /-- L_MAX, the largest buffer length `process` accepts (D14). -/
  lMax : Option Nat
  /-- BYTE_ORDER; not observable at the command port (D16). -/
  byteOrder : ByteOrder
  /-- BASE, where a platform maps the block; no rule reads it (R50, D16). -/
  base : Nat
deriving DecidableEq, Repr

/-- The defaults of R9; BASE has none in the spec, and no rule reads it (log 1). -/
def Params.default : Params :=
  { fmt := .binary32, hCap := none, lMax := none, byteOrder := .little, base := 0 }

/-- `n` is no more than a bound, `none` being unbounded. -/
def withinBound (bound : Option Nat) (n : Nat) : Bool :=
  match bound with
  | none => true
  | some c => decide (n ≤ c)

/-- `H_CAP >= 1` is required of every implementation (R100, D13). -/
def Params.wf (p : Params) : Bool := withinBound p.hCap 1

/-- PREVIEW_LEN: the length of the spectral-preview vector (R9, R170). -/
def previewLen : Nat := 512

/-- Which operation draws a NaN: the number of the command that draws, and the path of the operation
inside it. Two different operations of a run have two different sites (log 6). -/
structure DrawSite where
  cmd : Nat
  path : List Nat
deriving DecidableEq, Repr

/-- Operation (or group of operations) `i` of a site. -/
def DrawSite.sub (k : DrawSite) (i : Nat) : DrawSite := { k with path := i :: k.path }

/-- FREE VALUE (R82, D30, K3): the bits of the NaN that the operation at a site returns, before they are
made a quiet NaN of FMT. -/
opaque Config.nanDraw : DrawSite → Word

/-- FREE VALUE (R86, D3, K4): the implementation's sine, before it is held to R86's five properties. -/
opaque Config.sinRaw : Fmt → Word → Word

/-- FREE VALUE (R30, K7): what the latch INC holds once the command numbered `n` has ended. -/
opaque Config.idleInc : Nat → Word

/-- FREE VALUE (R30, K7): what the latch J holds once the command numbered `n` has ended. -/
opaque Config.idleJ : Nat → Nat

/-- FREE VALUE (R68): the payload an assembler gives its `n`-th `nan` literal. -/
opaque Config.literalNan : Nat → Word

end Sys2Proof
end

