-- ==== Sys2Proof/Machine/Format.lean ====
section
/-! DEFINITION. Reading and writing the IEEE 754 fields of an FMT value, and the one rounding
(spec/40_numerics.md R80 to R82). Every finite value is a whole multiple of the smallest positive
subnormal, `2 ^ -Fmt.scale`: arithmetic is exact on those multiples and is rounded once (log 19). -/

namespace Sys2Proof.Machine

/-- `1.0` is `2 ^ scale` times the smallest positive subnormal: 149 in binary32, 1074 in binary64 (R80). -/
def scaleOf (f : Fmt) : Nat :=
  match f with
  | .binary32 => 149
  | .binary64 => 1074

/-- The fraction field (R80). -/
def fracField (f : Fmt) (w : Word) : Nat := w.toNat % 2 ^ f.fracBits

/-- The biased exponent field (R80). -/
def expField (f : Fmt) (w : Word) : Nat := w.toNat / 2 ^ f.fracBits % 2 ^ f.expBits

/-- The sign bit (R80). -/
def signBit (f : Fmt) (w : Word) : Bool :=
  decide (w.toNat / 2 ^ (f.fracBits + f.expBits) % 2 = 1)

/-- The exponent field of infinities and NaNs: all ones. -/
def expMax (f : Fmt) : Nat := 2 ^ f.expBits - 1

/-- A NaN: exponent all ones, fraction not zero. -/
def isNaN (f : Fmt) (w : Word) : Bool := expField f w == expMax f && fracField f w != 0

/-- An infinity: exponent all ones, fraction zero. -/
def isInf (f : Fmt) (w : Word) : Bool := expField f w == expMax f && fracField f w == 0

/-- A finite value. -/
def isFinite (f : Fmt) (w : Word) : Bool := expField f w != expMax f

/-- A zero of either sign. -/
def isZero (f : Fmt) (w : Word) : Bool := expField f w == 0 && fracField f w == 0

/-- The magnitude of a finite value, in multiples of the smallest positive subnormal. An infinity's is
above every finite value's. -/
def magnitude (f : Fmt) (w : Word) : Nat :=
  if expField f w = 0 then fracField f w
  else (fracField f w + 2 ^ f.fracBits) * 2 ^ (expField f w - 1)

/-- The value of a finite FMT datum, in multiples of the smallest positive subnormal. -/
def scaled (f : Fmt) (w : Word) : Int :=
  if signBit f w then -(magnitude f w : Int) else (magnitude f w : Int)

/-- The bit pattern with a sign and the exponent and fraction bits `m`. -/
def packBits (f : Fmt) (neg : Bool) (m : Nat) : Word :=
  BitVec.ofNat 64 (m + if neg then 2 ^ (f.fracBits + f.expBits) else 0)

/-- The zero of a sign. -/
def zeroOf (f : Fmt) (neg : Bool) : Word := packBits f neg 0

/-- The exponent and fraction bits of an infinity. -/
def infBits (f : Fmt) : Nat := expMax f * 2 ^ f.fracBits

/-- The infinity of a sign. -/
def infOf (f : Fmt) (neg : Bool) : Word := packBits f neg (infBits f)

/-- `n / d` to the nearest whole number, a tie to the even one (R81). -/
def roundToEven (n d : Nat) : Nat :=
  let q := n / d
  let r := n % d
  if d < 2 * r ∨ (2 * r = d ∧ q % 2 = 1) then q + 1 else q

/-- The exponent and fraction bits of `n / d` smallest subnormals under RNE: gradual underflow below,
infinity above (R81). The binade is that of the exact quotient; a carry out of the fraction runs into
the exponent by itself. -/
def roundBits (f : Fmt) (n d : Nat) : Nat :=
  let k := Nat.log2 (n / d) - f.fracBits
  min (k * 2 ^ f.fracBits + roundToEven n (d * 2 ^ k)) (infBits f)

/-- The FMT value nearest to `± n / d` smallest subnormals (R81). -/
def roundTo (f : Fmt) (neg : Bool) (n d : Nat) : Word := packBits f neg (roundBits f n d)

/-- The sign bit alone. -/
def signMask (f : Fmt) : Word := BitVec.ofNat 64 (2 ^ (f.fracBits + f.expBits))

/-- The exponent bits and the quiet bit: all of them are set in a quiet NaN. -/
def quietMask (f : Fmt) : Word :=
  BitVec.ofNat 64 (expMax f * 2 ^ f.fracBits + 2 ^ (f.fracBits - 1))

/-- A quiet NaN of FMT whose sign and payload are the given bits (R82). -/
def quietNaN (f : Fmt) (bits : Word) : Word := f.clip bits ||| quietMask f

/-- The NaN an operation whose IEEE 754 result is NaN returns: sign and payload a draw (R82, D30; log 6). -/
def drawNaN (f : Fmt) (k : DrawSite) : Word := quietNaN f (Config.nanDraw k)

end Sys2Proof.Machine
end

