-- ==== Sys2Proof/Machine/Flags.lean ====
section
/-! DEFINITION. The block keeps no flags (spec/10_state.md R27); its conditions are the quiet comparisons
of spec/40_numerics.md R84, which set none. -/

namespace Sys2Proof.Machine

/-- Neither operand is a NaN. -/
def ordered (f : Fmt) (a b : Word) : Bool := !isNaN f a && !isNaN f b

/-- `flt(a, b)`: `a < b`, false when either is a NaN (R84). -/
def flt (f : Fmt) (a b : Word) : Bool := ordered f a b && decide (scaled f a < scaled f b)

/-- `fgt(a, b)`: `a > b`, false when either is a NaN (R84). -/
def fgt (f : Fmt) (a b : Word) : Bool := ordered f a b && decide (scaled f b < scaled f a)

/-- `feq(a, b)`: `a == b`, false when either is a NaN, true of the two zeros (R84). -/
def feq (f : Fmt) (a b : Word) : Bool := ordered f a b && decide (scaled f a = scaled f b)

end Sys2Proof.Machine
end

