-- ==== Sys2Proof/Syntax.lean ====
section
/-! DEFINITION. Commands as the host sends them and as the block understands them
(spec/30_encoding.md R60 to R65). -/

namespace Sys2Proof

/-- The six waveforms; codes 6 and 7 are reserved and name none (R21, R65). -/
inductive Waveform where
  | sine
  | square
  | sawtooth
  | triangle
  | pulse
  | additive
deriving DecidableEq, Repr

/-- The 3-bit waveform code (R65). -/
def Waveform.code : Waveform → BitVec 3
  | .sine => 0
  | .square => 1
  | .sawtooth => 2
  | .triangle => 3
  | .pulse => 4
  | .additive => 5

/-- What stands on the command port: `{CW, ARG, SEQ, LEN}` (R60). -/
structure Command where
  cw : CmdWord
  arg : Word
  seq : List Word
  len : Nat
deriving DecidableEq, Repr

/-- The WLM-OSC command set with its operands, one constructor per row of the opcode table (R62, R63). -/
inductive Instr where
  /-- `construct sample_rate` (R100). -/
  | construct (sampleRate : Word)
  /-- `set_waveform kind` (R101). -/
  | setWaveform (kind : Waveform)
  /-- `set_harmonics amplitudes` (R102). -/
  | setHarmonics (amplitudes : List Word)
  /-- `note_on frequency` (R103). -/
  | noteOn (frequency : Word)
  /-- `note_off` (R104). -/
  | noteOff
  /-- `set_duty_cycle value` (R105). -/
  | setDutyCycle (value : Word)
  /-- `process LEN` (R120). -/
  | process (len : Nat)
  /-- `get_pulse_waveform_data` (R170). -/
  | getPulseWaveformData
deriving DecidableEq, Repr

end Sys2Proof
end

