-- ==== Sys2Proof/Machine/Operands.lean ====
section
/-! DEFINITION. Operands: the values a command takes from the port (spec/30_encoding.md R62), the constants
of spec/40_numerics.md R87, and whole numbers as FMT values (R85). -/

namespace Sys2Proof.Machine

/-- What the FMT-wide wires of the port carry of a command: nothing above FMT's width (R60, R62; log 2).
A well-formed command is unchanged. -/
def onPort (f : Fmt) (c : Command) : Command :=
  { c with arg := f.clip c.arg, seq := c.seq.map f.clip }

/-- `+0.0`. -/
def posZero : Word := 0

/-- `0.5` (R87). -/
def halfC (f : Fmt) : Word :=
  match f with
  | .binary32 => 0x3F000000
  | .binary64 => 0x3FE0000000000000

/-- `1.0` (R87). -/
def oneC (f : Fmt) : Word :=
  match f with
  | .binary32 => 0x3F800000
  | .binary64 => 0x3FF0000000000000

/-- `-1.0` (R87). -/
def minusOneC (f : Fmt) : Word :=
  match f with
  | .binary32 => 0xBF800000
  | .binary64 => 0xBFF0000000000000

/-- `2.0` (R87). -/
def twoC (f : Fmt) : Word :=
  match f with
  | .binary32 => 0x40000000
  | .binary64 => 0x4000000000000000

/-- `4.0` (R87). -/
def fourC (f : Fmt) : Word :=
  match f with
  | .binary32 => 0x40800000
  | .binary64 => 0x4010000000000000

/-- `PI_F`, π rounded to FMT (R87, D4). -/
def piC (f : Fmt) : Word :=
  match f with
  | .binary32 => 0x40490FDB
  | .binary64 => 0x400921FB54442D18

/-- `TAU_F = 2.0 * PI_F`, exact (R87, D4). -/
def tauC (f : Fmt) : Word :=
  match f with
  | .binary32 => 0x40C90FDB
  | .binary64 => 0x401921FB54442D18

/-- `toF(n)`: a natural number rounded to FMT under RNE (R85). -/
def toF (f : Fmt) (n : Nat) : Word := roundTo f false (n * 2 ^ scaleOf f) 1

end Sys2Proof.Machine
end

