-- ==== Sys2Proof/Machine/Numerics.lean ====
section
/-! DEFINITION. The arithmetic primitives of spec/40_numerics.md R81 to R90. Each takes the site at which it
would draw a NaN (R82); no operation raises or keeps a flag (R27). -/

namespace Sys2Proof.Machine

/-- The sum of two finite values: exact, then rounded once; an exact zero is `+0.0` unless both operands
are negative zeros (R81, R82). -/
def addFinite (f : Fmt) (a b : Word) : Word :=
  let z := scaled f a + scaled f b
  if z = 0 then zeroOf f (signBit f a && signBit f b)
  else roundTo f (decide (z < 0)) z.natAbs 1

/-- `fadd(a, b)` (R81). -/
def fadd (f : Fmt) (k : DrawSite) (a b : Word) : Word :=
  if isNaN f a || isNaN f b then drawNaN f k
  else if isInf f a then
    if isInf f b && (signBit f a != signBit f b) then drawNaN f k else infOf f (signBit f a)
  else if isInf f b then infOf f (signBit f b)
  else addFinite f a b

/-- The value with its sign bit inverted. -/
def fneg (f : Fmt) (a : Word) : Word := a ^^^ signMask f

/-- `fsub(a, b)`: IEEE 754 subtraction, which is the addition of `b` with its sign inverted (R81). -/
def fsub (f : Fmt) (k : DrawSite) (a b : Word) : Word := fadd f k a (fneg f b)

/-- `fmul(a, b)` (R81): zero times infinity is NaN; every other sign is the exclusive or (R82). -/
def fmul (f : Fmt) (k : DrawSite) (a b : Word) : Word :=
  let neg := signBit f a != signBit f b
  if isNaN f a || isNaN f b then drawNaN f k
  else if isInf f a || isInf f b then
    if isZero f a || isZero f b then drawNaN f k else infOf f neg
  else roundTo f neg (magnitude f a * magnitude f b) (2 ^ scaleOf f)

/-- `fdiv(a, b)` (R81): `0/0` and `inf/inf` are NaN, `x/0` is an infinity, `x/inf` is a zero; every other
sign is the exclusive or (R82). -/
def fdiv (f : Fmt) (k : DrawSite) (a b : Word) : Word :=
  let neg := signBit f a != signBit f b
  if isNaN f a || isNaN f b then drawNaN f k
  else if isInf f a then
    if isInf f b then drawNaN f k else infOf f neg
  else if isInf f b then zeroOf f neg
  else if isZero f b then
    if isZero f a then drawNaN f k else infOf f neg
  else roundTo f neg (magnitude f a * 2 ^ scaleOf f) (magnitude f b)

/-- `ffloor(a)`: roundToIntegralTowardNegative, exact; a zero result has the sign of `a` (R83). -/
def ffloor (f : Fmt) (k : DrawSite) (a : Word) : Word :=
  if isNaN f a then drawNaN f k
  else if isInf f a then infOf f (signBit f a)
  else
    let unit : Int := 2 ^ scaleOf f
    roundTo f (signBit f a) (scaled f a / unit * unit).natAbs 1

/-- `fabs(a)`: `a` with its sign bit cleared, a NaN's other bits kept (R83; log 15). -/
def fabs (f : Fmt) (a : Word) : Word := a &&& ~~~signMask f

/-- Bits that are a NaN already, else a quiet NaN made of them. -/
def someNaN (f : Fmt) (bits : Word) : Word := if isNaN f bits then bits else quietNaN f bits

/-- `y` may be `sinF(x)` of a finite `x` that is no zero: properties 4 and 5 of R86. -/
def sineAllowed (f : Fmt) (x y : Word) : Bool :=
  isFinite f y && decide (magnitude f y ≤ magnitude f (oneC f)) &&
    !(isZero f y && signBit f y && !signBit f x && decide (scaled f x ≤ scaled f (tauC f)))

/-- `sinF(x)` (R86, D3): the implementation's own function of `x`'s bits, held to the five properties and
to nothing else (log 5). -/
def sinF (f : Fmt) (x : Word) : Word :=
  let y := f.clip (Config.sinRaw f x)
  if isNaN f x || isInf f x then someNaN f y
  else if isZero f x then x
  else if sineAllowed f x y then y else posZero

/-- `wrap(s)`, WLM's "mod 1": `s - floor(s)`, a rounded `1.0` folded to `+0.0`, not finite to NaN (R89, D6). -/
def wrap (f : Fmt) (k : DrawSite) (s : Word) : Word :=
  if isNaN f s || isInf f s then drawNaN f (k.sub 1)
  else
    let r := fsub f (k.sub 3) s (ffloor f (k.sub 2) s)
    if feq f r (oneC f) then posZero else r

end Sys2Proof.Machine
end

