-- ==== Sys2Proof/WellFormed.lean ====
section
/-! DEFINITION. Well-formed commands: every FMT operand is a bit pattern of FMT (R11, R62, R80).
A capacity is no matter of form: R102 and R120 check it when the command runs. -/

namespace Sys2Proof

/-- Every FMT operand of the instruction fits FMT. -/
def Instr.wellFormed (f : Fmt) : Instr → Bool
  | .construct sampleRate => f.fits sampleRate
  | .setWaveform _ => true
  | .setHarmonics amplitudes => amplitudes.all f.fits
  | .noteOn frequency => f.fits frequency
  | .noteOff => true
  | .setDutyCycle value => f.fits value
  | .process _ => true
  | .getPulseWaveformData => true

/-- Every FMT operand on the port fits FMT, whether or not the command uses it. -/
def Command.wellFormed (f : Fmt) (c : Command) : Bool :=
  f.fits c.arg && c.seq.all f.fits

end Sys2Proof
end

