-- ==== Sys2Proof/Decode.lean ====
section
/-! DEFINITION. The decoder and the encoder of command words (spec/30_encoding.md R61 to R66). -/

namespace Sys2Proof

/-- `OP = CW[7:0]` (R61). -/
def opField (cw : CmdWord) : BitVec 8 := cw.extractLsb' 0 8

/-- `WF = CW[10:8]` (R61). -/
def wfField (cw : CmdWord) : BitVec 3 := cw.extractLsb' 8 3

/-- `RSV = CW[31:11]` (R61). -/
def rsvField (cw : CmdWord) : BitVec 21 := cw.extractLsb' 11 21

/-- The waveform a 3-bit code names; 6 and 7 are reserved (R65). -/
def Waveform.ofCode (c : BitVec 3) : Option Waveform :=
  match c.toNat with
  | 0 => some .sine
  | 1 => some .square
  | 2 => some .sawtooth
  | 3 => some .triangle
  | 4 => some .pulse
  | 5 => some .additive
  | _ => none

/-- Why a command word is ILLEGAL: the four cases of R66. Each faults ILLEGAL_COMMAND (R182). -/
inductive Illegal where
  /-- `CW[31:11]` is not zero. -/
  | reservedBits
  /-- The opcode is `0x00` or one of `0x09` to `0xFF`. -/
  | reservedOpcode
  /-- A command other than `set_waveform` with `CW[10:8]` not zero. -/
  | waveformFieldSet
  /-- `set_waveform` with code 6 or 7. -/
  | reservedWaveform
deriving DecidableEq, Repr

/-- A command that must have `WF = 000` (R61, R64). -/
def plainCommand (cw : CmdWord) (i : Instr) : Except Illegal Instr :=
  if wfField cw = 0 then .ok i else .error .waveformFieldSet

/-- `set_waveform` with the code in `WF` (R64). -/
def waveformCommand (cw : CmdWord) : Except Illegal Instr :=
  match Waveform.ofCode (wfField cw) with
  | some kind => .ok (.setWaveform kind)
  | none => .error .reservedWaveform

/-- `Decode` of R64, with the operands of R62: total on every word, an illegal word rejected by name. -/
def decode (c : Command) : Except Illegal Instr :=
  if rsvField c.cw ≠ 0 then .error .reservedBits
  else match (opField c.cw).toNat with
    | 1 => plainCommand c.cw (.construct c.arg)
    | 2 => waveformCommand c.cw
    | 3 => plainCommand c.cw (.setHarmonics c.seq)
    | 4 => plainCommand c.cw (.noteOn c.arg)
    | 5 => plainCommand c.cw .noteOff
    | 6 => plainCommand c.cw (.setDutyCycle c.arg)
    | 7 => plainCommand c.cw (.process c.len)
    | 8 => plainCommand c.cw .getPulseWaveformData
    | _ => .error .reservedOpcode

/-- The command word with an opcode and a waveform field, `RSV` zero (R61). -/
def wordOf (op : BitVec 8) (wf : BitVec 3) : CmdWord := (0 : BitVec 21) ++ wf ++ op

/-- The command word of an instruction (R63, R65). -/
def encodeWord : Instr → CmdWord
  | .construct _ => wordOf 0x01 0
  | .setWaveform kind => wordOf 0x02 kind.code
  | .setHarmonics _ => wordOf 0x03 0
  | .noteOn _ => wordOf 0x04 0
  | .noteOff => wordOf 0x05 0
  | .setDutyCycle _ => wordOf 0x06 0
  | .process _ => wordOf 0x07 0
  | .getPulseWaveformData => wordOf 0x08 0

/-- The operand `ARG` of an instruction, zero where it has none (R62). -/
def encodeArg : Instr → Word
  | .construct sampleRate => sampleRate
  | .noteOn frequency => frequency
  | .setDutyCycle value => value
  | .setWaveform _ | .setHarmonics _ | .noteOff | .process _ | .getPulseWaveformData => 0

/-- The operand `SEQ` of an instruction, empty where it has none (R62). -/
def encodeSeq : Instr → List Word
  | .setHarmonics amplitudes => amplitudes
  | .construct _ | .setWaveform _ | .noteOn _ | .noteOff | .setDutyCycle _ | .process _
  | .getPulseWaveformData => []

/-- The operand `LEN` of an instruction, 0 where it has none (R62). -/
def encodeLen : Instr → Nat
  | .process len => len
  | .construct _ | .setWaveform _ | .setHarmonics _ | .noteOn _ | .noteOff | .setDutyCycle _
  | .getPulseWaveformData => 0

/-- The command a host sends for an instruction (R60, R62). -/
def encode (i : Instr) : Command :=
  { cw := encodeWord i, arg := encodeArg i, seq := encodeSeq i, len := encodeLen i }

/-- A row of R63's second table: a word is the command's when its masked bits match. -/
structure OpcodeRow where
  mnemonic : String
  pattern : CmdWord
  mask : CmdWord
deriving DecidableEq, Repr

/-- The match and mask of each command word (R63); `set_waveform` has the further condition
`CW[10:8] <= 5`. -/
def opcodeTable : List OpcodeRow :=
  [ { mnemonic := "construct", pattern := 0x00000001, mask := 0xFFFFFFFF },
    { mnemonic := "set_waveform", pattern := 0x00000002, mask := 0xFFFFF8FF },
    { mnemonic := "set_harmonics", pattern := 0x00000003, mask := 0xFFFFFFFF },
    { mnemonic := "note_on", pattern := 0x00000004, mask := 0xFFFFFFFF },
    { mnemonic := "note_off", pattern := 0x00000005, mask := 0xFFFFFFFF },
    { mnemonic := "set_duty_cycle", pattern := 0x00000006, mask := 0xFFFFFFFF },
    { mnemonic := "process", pattern := 0x00000007, mask := 0xFFFFFFFF },
    { mnemonic := "get_pulse_waveform_data", pattern := 0x00000008, mask := 0xFFFFFFFF } ]

/-- A word matches a row of R63. -/
def OpcodeRow.accepts (r : OpcodeRow) (cw : CmdWord) : Bool := cw &&& r.mask == r.pattern

/-- The name of the row an instruction belongs to (R63). -/
def mnemonicOf : Instr → String
  | .construct _ => "construct"
  | .setWaveform _ => "set_waveform"
  | .setHarmonics _ => "set_harmonics"
  | .noteOn _ => "note_on"
  | .noteOff => "note_off"
  | .setDutyCycle _ => "set_duty_cycle"
  | .process _ => "process"
  | .getPulseWaveformData => "get_pulse_waveform_data"

/-- The command whose word is the low `nbits` bits of `w` and whose operands are all zero. -/
def tableCommand (nbits w : Nat) : Command :=
  { cw := BitVec.ofNat 32 (w % 2 ^ nbits), arg := 0, seq := [], len := 0 }

/-- The instruction the decoder reads from a command word of the opcode table, operands zero. -/
def decodeTableWord (nbits w : Nat) : Option Instr :=
  match decode (tableCommand nbits w) with
  | .ok i => some i
  | .error _ => none

end Sys2Proof
end

