-- ==== Sys2Proof/Machine/State.lean ====
section
/-! DEFINITION. The state of one block, its outcomes, and the state at power-on
(spec/10_state.md R20 to R34, spec/60_exceptions.md R180). -/

namespace Sys2Proof.Machine

/-- The status of a response (R180). -/
inductive Status where
  /-- The command completed. -/
  | ok
  /-- The command word decodes to ILLEGAL (R182). -/
  | illegalCommand
  /-- A command other than `construct` while CONSTRUCTED is 0 (R181). -/
  | notConstructed
  /-- `set_harmonics` above H_CAP, or `process` above L_MAX (R102, R120). -/
  | capacityExceeded
deriving DecidableEq, Repr

/-- The 2-bit STATUS code (R180). -/
def Status.code : Status → BitVec 2
  | .ok => 0
  | .illegalCommand => 1
  | .notConstructed => 2
  | .capacityExceeded => 3

/-- The answer to one command (R60). -/
structure Response where
  status : Status
  data : List Word
deriving DecidableEq, Repr

/-- All the state the spec gives one instance of the block, its parameters, its two ports, and the
model's own counter of draws. -/
structure State where
  /-- FMT, H_CAP, L_MAX, BYTE_ORDER and BASE: fixed for a machine (R9, R50). -/
  params : Params
  /-- CONSTRUCTED (R20). -/
  constructed : Bool
  /-- WAVEFORM (R21). -/
  waveform : Waveform
  /-- PHASE (R22). -/
  phase : Word
  /-- FREQUENCY (R23). -/
  frequency : Word
  /-- DUTY_CYCLE (R24). -/
  dutyCycle : Word
  /-- SAMPLE_RATE (R25). -/
  sampleRate : Word
  /-- HARM[0 .. HLEN-1]; HLEN is its length (R26). -/
  harm : List Word
  /-- The hidden latch INC, live only inside `process` (R30). -/
  inc : Word
  /-- The hidden latch J, live only inside `process` (R30). -/
  j : Nat
  /-- The commands the host issues, oldest first: the next is taken when the last is answered (R28, R47; log 8). -/
  port : List Command
  /-- The response last given (R60; log 9). -/
  response : Option Response
  /-- The model's own: how many commands have taken free values (log 7). -/
  draws : Nat
deriving DecidableEq, Repr

/-- The format every value of the block has (R80). -/
abbrev State.fmt (s : State) : Fmt := s.params.fmt

/-- HLEN (R26). -/
abbrev State.hlen (s : State) : Nat := s.harm.length

/-- What could stop the block: nothing. The spec's three command faults are statuses of a response,
after which the block takes the next command (R184, R188, R189), so each is a next state (log 11).
Raised by nobody; safe. -/
inductive Fault where
deriving DecidableEq, Repr

/-- Why the model would give an instruction no meaning. -/
inductive Refusal where
  /-- Raised by an arm of `exec` whose instruction has no meaning yet; safe. No arm does. -/
  | notModelled (mnemonic : String)
deriving DecidableEq, Repr

/-- Power-on (R31): CONSTRUCTED is 0. Every other register is unspecified there and unreadable before
`construct`; the values below are log 3's and log 4's. The block's own reset is `construct` (R200). -/
def State.reset : State :=
  { params := Params.default
    constructed := false
    waveform := .sine
    phase := 0
    frequency := 0
    dutyCycle := 0
    sampleRate := 0
    harm := []
    inc := 0
    j := 0
    port := []
    response := none
    draws := 0 }

end Sys2Proof.Machine
end

