-- ==== Sys2Proof/Machine/Ops.lean ====
section
/-! DEFINITION. The named operations on the state: register writes, answering, raising a command fault,
the checks before a command, taking the next command, and the reset of spec/10_state.md R32. -/

namespace Sys2Proof.Machine

/-! ### Register writes (R12, R33) -/

/-- `WAVEFORM <- w`. -/
def State.setWaveform (w : Waveform) (s : State) : State := { s with waveform := w }

/-- The harmonic store is replaced whole: `HLEN` and every entry at once (R26, R41, R102). -/
def State.setHarm (h : List Word) (s : State) : State := { s with harm := h }

/-- `FREQUENCY <- v`. -/
def State.setFrequency (v : Word) (s : State) : State := { s with frequency := v }

/-- `PHASE <- v`. -/
def State.setPhase (v : Word) (s : State) : State := { s with phase := v }

/-- `DUTY_CYCLE <- v`. -/
def State.setDutyCycle (v : Word) (s : State) : State := { s with dutyCycle := v }

/-- `process` starts: `INC <- v` and `J <- 0` (R30, R120). -/
def State.loadLatches (v : Word) (s : State) : State := { s with inc := v, j := 0 }

/-- One sample is produced: `PHASE <- v` and `J` goes to the next sample (R121). -/
def State.advance (v : Word) (s : State) : State := { s with phase := v, j := s.j + 1 }

/-- The commands still to be issued. -/
def State.setPort (q : List Command) (s : State) : State := { s with port := q }

/-! ### Free values -/

/-- The site of the command now running (R82; log 6). -/
def State.site (s : State) : DrawSite := { cmd := s.draws, path := [] }

/-- The command's draws are taken: the next command that draws has a number of its own (log 7). -/
def State.takeDraws (s : State) : State := { s with draws := s.draws + 1 }

/-- INC and J are no longer live: each holds an unspecified value (R30, R32, K7; log 4). -/
def State.releaseLatches (s : State) : State :=
  { s with inc := s.fmt.clip (Config.idleInc s.draws), j := Config.idleJ s.draws, draws := s.draws + 1 }

/-! ### Answers (R60, R180) -/

/-- Status OK, with the samples or preview values, if any. -/
def State.answer (data : List Word) (s : State) : State :=
  { s with response := some { status := .ok, data := data } }

/-- TAKING A COMMAND FAULT: the response carries its status and no data, and nothing else changes
(R180, R184, R188). There is no vector, saved state or mode, and so no return (R189). -/
def State.raise (code : Status) (s : State) : State :=
  { s with response := some { status := code, data := [] } }

/-- The checks every command but `construct` makes after decoding, in R183's order: NOT_CONSTRUCTED
(R181), then CAPACITY_EXCEEDED unless `fits`. A faulted command leaves the state it found (R184). -/
def guarded (fits : Bool) (s done : State) : Host.Outcome State Fault Refusal :=
  if s.constructed = false then .next (s.raise .notConstructed)
  else if fits = false then .next (s.raise .capacityExceeded)
  else .next done

/-! ### Reset -/

/-- `ResetState(sr)`: every register (R32); the latches are unspecified after it. -/
def State.resetRegisters (sr : Word) (s : State) : State :=
  { s.releaseLatches with
    constructed := true
    waveform := .sine
    phase := posZero
    frequency := posZero
    dutyCycle := halfC s.fmt
    sampleRate := sr
    harm := [oneC s.fmt] }

/-! ### The command port -/

/-- The command the port offers next and the state once the block has taken it (R28, R47). -/
def takeCommand (s : State) : Option (Command × State) :=
  match s.port with
  | [] => none
  | c :: rest => some (onPort s.fmt c, s.setPort rest)

/-- A word that decodes to ILLEGAL (R64, R182), whatever CONSTRUCTED holds. -/
def illegalCommand (s : State) : Host.Outcome State Fault Refusal := .next (s.raise .illegalCommand)

end Sys2Proof.Machine
end

