-- ==== Sys2Proof/Machine/Mutators.lean ====
section
/-! DEFINITION. The constructor and the five mutators (spec/41_mutators.md R100 to R105). -/

namespace Sys2Proof.Machine

/-- `construct`: the full reset, whatever CONSTRUCTED holds; the operand is not checked (R100, D12). -/
def execConstruct (sampleRate : Word) (s : State) : Host.Outcome State Fault Refusal :=
  .next ((s.resetRegisters sampleRate).answer [])

/-- `set_waveform`: WAVEFORM only (R101). Codes 6 and 7 never get here: they are ILLEGAL at decode (R64). -/
def execSetWaveform (kind : Waveform) (s : State) : Host.Outcome State Fault Refusal :=
  guarded true s ((s.setWaveform kind).answer [])

/-- `set_harmonics`: the whole list at once, bit for bit, unless it is longer than H_CAP (R102). -/
def execSetHarmonics (amplitudes : List Word) (s : State) : Host.Outcome State Fault Refusal :=
  guarded (withinBound s.params.hCap amplitudes.length) s ((s.setHarm amplitudes).answer [])

/-- `note_on`: the frequency as sent, and PHASE to `+0.0` (R103). -/
def execNoteOn (frequency : Word) (s : State) : Host.Outcome State Fault Refusal :=
  guarded true s (((s.setFrequency frequency).setPhase posZero).answer [])

/-- `note_off`: FREQUENCY to `+0.0`, PHASE untouched (R104). -/
def execNoteOff (s : State) : Host.Outcome State Fault Refusal :=
  guarded true s ((s.setFrequency posZero).answer [])

/-- `set_duty_cycle`: the value as sent (R105). -/
def execSetDutyCycle (value : Word) (s : State) : Host.Outcome State Fault Refusal :=
  guarded true s ((s.setDutyCycle value).answer [])

end Sys2Proof.Machine
end

