-- ==== Sys2Proof/Machine/Additive.lean ====
section
/-! DEFINITION. Additive synthesis (spec/43_additive.md R150 to R153), evaluated in the order of
spec/40_numerics.md R88. -/

namespace Sys2Proof.Machine

/-- The term of entry `i`: `fmul(sinF(fmul(fmul(TAU_F, p), toF(i + 1))), h)` (R151). -/
def harmonicTerm (f : Fmt) (k : DrawSite) (p : Word) (i : Nat) (h : Word) : Word :=
  fmul f (k.sub 2) (sinF f (fmul f (k.sub 1) (fmul f (k.sub 0) (tauC f) p) (toF f (i + 1)))) h

/-- The loop of R151 from entry `i` on: an entry that is not positive is skipped. -/
def harmonicSumFrom (f : Fmt) (k : DrawSite) (p : Word) : Nat → Word → List Word → Word
  | _, value, [] => value
  | i, value, h :: rest =>
    harmonicSumFrom f k p (i + 1)
      (if fgt f h posZero then fadd f ((k.sub i).sub 3) value (harmonicTerm f (k.sub i) p i h) else value)
      rest

/-- `HarmonicSum(p)` (R151). -/
def harmonicSum (f : Fmt) (k : DrawSite) (p : Word) (harm : List Word) : Word :=
  harmonicSumFrom f k p 0 posZero harm

/-- The loop of R152 from entry `i` on: every entry counts. -/
def amplitudeTotalFrom (f : Fmt) (k : DrawSite) : Nat → Word → List Word → Word
  | _, total, [] => total
  | i, total, h :: rest => amplitudeTotalFrom f k (i + 1) (fadd f (k.sub i) total h) rest

/-- `AmplitudeTotal()` (R152). -/
def amplitudeTotal (f : Fmt) (k : DrawSite) (harm : List Word) : Word :=
  amplitudeTotalFrom f k 0 posZero harm

/-- `Normalize(value, total)`: a division when `total > 1`, else `value` as it is (R153). -/
def normalize (f : Fmt) (k : DrawSite) (value total : Word) : Word :=
  if fgt f total (oneC f) then fdiv f k value total else value

/-- `AdditiveValue(p)` (R150). -/
def additiveValue (f : Fmt) (k : DrawSite) (p : Word) (harm : List Word) : Word :=
  normalize f (k.sub 2) (harmonicSum f (k.sub 0) p harm) (amplitudeTotal f (k.sub 1) harm)

/-! ### Work (R154): the two loops with their operations counted -/

/-- How many times one Additive sample evaluates `sinF`: once per positive entry (R154). -/
def sineEvaluations (f : Fmt) (harm : List Word) : Nat := harm.countP (fun h => fgt f h posZero)

/-- The loop of R151 with a count of its evaluations of `sinF`. -/
def harmonicSumCounted (f : Fmt) (k : DrawSite) (p : Word) : Nat → Word → Nat → List Word → Word × Nat
  | _, value, sines, [] => (value, sines)
  | i, value, sines, h :: rest =>
    if fgt f h posZero then
      harmonicSumCounted f k p (i + 1) (fadd f ((k.sub i).sub 3) value (harmonicTerm f (k.sub i) p i h))
        (sines + 1) rest
    else harmonicSumCounted f k p (i + 1) value sines rest

/-- The loop of R152 with a count of its additions. -/
def amplitudeTotalCounted (f : Fmt) (k : DrawSite) : Nat → Word → Nat → List Word → Word × Nat
  | _, total, additions, [] => (total, additions)
  | i, total, additions, h :: rest =>
    amplitudeTotalCounted f k (i + 1) (fadd f (k.sub i) total h) (additions + 1) rest

end Sys2Proof.Machine
end

