-- ==== Sys2Proof/Machine/Process.lean ====
section
/-! DEFINITION. `process`, the phase accumulator and the closed-form waveforms
(spec/42_process.md R120 to R127). -/

namespace Sys2Proof.Machine

/-- `SineValue(p) = sinF(fmul(TAU_F, p))` (R123). -/
def sineValue (f : Fmt) (k : DrawSite) (p : Word) : Word := sinF f (fmul f (k.sub 0) (tauC f) p)

/-- `SquareValue(p, d)`: `1.0` if `p < d`, else `-1.0`; a NaN compares false (R124). -/
def squareValue (f : Fmt) (p d : Word) : Word := if flt f p d then oneC f else minusOneC f

/-- `SawtoothValue(p) = fsub(fmul(2.0, fsub(p, ffloor(p))), 1.0)`, the floor kept (R125). -/
def sawtoothValue (f : Fmt) (k : DrawSite) (p : Word) : Word :=
  fsub f (k.sub 3) (fmul f (k.sub 2) (twoC f) (fsub f (k.sub 1) p (ffloor f (k.sub 0) p))) (oneC f)

/-- `TriangleValue(p) = fsub(fmul(4.0, fabs(fsub(p, 0.5))), 1.0)` (R126). -/
def triangleValue (f : Fmt) (k : DrawSite) (p : Word) : Word :=
  fsub f (k.sub 2) (fmul f (k.sub 1) (fourC f) (fabs f (fsub f (k.sub 0) p (halfC f)))) (oneC f)

/-- `PulseValue(p, d) = SquareValue(p, d)`: a placeholder, bit for bit Square (R127, K2). -/
def pulseValue (f : Fmt) (p d : Word) : Word := squareValue f p d

/-- `WaveValue(w, p, d)` (R122). -/
def waveValue (f : Fmt) (k : DrawSite) (w : Waveform) (p d : Word) (harm : List Word) : Word :=
  match w with
  | .additive => additiveValue f k p harm
  | .sine => sineValue f k p
  | .square => squareValue f p d
  | .sawtooth => sawtoothValue f k p
  | .triangle => triangleValue f k p
  | .pulse => pulseValue f p d

/-- The site of sample J of the running `process` (log 6). -/
def State.sampleSite (s : State) : DrawSite := (s.site.sub 1).sub s.j

/-- The value of the current sample, from the phase before its increment (R121). -/
def State.sampleValue (s : State) : Word :=
  waveValue s.fmt (s.sampleSite.sub 0) s.waveform s.phase s.dutyCycle s.harm

/-- `wrap(fadd(PHASE, INC))` (R121). -/
def State.nextPhase (s : State) : Word :=
  wrap s.fmt (s.sampleSite.sub 2) (fadd s.fmt (s.sampleSite.sub 1) s.phase s.inc)

/-- `SampleStep(J)`: the sample, and the state after it (R121, R48). -/
def sampleStep (s : State) : Word × State := (s.sampleValue, s.advance s.nextPhase)

/-- `n` sample steps in order: `OUT` and the state after them (R120, R48). -/
def sampleRun : Nat → State → List Word × State
  | 0, s => ([], s)
  | n + 1, s =>
    let one := sampleStep s
    let more := sampleRun n one.2
    (one.1 :: more.1, more.2)

/-- The phase increment of a call: computed once, not per sample (R120, D27). -/
def State.increment (s : State) : Word := fdiv s.fmt (s.site.sub 0) s.frequency s.sampleRate

/-- The silence path: `+0.0` in every slot, PHASE not advanced (R120, R129). -/
def processSilent (len : Nat) (s : State) : State := s.releaseLatches.answer (List.replicate len posZero)

/-- The non-silent path: INC once, then `len` sample steps (R120). -/
def processSounding (len : Nat) (s : State) : State :=
  let done := sampleRun len (s.loadLatches s.increment)
  done.2.releaseLatches.answer done.1

/-- FREQUENCY is the sentinel: a zero of either sign (R23, R120). -/
def State.silent (s : State) : Bool := feq s.fmt s.frequency posZero

/-- `process`: `len` samples in the response (R120). -/
def execProcess (len : Nat) (s : State) : Host.Outcome State Fault Refusal :=
  guarded (withinBound s.params.lMax len) s
    (if s.silent then processSilent len s else processSounding len s)

end Sys2Proof.Machine
end

