-- ==== Sys2Proof/Machine/Spectral.lean ====
section
/-! DEFINITION. The spectral preview (spec/44_spectral.md R170 to R172). -/

namespace Sys2Proof.Machine

/-- `Coefficient(n, d)`: `2 sin(π n d) / (π n)`, signed (R171). -/
def coefficient (f : Fmt) (k : DrawSite) (n : Nat) (d : Word) : Word :=
  let nf := toF f n
  let a := fmul f (k.sub 1) (fmul f (k.sub 0) (piC f) nf) d
  let num := fmul f (k.sub 2) (twoC f) (sinF f a)
  let den := fmul f (k.sub 3) (piC f) nf
  fdiv f (k.sub 4) num den

/-- `PV[n]`: `+0.0` at index 0 (R172), the coefficient at the others (R170). -/
def previewValue (f : Fmt) (k : DrawSite) (d : Word) (n : Nat) : Word :=
  if n = 0 then posZero else coefficient f (k.sub n) n d

/-- The preview vector `PV[0] .. PV[511]`, computed afresh (R43, R170). -/
def previewVector (f : Fmt) (k : DrawSite) (d : Word) : List Word :=
  (List.range previewLen).map (previewValue f k d)

/-- `get_pulse_waveform_data`: the preview of the current duty cycle; no register is written (R170). -/
def execGetPulseWaveformData (s : State) : Host.Outcome State Fault Refusal :=
  guarded true s (s.takeDraws.answer (previewVector s.fmt s.site s.dutyCycle))

end Sys2Proof.Machine
end

