-- ==== Sys2Proof/Machine/Dispatch.lean ====
section
/-! DEFINITION. One arm per command (spec/30_encoding.md R63). -/

namespace Sys2Proof.Machine

def exec (i : Instr) (s : State) : Host.Outcome State Fault Refusal :=
  match i with
  | .construct sampleRate => Sys2Proof.Machine.execConstruct sampleRate s
  | .setWaveform kind => Sys2Proof.Machine.execSetWaveform kind s
  | .setHarmonics amplitudes => Sys2Proof.Machine.execSetHarmonics amplitudes s
  | .noteOn frequency => Sys2Proof.Machine.execNoteOn frequency s
  | .noteOff => Sys2Proof.Machine.execNoteOff s
  | .setDutyCycle value => Sys2Proof.Machine.execSetDutyCycle value s
  | .process len => Sys2Proof.Machine.execProcess len s
  | .getPulseWaveformData => Sys2Proof.Machine.execGetPulseWaveformData s

end Sys2Proof.Machine
end

