-- ==== Sys2Proof/Machine/Step.lean ====
section
/-! DEFINITION. One step: the block takes the next command from the port, decodes it, and runs it to its
response (spec/20_memory.md R47, spec/30_encoding.md R60, R64). -/

namespace Sys2Proof.Machine

/-- Decoding comes before every other check (R64, R183). -/
def runCommand (c : Command) (s : State) : Host.Outcome State Fault Refusal :=
  match decode c with
  | .ok i => exec i s
  | .error _ => illegalCommand s

/-- One command, atomically (R46, R47). With no command on the port the block is idle and holds its
state (R195; log 10). -/
def step (s : State) : Host.Outcome State Fault Refusal :=
  match takeCommand s with
  | none => .next s
  | some (c, s') => runCommand c s'

/-- The command word, operands zero, put where the next step takes its command (log 8). -/
def State.withFetchWord (s : State) (nbits w : Nat) : State :=
  { s with port := tableCommand nbits w :: s.port }

end Sys2Proof.Machine
end

