-- ==== Sys2Proof/Machine/Assembler.lean ====
section
/-! DEFINITION. The host's assembler (spec/30_encoding.md R67 to R69): a command stream, one command a line.
It is not part of the block, which receives bit patterns only (R68). -/

namespace Sys2Proof.Machine

/-- A `<float>` literal (R68). -/
inductive FloatLit where
  /-- A decimal literal `± digits * 10 ^ exp10`. -/
  | decimal (neg : Bool) (digits : Nat) (exp10 : Int)
  /-- `+0.0`. -/
  | posZero
  /-- `-0.0`. -/
  | negZero
  /-- `inf` or `-inf`. -/
  | inf (neg : Bool)
  /-- The `n`-th `nan` literal: a quiet NaN, its payload unspecified (log 20). -/
  | nan (n : Nat)
  /-- `0x` and the hex digits of an FMT bit pattern. -/
  | bits (w : Word)
deriving DecidableEq, Repr

/-- The FMT value of a literal: a decimal literal means the value nearest to it under RNE (R68). -/
def litValue (f : Fmt) : FloatLit → Word
  | .decimal neg digits exp10 =>
    roundTo f neg (digits * 10 ^ exp10.toNat * 2 ^ scaleOf f) (10 ^ (-exp10).toNat)
  | .posZero => zeroOf f false
  | .negZero => zeroOf f true
  | .inf neg => infOf f neg
  | .nan n => quietNaN f (Config.literalNan n)
  | .bits w => f.clip w

/-- One line of a command stream (R67). -/
inductive AsmLine where
  | construct (sampleRate : FloatLit)
  | setWaveform (kind : Waveform)
  | setHarmonics (amplitudes : List FloatLit)
  | noteOn (frequency : FloatLit)
  | noteOff
  | setDutyCycle (value : FloatLit)
  | process (len : Nat)
  | getPulseWaveformData
  /-- `.word`: any command word, illegal ones included, with the operands written after it. -/
  | word (cw : CmdWord) (arg : FloatLit) (seq : List FloatLit) (len : Nat)
deriving DecidableEq, Repr

/-- The command an assembly line stands for: the words and operands of R67. -/
def assemble (f : Fmt) : AsmLine → Command
  | .construct sr => { cw := 0x00000001, arg := litValue f sr, seq := [], len := 0 }
  | .setWaveform kind =>
    { cw := 0x00000002 ||| (kind.code.setWidth 32 <<< 8), arg := 0, seq := [], len := 0 }
  | .setHarmonics amplitudes => { cw := 0x00000003, arg := 0, seq := amplitudes.map (litValue f), len := 0 }
  | .noteOn v => { cw := 0x00000004, arg := litValue f v, seq := [], len := 0 }
  | .noteOff => { cw := 0x00000005, arg := 0, seq := [], len := 0 }
  | .setDutyCycle v => { cw := 0x00000006, arg := litValue f v, seq := [], len := 0 }
  | .process len => { cw := 0x00000007, arg := 0, seq := [], len := len }
  | .getPulseWaveformData => { cw := 0x00000008, arg := 0, seq := [], len := 0 }
  | .word cw arg seq len => { cw := cw, arg := litValue f arg, seq := seq.map (litValue f), len := len }

/-- The command a line is meant to be: none for a raw `.word` (R67). -/
def instrOfLine (f : Fmt) : AsmLine → Option Instr
  | .construct sr => some (.construct (litValue f sr))
  | .setWaveform kind => some (.setWaveform kind)
  | .setHarmonics amplitudes => some (.setHarmonics (amplitudes.map (litValue f)))
  | .noteOn v => some (.noteOn (litValue f v))
  | .noteOff => some .noteOff
  | .setDutyCycle v => some (.setDutyCycle (litValue f v))
  | .process len => some (.process len)
  | .getPulseWaveformData => some .getPulseWaveformData
  | .word _ _ _ _ => none

end Sys2Proof.Machine
end

