-- ==== Sys2Proof/Machine/AssemblerText.lean ====
section
/-! DEFINITION. Reading assembly text (spec/30_encoding.md R67, R68): characters to tokens to lines. -/

namespace Sys2Proof.Machine

/-- The text of a line before its comment: a comment runs from `;` to the end (R67). -/
def beforeComment (line : List Char) : List Char := line.takeWhile (fun c => c != ';')

/-- Characters that are a token of their own. -/
def isMark (c : Char) : Bool := c == '[' || c == ']' || c == ','

/-- Characters between tokens. -/
def isBlank (c : Char) : Bool := c == ' ' || c == '\t' || c == '\r' || c == '\n'

/-- A token read so far, if it is not empty. -/
def flushToken (acc : List Char) : List (List Char) := if acc.isEmpty then [] else [acc.reverse]

/-- The tokens of a line: runs of characters between blanks, and the marks. `acc` holds the token being
read, last character first. -/
def tokens : List Char → List Char → List (List Char)
  | acc, [] => flushToken acc
  | acc, c :: rest =>
    if isBlank c then flushToken acc ++ tokens [] rest
    else if isMark c then flushToken acc ++ [c] :: tokens [] rest
    else tokens (c :: acc) rest

/-- A decimal digit. -/
def digitOf (c : Char) : Option Nat :=
  if 48 ≤ c.toNat ∧ c.toNat ≤ 57 then some (c.toNat - 48) else none

/-- A hexadecimal digit. -/
def hexDigitOf (c : Char) : Option Nat :=
  if 48 ≤ c.toNat ∧ c.toNat ≤ 57 then some (c.toNat - 48)
  else if 65 ≤ c.toNat ∧ c.toNat ≤ 70 then some (c.toNat - 55)
  else if 97 ≤ c.toNat ∧ c.toNat ≤ 102 then some (c.toNat - 87)
  else none

/-- The number of digits in a base, continuing from `acc`; none if a character is no digit. -/
def digitsFrom (base : Nat) (digit : Char → Option Nat) : Nat → List Char → Option Nat
  | acc, [] => some acc
  | acc, c :: rest =>
    match digit c with
    | some d => digitsFrom base digit (acc * base + d) rest
    | none => none

/-- `<nat>`: one decimal digit or more. -/
def readNat (t : List Char) : Option Nat := if t.isEmpty then none else digitsFrom 10 digitOf 0 t

/-- `0x` and exactly `n` hexadecimal digits. -/
def readHex (n : Nat) (t : List Char) : Option Nat :=
  match t with
  | '0' :: 'x' :: ds => if ds.length = n then digitsFrom 16 hexDigitOf 0 ds else none
  | _ => none

/-- A signed decimal exponent. -/
def readExp (t : List Char) : Option Int :=
  match t with
  | '-' :: ds => (readNat ds).map (fun n => -(n : Int))
  | '+' :: ds => (readNat ds).map (fun n => (n : Int))
  | ds => (readNat ds).map (fun n => (n : Int))

/-- An `e` or `E`, which begins a decimal exponent. -/
def isExpMark (c : Char) : Bool := c == 'e' || c == 'E'

/-- A decimal literal without its sign: digits, a point and digits, an exponent (log 20). -/
def readUnsigned (neg : Bool) (t : List Char) : Option FloatLit :=
  let number := t.takeWhile (fun c => !isExpMark c)
  let whole := number.takeWhile (fun c => c != '.')
  let frac := (number.drop whole.length).drop 1
  let expo := t.drop number.length
  match readNat (whole ++ frac), (if expo.isEmpty then some 0 else readExp (expo.drop 1)) with
  | some n, some e => some (.decimal neg n (e - frac.length))
  | _, _ => none

/-- A decimal literal with a sign or none. -/
def readDecimal (t : List Char) : Option FloatLit :=
  match t with
  | '-' :: ds => readUnsigned true ds
  | '+' :: ds => readUnsigned false ds
  | ds => readUnsigned false ds

/-- A `<float>` literal; `n` numbers it, should it be a `nan` (R68). -/
def readFloat (f : Fmt) (n : Nat) (t : List Char) : Option FloatLit :=
  if t = "+0.0".toList then some .posZero
  else if t = "-0.0".toList then some .negZero
  else if t = "inf".toList then some (.inf false)
  else if t = "-inf".toList then some (.inf true)
  else if t = "nan".toList then some (.nan n)
  else if t.take 2 = "0x".toList then (readHex (f.width / 4) t).map (fun v => .bits (BitVec.ofNat 64 v))
  else readDecimal t

/-- The name of a waveform in `set_waveform` (R67). -/
def readKind (t : List Char) : Option Waveform :=
  if t = "sine".toList then some .sine
  else if t = "square".toList then some .square
  else if t = "sawtooth".toList then some .sawtooth
  else if t = "triangle".toList then some .triangle
  else if t = "pulse".toList then some .pulse
  else if t = "additive".toList then some .additive
  else none

/-- The rest of a bracketed list after one of its literals: a comma and a literal, or the closing bracket. -/
def readListTail (f : Fmt) : Nat → List (List Char) → Option (List FloatLit × List (List Char))
  | n, [','] :: t :: rest =>
    match readFloat f n t, readListTail f (n + 1) rest with
    | some v, some (vs, after) => some (v :: vs, after)
    | _, _ => none
  | _, [']'] :: rest => some ([], rest)
  | _, _ => none

/-- A bracketed list of literals and what follows it; `[]` is the empty list (R67). -/
def readList (f : Fmt) (n : Nat) (ts : List (List Char)) : Option (List FloatLit × List (List Char)) :=
  match ts with
  | ['['] :: [']'] :: rest => some ([], rest)
  | ['['] :: t :: rest =>
    match readFloat f n t, readListTail f (n + 1) rest with
    | some v, some (vs, after) => some (v :: vs, after)
    | _, _ => none
  | _ => none

/-- `.word <hex32>`, alone (operands zero) or followed by `<float> [ ... ] <nat>` for ARG, SEQ and LEN (log 20). -/
def readWord (f : Fmt) (n : Nat) (ts : List (List Char)) : Option AsmLine :=
  match ts with
  | [h] => (readHex 8 h).map (fun v => .word (BitVec.ofNat 32 v) .posZero [] 0)
  | h :: a :: rest =>
    match readHex 8 h, readFloat f n a, readList f (n + 1) rest with
    | some v, some arg, some (seq, [l]) => (readNat l).map (fun len => .word (BitVec.ofNat 32 v) arg seq len)
    | _, _, _ => none
  | [] => none

/-- A mnemonic and its operands (R67). -/
def readTokens (f : Fmt) (n : Nat) (ts : List (List Char)) : Option AsmLine :=
  match ts with
  | [] => none
  | [m] =>
    if m = "note_off".toList then some .noteOff
    else if m = "get_pulse_waveform_data".toList then some .getPulseWaveformData
    else none
  | m :: t :: rest =>
    if m = ".word".toList then readWord f n (t :: rest)
    else if m = "set_harmonics".toList then
      match readList f n (t :: rest) with
      | some (vs, []) => some (.setHarmonics vs)
      | _ => none
    else if rest.isEmpty = false then none
    else if m = "construct".toList then (readFloat f n t).map .construct
    else if m = "set_waveform".toList then (readKind t).map .setWaveform
    else if m = "note_on".toList then (readFloat f n t).map .noteOn
    else if m = "set_duty_cycle".toList then (readFloat f n t).map .setDutyCycle
    else if m = "process".toList then (readNat t).map .process
    else none

/-- One line of assembly text; none where the line is empty, a comment only, or not of R67's form. -/
def readLine (f : Fmt) (n : Nat) (line : String) : Option AsmLine :=
  readTokens f n (tokens [] (beforeComment line.toList))

end Sys2Proof.Machine
end

