-- ==== Sys2Proof/Machine/Serial.lean ====
section
/-! DEFINITION. Serialising command words and FMT values for a binding that has bytes
(spec/20_memory.md R44, R45). Nothing at the block's own interface reads a byte. -/

namespace Sys2Proof.Machine

/-- The `n` low bytes of a number, the least significant first. -/
def bytesLow : Nat → Nat → List Byte
  | 0, _ => []
  | n + 1, v => BitVec.ofNat 8 v :: bytesLow n (v / 256)

/-- The number whose bytes are listed, the least significant first. -/
def ofBytesLow : List Byte → Nat
  | [] => 0
  | b :: rest => b.toNat + 256 * ofBytesLow rest

/-- `n` bytes of a number in a byte order (R44). -/
def serialise (o : ByteOrder) (n v : Nat) : List Byte :=
  match o with
  | .little => bytesLow n v
  | .big => (bytesLow n v).reverse

/-- The number whose bytes stand in a byte order (R44). -/
def deserialise (o : ByteOrder) (bytes : List Byte) : Nat :=
  match o with
  | .little => ofBytesLow bytes
  | .big => ofBytesLow bytes.reverse

/-- The bytes of one element, and the alignment a binding gives it: 4 or 8 (R45). -/
def elementBytes (f : Fmt) : Nat := f.width / 8

/-- An FMT value in byte memory: the interchange encoding in BYTE_ORDER (R44). -/
def valueBytes (p : Params) (w : Word) : List Byte := serialise p.byteOrder (elementBytes p.fmt) w.toNat

/-- The FMT value that bytes hold; none unless there is exactly one element (R44). -/
def valueOfBytes (p : Params) (bytes : List Byte) : Option Word :=
  if bytes.length = elementBytes p.fmt then some (BitVec.ofNat 64 (deserialise p.byteOrder bytes)) else none

/-- A command word in byte memory: a 32-bit unsigned integer in BYTE_ORDER (R44). -/
def wordBytes (p : Params) (cw : CmdWord) : List Byte := serialise p.byteOrder 4 cw.toNat

/-- The command word that four bytes hold (R44). -/
def wordOfBytes (p : Params) (bytes : List Byte) : Option CmdWord :=
  if bytes.length = 4 then some (BitVec.ofNat 32 (deserialise p.byteOrder bytes)) else none

end Sys2Proof.Machine
end

