-- ==== Sys2Proof/Safety.lean ====
section
/-! DEFINITION. The terms claims are stated in: data up to the bits of a NaN, the unit interval, a result rounded once,
the registers, the lifecycle, and the well-formed states. -/

namespace Sys2Proof.Machine

/-- Two data no rule tells apart: equal bits, or two NaNs (R82: "Every rule treats any two NaNs alike"). -/
def sameDatum (f : Fmt) (a b : Word) : Prop := a = b ∨ (isNaN f a = true ∧ isNaN f b = true)

/-- Two lists of data no rule tells apart, element by element. -/
def sameData (f : Fmt) (as bs : List Word) : Prop := List.Forall₂ (sameDatum f) as bs

/-- A datum of the interval `[+0.0, 1.0)`: finite, sign clear, below `1.0` (R22, R90). -/
def inUnit (f : Fmt) (w : Word) : Bool :=
  isFinite f w && !signBit f w && decide (magnitude f w < magnitude f (oneC f))

/-- A datum of `[-1.0, 1.0]`. -/
def inBipolar (f : Fmt) (w : Word) : Bool :=
  isFinite f w && decide (magnitude f w ≤ magnitude f (oneC f))

/-- Where a rounding overflows: the largest finite value and half its last place more, in multiples of the smallest
positive subnormal (R81). -/
def overflowBound (f : Fmt) : Nat := magnitude f (packBits f false (infBits f - 1)) + 2 ^ (expMax f - 3)

/-- `r` is the exact value `num / den` (in smallest subnormals) rounded once, to nearest with ties to even: the
infinity of sign `neg` exactly where the value reaches `overflowBound`, else a finite value such that no finite
value is nearer, and one as near is odd where `r` is even (R81). -/
def roundedOnce (f : Fmt) (num den : Int) (neg : Bool) (r : Word) : Prop :=
  (isFinite f r = false ↔ overflowBound f * |den| ≤ |num|) ∧
  (isFinite f r = false → r = infOf f neg) ∧
  (isFinite f r = true → ∀ w, isFinite f w = true →
    |scaled f r * den - num| ≤ |scaled f w * den - num| ∧
    (|scaled f r * den - num| = |scaled f w * den - num| → scaled f w ≠ scaled f r → fracField f r % 2 = 0))

/-- PHASE is in `[+0.0, 1.0)`, or it is a NaN (R22, R130). -/
def phaseOk (s : State) : Bool := inUnit s.fmt s.phase || isNaN s.fmt s.phase

/-- The architectural registers: R20 to R26, and nothing else of the block (R29). -/
structure Registers where
  constructed : Bool
  waveform : Waveform
  phase : Word
  frequency : Word
  dutyCycle : Word
  sampleRate : Word
  harm : List Word
deriving DecidableEq, Repr

/-- The architectural registers of a state. -/
def State.registers (s : State) : Registers :=
  { constructed := s.constructed
    waveform := s.waveform
    phase := s.phase
    frequency := s.frequency
    dutyCycle := s.dutyCycle
    sampleRate := s.sampleRate
    harm := s.harm }

/-- The registers after `construct(sr)` (R32). -/
def constructedRegisters (f : Fmt) (sr : Word) : Registers :=
  { constructed := true
    waveform := .sine
    phase := posZero
    frequency := posZero
    dutyCycle := halfC f
    sampleRate := sr
    harm := [oneC f] }

/-- The three states of R202. -/
inductive Lifecycle where
  | unconstructed
  | silent
  | sounding
deriving DecidableEq, Repr

/-- Where a state stands in the lifecycle (R202). -/
def State.lifecycle (s : State) : Lifecycle :=
  if s.constructed = false then .unconstructed else if s.silent then .silent else .sounding

/-- The host's boot requirement: SAMPLE_RATE finite and above zero (R201, K1). -/
def bootedRate (s : State) : Bool := isFinite s.fmt s.sampleRate && fgt s.fmt s.sampleRate posZero

/-- Every FMT register holds a bit pattern of FMT (R80), and the harmonic store, the one data space the block
keeps, is within its capacity (R26, R40). -/
def State.wellFormed (s : State) : Bool :=
  s.params.wf && s.fmt.fits s.phase && s.fmt.fits s.frequency && s.fmt.fits s.dutyCycle &&
    s.fmt.fits s.sampleRate && s.fmt.fits s.inc && s.harm.all s.fmt.fits &&
    withinBound s.params.hCap s.hlen

/-- Every datum of the response is a bit pattern of FMT (R80). -/
def State.responseFits (s : State) : Bool :=
  match s.response with
  | none => true
  | some r => r.data.all s.fmt.fits

/-- A quiet NaN: every exponent bit and the first fraction bit are set (R82). -/
def isQuietNaN (f : Fmt) (w : Word) : Bool :=
  expField f w == expMax f && decide (2 ^ (f.fracBits - 1) ≤ fracField f w)

/-- The words R66 reserves, read off the word's own bits. -/
def reservedWord (cw : CmdWord) : Prop :=
  cw.toNat / 2 ^ 11 ≠ 0 ∨ cw.toNat % 256 = 0 ∨ 9 ≤ cw.toNat % 256 ∨
    (cw.toNat % 256 ≠ 2 ∧ cw.toNat / 256 % 8 ≠ 0) ∨ (cw.toNat % 256 = 2 ∧ 6 ≤ cw.toNat / 256 % 8)

/-- The operands of an instruction are the port's, field by field (R62). -/
def operandsFrom (c : Command) : Instr → Prop
  | .construct sampleRate => sampleRate = c.arg
  | .setWaveform kind => kind.code.toNat = c.cw.toNat / 256 % 8
  | .setHarmonics amplitudes => amplitudes = c.seq
  | .noteOn frequency => frequency = c.arg
  | .noteOff => True
  | .setDutyCycle value => value = c.arg
  | .process len => len = c.len
  | .getPulseWaveformData => True

/-- The instruction is `construct`, the one command accepted while CONSTRUCTED is 0 (R100). -/
def isConstruct : Instr → Bool
  | .construct _ => true
  | .setWaveform _ | .setHarmonics _ | .noteOn _ | .noteOff | .setDutyCycle _ | .process _
  | .getPulseWaveformData => false

/-- The operand is larger than the machine holds (R180). -/
def overCapacity (p : Params) : Instr → Bool
  | .setHarmonics amplitudes => !withinBound p.hCap amplitudes.length
  | .process len => !withinBound p.lMax len
  | .construct _ | .setWaveform _ | .noteOn _ | .noteOff | .setDutyCycle _ | .getPulseWaveformData => false

/-- The status R183 gives a command, the first fault that applies. -/
def statusOf (s : State) (c : Command) : Status :=
  match decode c with
  | .error _ => .illegalCommand
  | .ok i =>
    if isConstruct i then .ok
    else if s.constructed = false then .notConstructed
    else if overCapacity s.params i then .capacityExceeded
    else .ok

/-- Where sample `j` of a `process` issued in `s` draws its NaNs (log 6). -/
def drawsOfSample (s : State) (j : Nat) : DrawSite := (s.site.sub 1).sub j

/-- PHASE after `j` samples of a `process` issued in `s`: the `j`-fold application of R121 (R128). -/
def phaseAfter (s : State) : Nat → Word
  | 0 => s.phase
  | j + 1 =>
    wrap s.fmt ((drawsOfSample s j).sub 2)
      (fadd s.fmt ((drawsOfSample s j).sub 1) (phaseAfter s j) s.increment)

/-- The samples of a `process` issued in `s`, each from the phase before its increment (R121). -/
def samplesOf (s : State) (len : Nat) : List Word :=
  (List.range len).map fun j =>
    waveValue s.fmt ((drawsOfSample s j).sub 0) s.waveform (phaseAfter s j) s.dutyCycle s.harm

end Sys2Proof.Machine
end

