-- ==== Sys2Proof/Certificates/Slice0/Obligations.lean ====
section
/-! DEFINITION. The statements for the provers. A `f : Fmt` is either format; a `k : DrawSite` says which NaN an
operation would draw, so a statement for every `k` holds whatever NaNs are drawn (R82). -/

open Sys2Proof Sys2Proof.Machine

/-! ### Encoding (spec/30_encoding.md) -/

/-- R62 to R65: the decoder reads back every command the encoder writes, with every operand, and a word that
decodes to an instruction is that instruction's word, with the operands the port carries. -/
def Obligations.DecodeAndEncodeAgree : Prop :=
  (∀ i : Instr, decode (encode i) = .ok i) ∧
    ∀ (c : Command) (i : Instr), decode c = .ok i → c.cw = encodeWord i ∧ operandsFrom c i

/-- R182: ILLEGAL_COMMAND is reported exactly for the reserved words, whatever CONSTRUCTED holds. -/
def Obligations.IllegalExactlyForReservedWords : Prop :=
  ∀ (s : State) (c : Command) (rest : List Command), s.port = c :: rest →
    ((∃ e, decode c = .error e) ↔ reservedWord c.cw) ∧
      (reservedWord c.cw ↔
        ∃ t, step s = .next t ∧ t.response = some { status := .illegalCommand, data := [] })

/-- R63: a word decodes to an instruction exactly when it matches a row of the match and mask table (for
`set_waveform` with a code of at most 5); the row bears the instruction's name and is the only one. -/
def Obligations.OpcodeTableDecidesDecoding : Prop :=
  (opcodeTable.map fun r => (r.mnemonic, r.pattern, r.mask)) =
    [("construct", 0x00000001, 0xFFFFFFFF), ("set_waveform", 0x00000002, 0xFFFFF8FF),
      ("set_harmonics", 0x00000003, 0xFFFFFFFF), ("note_on", 0x00000004, 0xFFFFFFFF),
      ("note_off", 0x00000005, 0xFFFFFFFF), ("set_duty_cycle", 0x00000006, 0xFFFFFFFF),
      ("process", 0x00000007, 0xFFFFFFFF), ("get_pulse_waveform_data", 0x00000008, 0xFFFFFFFF)] ∧
  ∀ c : Command,
    (∀ i, decode c = .ok i →
      ∃ r ∈ opcodeTable, r.accepts c.cw = true ∧ r.mnemonic = mnemonicOf i ∧
        ∀ r' ∈ opcodeTable, r'.accepts c.cw = true → r' = r) ∧
      ∀ r ∈ opcodeTable, r.accepts c.cw = true →
        (r.mnemonic = "set_waveform" → c.cw.toNat / 256 % 8 ≤ 5) →
          ∃ i, decode c = .ok i ∧ mnemonicOf i = r.mnemonic

/-- R65, R70: the six waveform codes and the encoding examples, written out, decode to the commands they stand for;
reserved words decode to none. -/
def Obligations.WrittenWordsDecode : Prop :=
  decode { cw := 0x00000001, arg := 0x472C4400, seq := [], len := 0 } = .ok (.construct 0x472C4400) ∧
  decode { cw := 0x00000002, arg := 0, seq := [], len := 0 } = .ok (.setWaveform .sine) ∧
  decode { cw := 0x00000102, arg := 0, seq := [], len := 0 } = .ok (.setWaveform .square) ∧
  decode { cw := 0x00000202, arg := 0, seq := [], len := 0 } = .ok (.setWaveform .sawtooth) ∧
  decode { cw := 0x00000302, arg := 0, seq := [], len := 0 } = .ok (.setWaveform .triangle) ∧
  decode { cw := 0x00000502, arg := 0, seq := [], len := 0 } = .ok (.setWaveform .additive) ∧
  decode { cw := 0x00000402, arg := 0, seq := [], len := 0 } = .ok (.setWaveform .pulse) ∧
  decode { cw := 0x00000003, arg := 0, seq := [0x3F19999A, 0x3F19999A], len := 0 } =
    .ok (.setHarmonics [0x3F19999A, 0x3F19999A]) ∧
  decode { cw := 0x00000004, arg := 0x3F800000, seq := [], len := 0 } = .ok (.noteOn 0x3F800000) ∧
  decode { cw := 0x00000005, arg := 0, seq := [], len := 0 } = .ok .noteOff ∧
  decode { cw := 0x00000006, arg := 0x3E800000, seq := [], len := 0 } = .ok (.setDutyCycle 0x3E800000) ∧
  decode { cw := 0x00000007, arg := 0, seq := [], len := 4 } = .ok (.process 4) ∧
  decode { cw := 0x00000008, arg := 0, seq := [], len := 0 } = .ok .getPulseWaveformData ∧
  decode { cw := 0x00000602, arg := 0, seq := [], len := 0 } = .error .reservedWaveform ∧
  decode { cw := 0x00000702, arg := 0, seq := [], len := 0 } = .error .reservedWaveform ∧
  decode { cw := 0x00000105, arg := 0, seq := [], len := 0 } = .error .waveformFieldSet ∧
  decode { cw := 0x00000805, arg := 0, seq := [], len := 0 } = .error .reservedBits ∧
  decode { cw := 0x00000000, arg := 0, seq := [], len := 0 } = .error .reservedOpcode

/-- R67, R68, R70: what each line of assembly stands for; every line but `.word` assembles to its command's encoding,
and a `.word` line to its word and operands; a decimal literal is rounded once; the examples read from their text.
That operands a line does not write are zero or empty is the model's choice (log 20). -/
def Obligations.AssemblyLinesEncode : Prop :=
  (∀ f : Fmt,
    (∀ l i, instrOfLine f l = some i → assemble f l = encode i ∧ decode (assemble f l) = .ok i) ∧
    (∀ cw arg seq len, assemble f (.word cw arg seq len) =
      { cw := cw, arg := litValue f arg, seq := seq.map (litValue f), len := len }) ∧
    (∀ x xs kind len,
      instrOfLine f (.construct x) = some (.construct (litValue f x)) ∧
      instrOfLine f (.setWaveform kind) = some (.setWaveform kind) ∧
      instrOfLine f (.setHarmonics xs) = some (.setHarmonics (xs.map (litValue f))) ∧
      instrOfLine f (.noteOn x) = some (.noteOn (litValue f x)) ∧
      instrOfLine f .noteOff = some .noteOff ∧
      instrOfLine f (.setDutyCycle x) = some (.setDutyCycle (litValue f x)) ∧
      instrOfLine f (.process len) = some (.process len) ∧
      instrOfLine f .getPulseWaveformData = some .getPulseWaveformData) ∧
    (∀ (neg : Bool) (digits : Nat) (e : Int),
      roundedOnce f ((if neg then -1 else 1) * (digits * 10 ^ e.toNat * 2 ^ scaleOf f)) (10 ^ (-e).toNat) neg
        (litValue f (.decimal neg digits e))) ∧
    (∀ (neg : Bool) n w, litValue f .posZero = zeroOf f false ∧ litValue f .negZero = zeroOf f true ∧
      litValue f (.inf neg) = infOf f neg ∧ isQuietNaN f (litValue f (.nan n)) = true ∧
      (f.fits w = true → litValue f (.bits w) = w))) ∧
  ∀ r ∈ ([("construct 44100.0", 0x00000001, 0x472C4400, [], 0), ("set_waveform square", 0x00000102, 0, [], 0),
      ("set_waveform additive", 0x00000502, 0, [], 0), ("set_waveform pulse", 0x00000402, 0, [], 0),
      ("set_harmonics [0.6, 0.6]", 0x00000003, 0, [0x3F19999A, 0x3F19999A], 0),
      ("note_on 1.0", 0x00000004, 0x3F800000, [], 0), ("note_off", 0x00000005, 0, [], 0),
      ("set_duty_cycle 0.25", 0x00000006, 0x3E800000, [], 0), ("process 4", 0x00000007, 0, [], 4),
      ("get_pulse_waveform_data", 0x00000008, 0, [], 0), (".word 0x00000602", 0x00000602, 0, [], 0),
      (".word 0x00000105", 0x00000105, 0, [], 0), (".word 0x00000000", 0x00000000, 0, [], 0)] :
      List (String × CmdWord × Word × List Word × Nat)),
    (readLine .binary32 0 r.1).map (assemble .binary32) =
      some { cw := r.2.1, arg := r.2.2.1, seq := r.2.2.2.1, len := r.2.2.2.2 }

/-- R44: a value or a command word written to bytes in BYTE_ORDER is read back whole; little-endian, the default,
puts the least significant byte first, and big-endian is its reverse. -/
def Obligations.SerialisedDataReadBack : Prop :=
  Params.default.byteOrder = .little ∧
  (∀ n v i, i < n → (serialise .little n v)[i]? = some (BitVec.ofNat 8 (v / 256 ^ i))) ∧
  (∀ n v, (serialise .little n v).length = n ∧ serialise .big n v = (serialise .little n v).reverse) ∧
  ∀ p : Params,
    (∀ w : Word, valueBytes p w = serialise p.byteOrder (p.fmt.width / 8) w.toNat ∧
      (p.fmt.fits w = true → valueOfBytes p (valueBytes p w) = some w)) ∧
    ∀ cw : CmdWord, wordBytes p cw = serialise p.byteOrder 4 cw.toNat ∧
      wordOfBytes p (wordBytes p cw) = some cw

/-! ### The command port and the faults (spec/20_memory.md, spec/60_exceptions.md) -/

/-- R47, R60, R195: a step runs the decoded command on the state left when the command is taken; a well-formed
command is taken as it was sent; with no command on the port nothing changes. -/
def Obligations.StepRunsDecodedCommand : Prop :=
  (∀ (s : State) (c : Command) (rest : List Command), s.port = c :: rest → c.wellFormed s.fmt = true →
    onPort s.fmt c = c ∧
      (∀ i, decode c = .ok i → i.wellFormed s.fmt = true ∧ step s = exec i (s.setPort rest)) ∧
        ∀ e, decode c = .error e → step s = illegalCommand (s.setPort rest)) ∧
    ∀ s : State, s.port = [] → step s = .next s

/-- R47, R60: the block answers every command, whatever it is and whatever state it meets, with one response, and
takes no other command from the port. -/
def Obligations.EveryCommandAnswered : Prop :=
  ∀ (s : State) (c : Command) (rest : List Command), s.port = c :: rest →
    ∃ t r, step s = .next t ∧ t.response = some r ∧ t.port = rest ∧ t.params = s.params

/-- R47, R187: commands issued later change nothing of how an earlier command runs. -/
def Obligations.LaterCommandsDoNotInterfere : Prop :=
  ∀ (s t : State) (later : List Command), s.port ≠ [] → step s = .next t →
    step (s.setPort (s.port ++ later)) = .next (t.setPort (t.port ++ later))

/-- R180, R183: exactly one status is reported: ILLEGAL_COMMAND first, then NOT_CONSTRUCTED, then CAPACITY_EXCEEDED,
and OK when none applies; a fault comes with nothing beside its status; the four codes. -/
def Obligations.FaultsReportedByPriority : Prop :=
  (Status.ok.code = 0 ∧ Status.illegalCommand.code = 1 ∧ Status.notConstructed.code = 2 ∧
    Status.capacityExceeded.code = 3) ∧
  ∀ (s : State) (c : Command) (rest : List Command), s.port = c :: rest → c.wellFormed s.fmt = true →
    ∃ t r, step s = .next t ∧ t.response = some r ∧ r.status = statusOf s c ∧
      (statusOf s c ≠ .ok → r.data = [])

/-- R184: a faulted command has no effect: everything but the response, and the command's own place on the port,
is what it was. -/
def Obligations.FaultedCommandChangesNothing : Prop :=
  ∀ (s t : State) (c : Command) (rest : List Command) (r : Response),
    s.port = c :: rest → step s = .next t → t.response = some r → r.status ≠ .ok →
      r.data = [] ∧ t = { s with port := rest, response := some r }

/-- R20, R181: CONSTRUCTED is 0 at power-on; while it is 0 every command but `construct` ends with NOT_CONSTRUCTED
(code 2); `construct` sets CONSTRUCTED; no command clears it. -/
def Obligations.ConstructedGatesCommands : Prop :=
  (∀ (i : Instr) (s : State), s.constructed = false → isConstruct i = false →
    exec i s = .next { s with response := some { status := .notConstructed, data := [] } }) ∧
  Status.notConstructed.code = 2 ∧
  State.reset.constructed = false ∧
  (∀ (sr : Word) (s : State), ∃ t, exec (.construct sr) s = .next t ∧ t.constructed = true) ∧
  ∀ s t : State, s.constructed = true → step s = .next t → t.constructed = true

/-! ### The mutators (spec/41_mutators.md) -/

/-- R32: `construct` writes every register, whatever the state before it; the default values have the bit
patterns of the table. -/
def Obligations.ConstructResetsEveryRegister : Prop :=
  (∀ (sr : Word) (s : State), ∃ t, exec (.construct sr) s = .next t ∧
    t.registers = constructedRegisters s.fmt sr ∧ t.response = some { status := .ok, data := [] } ∧
      t.params = s.params ∧ t.port = s.port ∧ t.hlen = 1) ∧
  (∀ sr, constructedRegisters .binary32 sr =
    { constructed := true, waveform := .sine, phase := 0, frequency := 0, dutyCycle := 0x3F000000,
      sampleRate := sr, harm := [0x3F800000] }) ∧
  ∀ sr, constructedRegisters .binary64 sr =
    { constructed := true, waveform := .sine, phase := 0, frequency := 0, dutyCycle := 0x3FE0000000000000,
      sampleRate := sr, harm := [0x3FF0000000000000] }

/-- R101: `set_waveform` writes WAVEFORM and nothing else, PHASE included. -/
def Obligations.SetWaveformResult : Prop :=
  ∀ (kind : Waveform) (s : State),
    encodeWord (.setWaveform kind) = 0x00000002 ||| (kind.code.setWidth 32 <<< 8) ∧
    (s.constructed = true →
      exec (.setWaveform kind) s =
        .next { s with waveform := kind, response := some { status := .ok, data := [] } }) ∧
    (s.constructed = false →
      exec (.setWaveform kind) s =
        .next { s with response := some { status := .notConstructed, data := [] } })

/-- R102: `set_harmonics` replaces the whole store, bit for bit, or faults and leaves it. -/
def Obligations.SetHarmonicsResult : Prop :=
  ∀ (amplitudes : List Word) (s : State),
    encodeWord (.setHarmonics amplitudes) = 0x00000003 ∧
    (s.constructed = true → withinBound s.params.hCap amplitudes.length = true →
      exec (.setHarmonics amplitudes) s =
        .next { s with harm := amplitudes, response := some { status := .ok, data := [] } }) ∧
    (s.constructed = true → withinBound s.params.hCap amplitudes.length = false →
      exec (.setHarmonics amplitudes) s =
        .next { s with response := some { status := .capacityExceeded, data := [] } }) ∧
    (s.constructed = false →
      exec (.setHarmonics amplitudes) s =
        .next { s with response := some { status := .notConstructed, data := [] } }) ∧
    (s.params.hCap = none → withinBound s.params.hCap amplitudes.length = true) ∧
    (∀ h, s.params.hCap = some h →
      withinBound s.params.hCap amplitudes.length = decide (amplitudes.length ≤ h)) ∧
    State.hlen { s with harm := amplitudes } = amplitudes.length

/-- R103: `note_on` writes FREQUENCY as sent and PHASE `+0.0` whatever it held; a zero of either sign makes the
block silent. -/
def Obligations.NoteOnResult : Prop :=
  ∀ (v : Word) (s : State),
    encodeWord (.noteOn v) = 0x00000004 ∧
    (s.constructed = true →
      exec (.noteOn v) s =
        .next { s with frequency := v, phase := 0, response := some { status := .ok, data := [] } }) ∧
    (s.constructed = false →
      exec (.noteOn v) s = .next { s with response := some { status := .notConstructed, data := [] } }) ∧
    (isZero s.fmt v = true → State.silent { s with frequency := v, phase := 0 } = true)

/-- R104: `note_off` writes FREQUENCY `+0.0` and leaves PHASE as it is; a `process` after it does not advance PHASE
either. -/
def Obligations.NoteOffResult : Prop :=
  ∀ s : State,
    encodeWord .noteOff = 0x00000005 ∧
    (s.constructed = true →
      exec .noteOff s = .next { s with frequency := 0, response := some { status := .ok, data := [] } }) ∧
    (s.constructed = false →
      exec .noteOff s = .next { s with response := some { status := .notConstructed, data := [] } }) ∧
    ∀ len : Nat, s.constructed = true →
      ∃ t u, exec .noteOff s = .next t ∧ exec (.process len) t = .next u ∧ u.phase = s.phase

/-- R105: `set_duty_cycle` writes DUTY_CYCLE as sent, any value, and nothing else. -/
def Obligations.SetDutyCycleResult : Prop :=
  ∀ (v : Word) (s : State),
    encodeWord (.setDutyCycle v) = 0x00000006 ∧
    (s.constructed = true →
      exec (.setDutyCycle v) s =
        .next { s with dutyCycle := v, response := some { status := .ok, data := [] } }) ∧
    (s.constructed = false →
      exec (.setDutyCycle v) s =
        .next { s with response := some { status := .notConstructed, data := [] } })

/-- R46: repeating a mutator with the same operands leaves the same registers and gives the same answer. -/
def Obligations.MutatorsAreIdempotent : Prop :=
  ∀ (i : Instr) (s t : State), (∀ len, i ≠ .process len) → i ≠ .getPulseWaveformData →
    exec i s = .next t → ∃ u, exec i t = .next u ∧ u.registers = t.registers ∧ u.response = t.response

/-- R33: which registers each command may change; the parameters and the port are never a command's to write. -/
def Obligations.CommandsWriteOnlyTheirRegisters : Prop :=
  ∀ (i : Instr) (s t : State), exec i s = .next t →
    t.params = s.params ∧ t.port = s.port ∧
    (t.constructed ≠ s.constructed → ∃ sr, i = .construct sr) ∧
    (t.waveform ≠ s.waveform → (∃ sr, i = .construct sr) ∨ ∃ kind, i = .setWaveform kind) ∧
    (t.phase ≠ s.phase →
      (∃ sr, i = .construct sr) ∨ (∃ v, i = .noteOn v) ∨
        ∃ len, i = .process len ∧ 1 ≤ len ∧ s.silent = false) ∧
    (t.frequency ≠ s.frequency → (∃ sr, i = .construct sr) ∨ (∃ v, i = .noteOn v) ∨ i = .noteOff) ∧
    (t.dutyCycle ≠ s.dutyCycle → (∃ sr, i = .construct sr) ∨ ∃ v, i = .setDutyCycle v) ∧
    (t.sampleRate ≠ s.sampleRate → ∃ sr, i = .construct sr) ∧
    (t.harm ≠ s.harm → (∃ sr, i = .construct sr) ∨ ∃ h, i = .setHarmonics h)

/-- R202: where each command takes the block in its lifecycle, and what `process` does to PHASE in each state. -/
def Obligations.LifecycleMoves : Prop :=
  (∀ (sr : Word) (s : State), ∃ t, exec (.construct sr) s = .next t ∧ t.lifecycle = .silent) ∧
  (∀ s : State, s.constructed = true → ∃ t, exec .noteOff s = .next t ∧ t.lifecycle = .silent) ∧
  (∀ (v : Word) (s : State), s.constructed = true → ∃ t, exec (.noteOn v) s = .next t ∧
    t.lifecycle = if isZero s.fmt v then .silent else .sounding) ∧
  (∀ (i : Instr) (s t : State), isConstruct i = false → i ≠ .noteOff → (∀ v, i ≠ .noteOn v) →
    exec i s = .next t → t.lifecycle = s.lifecycle) ∧
  State.reset.lifecycle = .unconstructed ∧
  (∀ (len : Nat) (s : State), s.lifecycle = .silent →
    ∃ t, exec (.process len) s = .next t ∧ t.phase = s.phase) ∧
  ∀ (len : Nat) (s : State), s.lifecycle = .sounding → withinBound s.params.lMax len = true →
    ∃ t, exec (.process len) s = .next t ∧ t.phase = phaseAfter s len

/-! ### process (spec/42_process.md) -/

/-- R121, R122: the formula each waveform selects, and `process` in every case: the two faults, the silence path, and
the samples of the non-silent path with PHASE advanced once per sample by the one increment
`fdiv(FREQUENCY, SAMPLE_RATE)` of R120. No other register changes. -/
def Obligations.ProcessResult : Prop :=
  (∀ (f : Fmt) (k : DrawSite) (p d : Word) (harm : List Word),
    waveValue f k .sine p d harm = sineValue f k p ∧
    waveValue f k .square p d harm = squareValue f p d ∧
    waveValue f k .sawtooth p d harm = sawtoothValue f k p ∧
    waveValue f k .triangle p d harm = triangleValue f k p ∧
    waveValue f k .pulse p d harm = pulseValue f p d ∧
    waveValue f k .additive p d harm = additiveValue f k p harm) ∧
  ∀ (len : Nat) (s : State),
    encodeWord (.process len) = 0x00000007 ∧
    (∃ k, s.increment = fdiv s.fmt k s.frequency s.sampleRate) ∧
    s.silent = feq s.fmt s.frequency posZero ∧
    (s.params.lMax = none → withinBound s.params.lMax len = true) ∧
    (∀ m, s.params.lMax = some m → withinBound s.params.lMax len = decide (len ≤ m)) ∧
    (s.constructed = false →
      exec (.process len) s = .next { s with response := some { status := .notConstructed, data := [] } }) ∧
    (s.constructed = true → withinBound s.params.lMax len = false →
      exec (.process len) s = .next { s with response := some { status := .capacityExceeded, data := [] } }) ∧
    (s.constructed = true → withinBound s.params.lMax len = true → s.silent = true →
      ∃ t, exec (.process len) s = .next t ∧ t.registers = s.registers ∧
        t.response = some { status := .ok, data := List.replicate len 0 } ∧
          t.params = s.params ∧ t.port = s.port) ∧
    (s.constructed = true → withinBound s.params.lMax len = true → s.silent = false →
      ∃ t, exec (.process len) s = .next t ∧
        t.registers = { s.registers with phase := phaseAfter s len } ∧
          t.response = some { status := .ok, data := samplesOf s len } ∧
            t.params = s.params ∧ t.port = s.port)

/-- R129: while FREQUENCY is a zero, `process` fills the buffer with `+0.0` and leaves PHASE and every other
register unchanged. -/
def Obligations.SilenceLeavesEveryRegister : Prop :=
  ∀ (len : Nat) (s : State), s.constructed = true → withinBound s.params.lMax len = true →
    feq s.fmt s.frequency posZero = true →
      ∃ t, exec (.process len) s = .next t ∧
        t.response = some { status := .ok, data := List.replicate len 0 } ∧ t.registers = s.registers

/-- R128: `process a` and then `process b` give the samples and the PHASE of one `process (a + b)`, up to which
NaNs are drawn. -/
def Obligations.PhaseContinuesAcrossBlocks : Prop :=
  ∀ (a b : Nat) (s : State), s.constructed = true → withinBound s.params.lMax (a + b) = true →
    ∃ t u v as bs cs,
      exec (.process a) s = .next t ∧ t.response = some { status := .ok, data := as } ∧
      exec (.process b) t = .next u ∧ u.response = some { status := .ok, data := bs } ∧
      exec (.process (a + b)) s = .next v ∧ v.response = some { status := .ok, data := cs } ∧
      sameData s.fmt (as ++ bs) cs ∧ sameDatum s.fmt u.phase v.phase

/-- R22, R130: PHASE is in `[+0.0, 1.0)` or a NaN, and every step keeps it so. -/
def Obligations.PhaseStaysInUnitOrNaN : Prop :=
  ∀ s t : State, phaseOk s = true → step s = .next t → phaseOk t = true

/-- R22, R130: while the increment is finite, `process` keeps PHASE in `[+0.0, 1.0)`. R120: with an infinite
SAMPLE_RATE and a finite FREQUENCY the increment is a zero, PHASE stays where it is, and every sample is the same. -/
def Obligations.FiniteIncrementKeepsPhaseInUnit : Prop :=
  ∀ (len : Nat) (s : State), s.constructed = true → withinBound s.params.lMax len = true →
    inUnit s.fmt s.phase = true →
      (isFinite s.fmt s.increment = true →
        ∃ t, exec (.process len) s = .next t ∧ inUnit t.fmt t.phase = true) ∧
      (s.fmt.fits s.phase = true → isFinite s.fmt s.frequency = true → isInf s.fmt s.sampleRate = true →
        isZero s.fmt s.increment = true ∧
          ∃ t data, exec (.process len) s = .next t ∧ t.phase = s.phase ∧
            t.response = some { status := .ok, data := data } ∧
              ∀ v ∈ data, ∀ w ∈ data, sameDatum s.fmt v w)

/-- R130: once the increment is not finite, PHASE is a NaN after the next sample step, whatever it was. R120: it is
not finite while sounding with a zero or NaN SAMPLE_RATE, or a FREQUENCY that is not finite. -/
def Obligations.NonFiniteIncrementMakesPhaseNaN : Prop :=
  (∀ s : State, s.silent = false →
    isZero s.fmt s.sampleRate = true ∨ isNaN s.fmt s.sampleRate = true ∨ isFinite s.fmt s.frequency = false →
      isFinite s.fmt s.increment = false) ∧
  ∀ (len : Nat) (s : State), s.constructed = true → withinBound s.params.lMax (len + 1) = true →
    s.silent = false → isFinite s.fmt s.increment = false →
      ∃ t, exec (.process (len + 1)) s = .next t ∧ isNaN t.fmt t.phase = true

/-- R130: what each waveform gives while PHASE is a NaN. -/
def Obligations.NaNPhaseOutputs : Prop :=
  ∀ (f : Fmt) (k : DrawSite) (p d : Word) (harm : List Word), isNaN f p = true →
    isNaN f (waveValue f k .sine p d harm) = true ∧
    isNaN f (waveValue f k .sawtooth p d harm) = true ∧
    isNaN f (waveValue f k .triangle p d harm) = true ∧
    waveValue f k .square p d harm = minusOneC f ∧
    waveValue f k .pulse p d harm = minusOneC f ∧
    ((∃ h ∈ harm, fgt f h posZero = true) → isNaN f (waveValue f k .additive p d harm) = true) ∧
    ((∀ h ∈ harm, fgt f h posZero = false) → waveValue f k .additive p d harm = posZero)

/-- R120 and C2 with the premise they need (log 21): a sample rate of at least `1.0` and a finite FREQUENCY give a
finite increment. The model's remark, not the spec's sentence. -/
def Obligations.AudioRatesGiveFiniteIncrement : Prop :=
  ∀ s : State, isFinite s.fmt s.frequency = true → isFinite s.fmt s.sampleRate = true →
    flt s.fmt s.sampleRate (oneC s.fmt) = false → isFinite s.fmt s.increment = true

/-- C2's remark that every finite `sample_rate > 0` and finite frequency give a finite increment (R201's premise).
Expected to FAIL: the quotient of R81 overflows for a large frequency and a tiny rate (log 21). -/
def Obligations.EveryBootedRateGivesFiniteIncrement : Prop :=
  ∀ s : State, bootedRate s = true → isFinite s.fmt s.frequency = true →
    isFinite s.fmt s.increment = true

/-- R124: Square is `1.0` or `-1.0`: `1.0` exactly below the duty cycle; `-1.0` at `p = d`, at a duty cycle that is
not above zero, and where either is a NaN; `1.0` at every phase for a duty cycle of `1.0` or more. -/
def Obligations.SquareOutput : Prop :=
  ∀ (f : Fmt) (p d : Word),
    (flt f p d = true → squareValue f p d = oneC f) ∧
    (flt f p d = false → squareValue f p d = minusOneC f) ∧
    squareValue f p p = minusOneC f ∧
    (isNaN f p = true ∨ isNaN f d = true → squareValue f p d = minusOneC f) ∧
    (inUnit f p = true → fgt f d posZero = false → squareValue f p d = minusOneC f) ∧
    (inUnit f p = true → isNaN f d = false → flt f d (oneC f) = false → squareValue f p d = oneC f)

/-- R131, R127: Pulse and Square give the same bits, at every phase and duty cycle and over a whole `process`. -/
def Obligations.PulseEqualsSquare : Prop :=
  (∀ (f : Fmt) (p d : Word), pulseValue f p d = squareValue f p d) ∧
    ∀ (len : Nat) (s : State), ∃ t u,
      exec (.process len) { s with waveform := .pulse } = .next t ∧
      exec (.process len) { s with waveform := .square } = .next u ∧
      t.response = u.response ∧ t.phase = u.phase

/-- R125: Sawtooth is `fsub(fmul(2.0, fsub(p, ffloor(p))), 1.0)`; on `[+0.0, 1.0)` the floor is `+0.0`, the value is
`2p - 1`, and it lies in `[-1.0, 1.0)`; `+0.0` gives `-1.0`, `0.5` gives `+0.0`, and a NaN gives a NaN. -/
def Obligations.SawtoothOutput : Prop :=
  ∀ (f : Fmt) (k k' : DrawSite),
    (∀ p, ∃ k0 k1 k2 k3, sawtoothValue f k p =
      fsub f k3 (fmul f k2 (twoC f) (fsub f k1 p (ffloor f k0 p))) (oneC f)) ∧
    (∀ p, f.fits p = true → inUnit f p = true →
      ffloor f k p = posZero ∧
      sawtoothValue f k p = fsub f k' (fmul f k' (twoC f) p) (oneC f) ∧
      inBipolar f (sawtoothValue f k p) = true ∧ flt f (sawtoothValue f k p) (oneC f) = true) ∧
    sawtoothValue f k posZero = minusOneC f ∧
    sawtoothValue f k (halfC f) = posZero ∧
    ∀ p, isNaN f p = true → isNaN f (sawtoothValue f k p) = true

/-- R126: Triangle is `fsub(fmul(4.0, fabs(fsub(p, 0.5))), 1.0)`, whatever is drawn for a phase in `[+0.0, 1.0)`; it
lies in `[-1.0, 1.0]` there, with its corner values; a NaN gives a NaN. -/
def Obligations.TriangleOutput : Prop :=
  ∀ (f : Fmt) (k : DrawSite),
    (∀ p, ∃ k0 k1 k2, triangleValue f k p =
      fsub f k2 (fmul f k1 (fourC f) (fabs f (fsub f k0 p (halfC f)))) (oneC f)) ∧
    (∀ (k' : DrawSite) p, inUnit f p = true → triangleValue f k p =
      fsub f k' (fmul f k' (fourC f) (fabs f (fsub f k' p (halfC f)))) (oneC f)) ∧
    (∀ p, inUnit f p = true → inBipolar f (triangleValue f k p) = true) ∧
    triangleValue f k posZero = oneC f ∧
    triangleValue f k (fdiv f k (oneC f) (fourC f)) = posZero ∧
    triangleValue f k (halfC f) = minusOneC f ∧
    triangleValue f k (fsub f k (oneC f) (fdiv f k (oneC f) (fourC f))) = posZero ∧
    ∀ p, isNaN f p = true → isNaN f (triangleValue f k p) = true

/-- R87: the constants of each format; PI_F is within half a last place of π, and TAU_F is twice it. R123: Sine
gives `+0.0` at `+0.0`, `sinF(PI_F)` at `0.5`, a NaN at a NaN, and a value of `[-1.0, 1.0]` on `[+0.0, 1.0)`. -/
def Obligations.SineOutput : Prop :=
  ∀ (f : Fmt) (k : DrawSite),
    [piC .binary32, tauC .binary32, halfC .binary32, oneC .binary32, minusOneC .binary32, twoC .binary32,
        fourC .binary32] =
      [0x40490FDB, 0x40C90FDB, 0x3F000000, 0x3F800000, 0xBF800000, 0x40000000, 0x40800000] ∧
    [piC .binary64, tauC .binary64, halfC .binary64, oneC .binary64, minusOneC .binary64, twoC .binary64,
        fourC .binary64] =
      [0x400921FB54442D18, 0x401921FB54442D18, 0x3FE0000000000000, 0x3FF0000000000000, 0xBFF0000000000000,
        0x4000000000000000, 0x4010000000000000] ∧
    |(scaled f (piC f) : ℝ) - Real.pi * 2 ^ scaleOf f| < 2 ^ (scaleOf f - f.fracBits) ∧
    fmul f k (twoC f) (piC f) = tauC f ∧ scaled f (tauC f) = 2 * scaled f (piC f) ∧
    (∀ p, ∃ k', sineValue f k p = sinF f (fmul f k' (tauC f) p)) ∧
    sineValue f k posZero = posZero ∧
    sineValue f k (halfC f) = sinF f (piC f) ∧
    (∀ p, isNaN f p = true → isNaN f (sineValue f k p) = true) ∧
    ∀ p, inUnit f p = true → inBipolar f (sineValue f k p) = true

/-- R123 to R127, R130: with any waveform but Additive, PHASE in `[+0.0, 1.0)` and a finite increment, every sample
of a `process` is a finite value of `[-1.0, 1.0]`. -/
def Obligations.ClosedFormSamplesAreBounded : Prop :=
  ∀ (len : Nat) (s : State), s.constructed = true → withinBound s.params.lMax len = true →
    s.waveform ≠ .additive → inUnit s.fmt s.phase = true → isFinite s.fmt s.increment = true →
      ∃ t data, exec (.process len) s = .next t ∧ t.response = some { status := .ok, data := data } ∧
        data.length = len ∧ ∀ v ∈ data, inBipolar s.fmt v = true

/-- R33: `process` reads DUTY_CYCLE only for Square and Pulse, the harmonic store only for Additive, and none of
WAVEFORM, DUTY_CYCLE, SAMPLE_RATE, PHASE and the store on the silence path. -/
def Obligations.ProcessReadsOnlyItsPath : Prop :=
  ∀ (len : Nat) (s : State) (w : Waveform) (p d sr : Word) (h : List Word), ∃ t,
    exec (.process len) s = .next t ∧
    (s.silent = true → ∃ u,
      exec (.process len) { s with waveform := w, phase := p, dutyCycle := d, sampleRate := sr, harm := h } =
        .next u ∧ u.response = t.response) ∧
    (s.waveform ≠ .square → s.waveform ≠ .pulse →
      ∃ u, exec (.process len) { s with dutyCycle := d } = .next u ∧
        u.response = t.response ∧ u.phase = t.phase) ∧
    (s.waveform ≠ .additive →
      ∃ u, exec (.process len) { s with harm := h } = .next u ∧
        u.response = t.response ∧ u.phase = t.phase)

/-! ### Additive (spec/43_additive.md) -/

/-- R151: the sum starts at `+0.0` and takes the entries in order: a positive entry adds its term, any other adds
nothing. -/
def Obligations.HarmonicSumSkipsNonPositive : Prop :=
  ∀ (f : Fmt) (k : DrawSite) (p : Word) (harm : List Word) (h : Word),
    harmonicSum f k p [] = posZero ∧
    (fgt f h posZero = false → harmonicSum f k p (harm ++ [h]) = harmonicSum f k p harm) ∧
    (fgt f h posZero = true → ∃ k1 k2 k3 k4,
      harmonicSum f k p (harm ++ [h]) =
        fadd f k1 (harmonicSum f k p harm)
          (fmul f k2 (sinF f (fmul f k3 (fmul f k4 (tauC f) p) (toF f (harm.length + 1)))) h))

/-- R152: the total starts at `+0.0` and adds every entry in order, skipping none; a NaN entry makes it a NaN. The two
totals of R157. -/
def Obligations.AmplitudeTotalCountsEveryEntry : Prop :=
  ∀ (f : Fmt) (k : DrawSite) (harm : List Word) (h : Word),
    amplitudeTotal f k [] = posZero ∧
    (∃ k', amplitudeTotal f k (harm ++ [h]) = fadd f k' (amplitudeTotal f k harm) h) ∧
    (h ∈ harm → isNaN f h = true → isNaN f (amplitudeTotal f k harm) = true) ∧
    amplitudeTotal .binary32 k [0x3F19999A, 0x3F19999A] = 0x3F99999A ∧
    amplitudeTotal .binary32 k [0x3E99999A, 0x3E99999A] = 0x3F19999A

/-- R150: AdditiveValue is the sum of R151 normalized by the total of R152. R153: a division when `total > 1`,
else `value` as it is: at exactly `1.0`, at a NaN total and below; an infinite total gives a zero for a finite
value and a NaN for any other. -/
def Obligations.NormalizeDividesAboveOne : Prop :=
  ∀ (f : Fmt) (k : DrawSite) (value total : Word),
    (fgt f total (oneC f) = true → normalize f k value total = fdiv f k value total) ∧
    (fgt f total (oneC f) = false → normalize f k value total = value) ∧
    normalize f k value (oneC f) = value ∧
    (isNaN f total = true → normalize f k value total = value) ∧
    (isFinite f value = true → isZero f (normalize f k value (infOf f false)) = true) ∧
    (isFinite f value = false → isNaN f (normalize f k value (infOf f false)) = true) ∧
    ∀ (p : Word) (harm : List Word), ∃ k1 k2 k3, additiveValue f k p harm =
      if fgt f (amplitudeTotal f k2 harm) (oneC f) then
        fdiv f k1 (harmonicSum f k3 p harm) (amplitudeTotal f k2 harm)
      else harmonicSum f k3 p harm

/-- R154, R132: one sample's two loops, with their operations counted: `sinF` once per positive entry, so at most
HLEN times, and exactly HLEN additions in the total. -/
def Obligations.AdditiveWorkIsBounded : Prop :=
  ∀ (f : Fmt) (k : DrawSite) (p : Word) (harm : List Word),
    harmonicSumCounted f k p 0 posZero 0 harm = (harmonicSum f k p harm, sineEvaluations f harm) ∧
      sineEvaluations f harm = (harm.filter fun h => fgt f h posZero).length ∧
      sineEvaluations f harm ≤ harm.length ∧
        amplitudeTotalCounted f k 0 posZero 0 harm = (amplitudeTotal f k harm, harm.length)

/-- R155: without a positive entry (the empty list among them) Additive gives `+0.0` at every phase. -/
def Obligations.AdditiveWithoutPositiveEntryIsZero : Prop :=
  ∀ (f : Fmt) (k : DrawSite) (p : Word) (harm : List Word),
    (∀ h ∈ harm, fgt f h posZero = false) → additiveValue f k p harm = posZero

/-- R156: with harmonics `[1.0]` Additive gives Sine's bits at every phase in `[+0.0, 1.0)`, and a NaN exactly when
Sine does. -/
def Obligations.AdditiveOfOneEqualsSine : Prop :=
  ∀ (f : Fmt) (k k' : DrawSite) (p : Word),
    (inUnit f p = true → additiveValue f k p [oneC f] = sineValue f k' p) ∧
      (isNaN f (additiveValue f k p [oneC f]) = true ↔ isNaN f (sineValue f k' p) = true)

/-! ### Numerics (spec/40_numerics.md) -/

/-- R80: where the sign, exponent and fraction of each format stand, and what they mean: zeros and subnormals, normal
values, infinities and NaNs. A value is `scaled` times the smallest positive subnormal, of which `1.0` is
`2 ^ scaleOf`. -/
def Obligations.FieldsOfEachFormat : Prop :=
  (∀ w : Word,
    signBit .binary32 w = w.getLsbD 31 ∧ expField .binary32 w = (w.extractLsb' 23 8).toNat ∧
      fracField .binary32 w = (w.extractLsb' 0 23).toNat ∧
    signBit .binary64 w = w.getLsbD 63 ∧ expField .binary64 w = (w.extractLsb' 52 11).toNat ∧
      fracField .binary64 w = (w.extractLsb' 0 52).toNat ∧
    (Fmt.fits .binary32 w = true ↔ w.extractLsb' 32 32 = 0) ∧ Fmt.fits .binary64 w = true) ∧
  scaleOf .binary32 = 149 ∧ scaleOf .binary64 = 1074 ∧
  ∀ (f : Fmt) (w : Word) (neg : Bool),
    (isNaN f w = true ↔ expField f w = 2 ^ f.expBits - 1 ∧ fracField f w ≠ 0) ∧
    (isInf f w = true ↔ expField f w = 2 ^ f.expBits - 1 ∧ fracField f w = 0) ∧
    (isFinite f w = true ↔ expField f w ≠ 2 ^ f.expBits - 1) ∧
    (isZero f w = true ↔ isFinite f w = true ∧ scaled f w = 0) ∧
    (isFinite f w = true → scaled f w = (if signBit f w then -1 else 1) *
      if expField f w = 0 then (fracField f w : Int)
      else (2 ^ f.fracBits + fracField f w) * 2 ^ (expField f w - 1)) ∧
    scaled f (oneC f) = 2 ^ scaleOf f ∧
    (isZero f (zeroOf f neg) = true ∧ signBit f (zeroOf f neg) = neg ∧ zeroOf f false = posZero) ∧
    isInf f (infOf f neg) = true ∧ signBit f (infOf f neg) = neg ∧ f.fits (infOf f neg) = true

/-- R81: sum, difference, product and quotient of finite values are rounded once, to nearest with ties to even; a
result whose exact value is at or beyond the largest finite value and half its last place is the infinity of its
sign. -/
def Obligations.ArithmeticRoundsToNearestEven : Prop :=
  ∀ (f : Fmt) (k : DrawSite) (a b : Word), isFinite f a = true → isFinite f b = true →
    roundedOnce f (scaled f a + scaled f b) 1 (decide (scaled f a + scaled f b < 0)) (fadd f k a b) ∧
    roundedOnce f (scaled f a - scaled f b) 1 (decide (scaled f a < scaled f b)) (fsub f k a b) ∧
    roundedOnce f (scaled f a * scaled f b) (2 ^ scaleOf f) (signBit f a != signBit f b) (fmul f k a b) ∧
    (isZero f b = false →
      roundedOnce f (scaled f a * 2 ^ scaleOf f) (scaled f b) (signBit f a != signBit f b) (fdiv f k a b))

/-- R81: the special cases: a NaN operand, the invalid operations, division by zero. The last clause, an infinity and
a finite value, is IEEE 754's where R81 lists nothing (log 19). -/
def Obligations.ArithmeticSpecialCases : Prop :=
  ∀ (f : Fmt) (k : DrawSite) (x y : Word),
    (isNaN f x = true ∨ isNaN f y = true →
      isNaN f (fadd f k x y) = true ∧ isNaN f (fsub f k x y) = true ∧ isNaN f (fmul f k x y) = true ∧
        isNaN f (fdiv f k x y) = true) ∧
    (isFinite f x = true → isZero f x = false → isZero f y = true →
      fdiv f k x y = infOf f (signBit f x != signBit f y)) ∧
    (isZero f x = true → isZero f y = true → isNaN f (fdiv f k x y) = true) ∧
    (isInf f x = true → isInf f y = true →
      isNaN f (fdiv f k x y) = true ∧
      isNaN f (fadd f k x y) = (signBit f x != signBit f y) ∧
      isNaN f (fsub f k x y) = (signBit f x == signBit f y)) ∧
    (isZero f x = true → isInf f y = true →
      isNaN f (fmul f k x y) = true ∧ isNaN f (fmul f k y x) = true) ∧
    (isFinite f x = true → isInf f y = true →
      fadd f k x y = infOf f (signBit f y) ∧ fadd f k y x = infOf f (signBit f y) ∧
      fdiv f k x y = zeroOf f (signBit f x != signBit f y) ∧
      fdiv f k y x = infOf f (signBit f x != signBit f y) ∧
      (isZero f x = false → fmul f k x y = infOf f (signBit f x != signBit f y)))

/-- R82: a NaN that an operation returns is a quiet NaN; the signs of exact zeros; the exclusive or of signs. -/
def Obligations.NaNAndZeroResults : Prop :=
  ∀ (f : Fmt) (k : DrawSite) (x y : Word),
    (∀ r ∈ [fadd f k x y, fsub f k x y, fmul f k x y, fdiv f k x y, ffloor f k x, wrap f k x],
      isNaN f r = true → isQuietNaN f r = true) ∧
    (isFinite f x = true → fsub f k x x = posZero ∧ fadd f k x (fneg f x) = posZero) ∧
    fadd f k (zeroOf f false) (zeroOf f true) = posZero ∧
    fadd f k (zeroOf f true) (zeroOf f true) = zeroOf f true ∧
    (isFinite f x = true → isFinite f y = true →
      signBit f (fmul f k x y) = (signBit f x != signBit f y) ∧
        (isZero f y = false → signBit f (fdiv f k x y) = (signBit f x != signBit f y)))

/-- R83: `ffloor` is the greatest whole number not above a finite value, exactly; a zero, an infinity and a NaN
stay what they are. `fabs` clears the sign and nothing else. -/
def Obligations.FloorAndAbsAreExact : Prop :=
  ∀ (f : Fmt) (k : DrawSite) (a : Word), f.fits a = true →
    (isFinite f a = true →
      isFinite f (ffloor f k a) = true ∧
      (2 ^ scaleOf f : Int) ∣ scaled f (ffloor f k a) ∧
      scaled f (ffloor f k a) ≤ scaled f a ∧ scaled f a < scaled f (ffloor f k a) + 2 ^ scaleOf f) ∧
    (isZero f a = true ∨ isInf f a = true → ffloor f k a = a) ∧
    (isNaN f a = true → isNaN f (ffloor f k a) = true ∧ isNaN f (fabs f a) = true) ∧
    (isFinite f a = true → scaled f (fabs f a) = |scaled f a|) ∧
    signBit f (fabs f a) = false ∧ expField f (fabs f a) = expField f a ∧
      fracField f (fabs f a) = fracField f a

/-- R84: the comparisons are those of the values, false where either operand is a NaN; of any two others exactly
one holds; the two zeros are equal. -/
def Obligations.ComparisonsAreQuiet : Prop :=
  ∀ (f : Fmt) (a b : Word),
    (isNaN f a = true ∨ isNaN f b = true → flt f a b = false ∧ fgt f a b = false ∧ feq f a b = false) ∧
    (isFinite f a = true → isFinite f b = true →
      flt f a b = decide (scaled f a < scaled f b) ∧ fgt f a b = decide (scaled f b < scaled f a) ∧
        feq f a b = decide (scaled f a = scaled f b)) ∧
    (isFinite f a = true → flt f a (infOf f false) = true ∧ fgt f a (infOf f true) = true) ∧
    flt f (infOf f true) (infOf f false) = true ∧
    (isNaN f a = false → feq f a a = true) ∧
    fgt f a b = flt f b a ∧
    (isNaN f a = false → isNaN f b = false → fgt f a b = !(flt f a b || feq f a b)) ∧
    (flt f a b && feq f a b) = false ∧
    feq f (zeroOf f false) (zeroOf f true) = true

/-- R85: `toF(n)` is `n` rounded once, and exact up to `2 ^ 24` in binary32 and `2 ^ 53` in binary64. -/
def Obligations.WholeNumbersConvertExactly : Prop :=
  ∀ (f : Fmt) (n : Nat),
    roundedOnce f (n * 2 ^ scaleOf f) 1 false (toF f n) ∧
    (n ≤ (match f with | .binary32 => 2 ^ 24 | .binary64 => 2 ^ 53) →
      isFinite f (toF f n) = true ∧ scaled f (toF f n) = n * 2 ^ scaleOf f)

/-- R86: the five properties of `sinF`; the first is that it is a function of its argument's bits. -/
def Obligations.SineHasItsFiveProperties : Prop :=
  ∀ (f : Fmt) (x : Word),
    (isNaN f x = true ∨ isInf f x = true → isNaN f (sinF f x) = true) ∧
    sinF f (zeroOf f false) = zeroOf f false ∧ sinF f (zeroOf f true) = zeroOf f true ∧
    (isFinite f x = true → inBipolar f (sinF f x) = true) ∧
    (isFinite f x = true → fgt f x posZero = true → fgt f x (tauC f) = false → sinF f x ≠ zeroOf f true)

/-- R89, R90 (1, 2, 5): `wrap` of any finite value is `fsub(s, ffloor(s))` with a `1.0` folded to `+0.0`; it is in
`[+0.0, 1.0)` and never `-0.0`; it leaves `[+0.0, 1.0)` alone and makes `-0.0` `+0.0`; of any other value it is a
NaN. -/
def Obligations.WrapLandsInUnit : Prop :=
  ∀ (f : Fmt) (k : DrawSite) (s : Word),
    (isFinite f s = true → inUnit f (wrap f k s) = true ∧ ∀ k' : DrawSite, wrap f k s =
      if feq f (fsub f k' s (ffloor f k' s)) (oneC f) then posZero else fsub f k' s (ffloor f k' s)) ∧
    (f.fits s = true → inUnit f s = true → wrap f k s = s) ∧
    wrap f k (zeroOf f true) = posZero ∧
    (isFinite f s = false → isNaN f (wrap f k s) = true)

/-- R90 (3, 4): between `1.0` and `2.0` `wrap` takes one cycle off, exactly; between `-1.0` and zero it adds one,
or gives `+0.0` where that rounds to `1.0`. -/
def Obligations.WrapAddsOrTakesOneCycle : Prop :=
  ∀ (f : Fmt) (k k' : DrawSite) (s : Word), isFinite f s = true →
    (flt f s (oneC f) = false → flt f s (twoC f) = true →
      wrap f k s = fsub f k' s (oneC f) ∧ scaled f (wrap f k s) = scaled f s - 2 ^ scaleOf f) ∧
    (flt f s (minusOneC f) = false → flt f s posZero = true →
      wrap f k s = if feq f (fadd f k' s (oneC f)) (oneC f) then posZero else fadd f k' s (oneC f))

/-! ### Spectral preview (spec/44_spectral.md) -/

/-- R170 to R172: the preview has 512 values, `+0.0` first and then R171's coefficient of the present duty cycle, and
writes no register. -/
def Obligations.PreviewResult : Prop :=
  ∀ s : State,
    encodeWord .getPulseWaveformData = 0x00000008 ∧
    (s.constructed = true → ∃ t data, exec .getPulseWaveformData s = .next t ∧
      t.response = some { status := .ok, data := data } ∧ t.registers = s.registers ∧
      t.params = s.params ∧ t.port = s.port ∧ data.length = 512 ∧ data[0]? = some 0 ∧
      ∀ n, 1 ≤ n → n ≤ 511 → ∃ k0 k1 k2 k3 k4, data[n]? = some
        (fdiv s.fmt k4
          (fmul s.fmt k2 (twoC s.fmt)
            (sinF s.fmt (fmul s.fmt k1 (fmul s.fmt k0 (piC s.fmt) (toF s.fmt n)) s.dutyCycle)))
          (fmul s.fmt k3 (piC s.fmt) (toF s.fmt n)))) ∧
    (s.constructed = false →
      exec .getPulseWaveformData s =
        .next { s with response := some { status := .notConstructed, data := [] } })

/-- R43, R170: two previews with equal duty cycles are equal (up to which NaNs are drawn), whatever the other
registers hold. -/
def Obligations.PreviewDependsOnDutyCycleOnly : Prop :=
  ∀ s s' t t' : State, s.constructed = true → s'.constructed = true → s.fmt = s'.fmt →
    s.dutyCycle = s'.dutyCycle → exec .getPulseWaveformData s = .next t →
      exec .getPulseWaveformData s' = .next t' →
        ∃ data data', t.response = some { status := .ok, data := data } ∧
          t'.response = some { status := .ok, data := data' } ∧ sameData s.fmt data data'

/-- R171: the coefficient's formula. R173: the coefficients at a zero, a NaN or an infinite duty cycle. -/
def Obligations.PreviewCornerDutyCycles : Prop :=
  ∀ (f : Fmt) (k : DrawSite) (n : Nat), 1 ≤ n → n ≤ 511 →
    (∀ d, ∃ k0 k1 k2 k3 k4, coefficient f k n d =
      fdiv f k4
        (fmul f k2 (twoC f) (sinF f (fmul f k1 (fmul f k0 (piC f) (toF f n)) d)))
        (fmul f k3 (piC f) (toF f n))) ∧
    coefficient f k n (zeroOf f false) = zeroOf f false ∧
    coefficient f k n (zeroOf f true) = zeroOf f true ∧
    ∀ d, isNaN f d = true ∨ isInf f d = true → isNaN f (coefficient f k n d) = true

/-- R173's range for the duty cycles of the nominal domain: in `[0, 1]` every coefficient is finite, and its size
times `n` is at most `1.0`. -/
def Obligations.PreviewFiniteInNominalDomain : Prop :=
  ∀ (f : Fmt) (k : DrawSite) (n : Nat) (d : Word), 1 ≤ n → n ≤ 511 → isFinite f d = true →
    flt f d posZero = false → fgt f d (oneC f) = false →
      isFinite f (coefficient f k n d) = true ∧
        magnitude f (coefficient f k n d) * n ≤ magnitude f (oneC f)

/-- R173's sentence "For a finite `d`, every `PV[n]` is finite". Expected to FAIL: `fmul` of R171 overflows for a
duty cycle near the largest finite value, and the coefficient is then a NaN (log 21). -/
def Obligations.PreviewFiniteForEveryFiniteDuty : Prop :=
  ∀ (f : Fmt) (k : DrawSite) (n : Nat) (d : Word), 1 ≤ n → n ≤ 511 → isFinite f d = true →
    isFinite f (coefficient f k n d) = true

/-! ### Invariants of the whole machine -/

/-- R26, R80: every register holds a bit pattern of FMT and the harmonic store is within H_CAP; every step keeps
this, and every datum of a response it gives is a bit pattern of FMT. -/
def Obligations.StepKeepsStateWellFormed : Prop :=
  ∀ s t : State, s.wellFormed = true → step s = .next t →
    t.wellFormed = true ∧ (s.responseFits = true → t.responseFits = true)

/-- R9: the parameters' defaults. R31: at power-on CONSTRUCTED is 0. The other values are the model's choice (log
3, log 4; log 9 for no response yet): with them the state is well-formed, PHASE is in `[+0.0, 1.0)`, and the
invariants hold. -/
def Obligations.PowerOnState : Prop :=
  State.reset.params.fmt = .binary32 ∧ State.reset.params.hCap = none ∧ State.reset.params.lMax = none ∧
    State.reset.params.byteOrder = .little ∧
  State.reset.constructed = false ∧ State.reset.lifecycle = .unconstructed ∧ State.reset.wellFormed = true ∧
    inUnit State.reset.fmt State.reset.phase = true ∧ phaseOk State.reset = true ∧
    State.reset.response = none ∧ State.reset.responseFits = true
end

