-- ==== Sys2Proof/Laws/Decode.lean ====
section
/-! SUPPORT. Bit fields of command words as arithmetic, and what the port carries. -/

namespace Sys2Proof

theorem opField_toNat (cw : CmdWord) : (opField cw).toNat = cw.toNat % 256 := by
  simp [opField, BitVec.extractLsb'_toNat]

theorem wfField_toNat (cw : CmdWord) : (wfField cw).toNat = cw.toNat / 256 % 8 := by
  simp [wfField, BitVec.extractLsb'_toNat, Nat.shiftRight_eq_div_pow]

theorem rsvField_toNat (cw : CmdWord) : (rsvField cw).toNat = cw.toNat / 2048 := by
  have h := cw.isLt
  simp only [rsvField, BitVec.extractLsb'_toNat, Nat.shiftRight_eq_div_pow]
  omega

theorem wordOf_toNat (op : BitVec 8) (wf : BitVec 3) :
    (wordOf op wf).toNat = wf.toNat * 256 + op.toNat := by
  have ho := op.isLt
  have hw := wf.isLt
  simp only [wordOf, BitVec.toNat_append]
  rw [Nat.shiftLeft_eq, Nat.shiftLeft_eq, ← Nat.shiftLeft_eq, ← Nat.shiftLeft_add_eq_or_of_lt ho]
  simp [Nat.shiftLeft_eq]

/-- Six codes name a waveform, each its own; 6 and 7 name none (R65). -/
theorem ofCode_code (w : Waveform) : Waveform.ofCode w.code = some w := by cases w <;> rfl

/-- A waveform is read back from its own code only. -/
theorem code_of_ofCode {c : BitVec 3} {w : Waveform} (h : Waveform.ofCode c = some w) : w.code = c := by
  revert h
  revert c
  cases w <;> decide

theorem clip_fits (f : Fmt) (w : Word) : f.fits (f.clip w) = true := by
  cases f with
  | binary32 =>
    have := w.isLt
    simp only [Fmt.fits, Fmt.clip, Fmt.width, BitVec.toNat_setWidth, decide_eq_true_eq]
    omega
  | binary64 => exact decide_eq_true w.isLt

theorem clip_of_fits {f : Fmt} {w : Word} (h : f.fits w = true) : f.clip w = w := by
  cases f with
  | binary32 =>
    have h' : w.toNat < 2 ^ 32 := of_decide_eq_true h
    apply BitVec.eq_of_toNat_eq
    simp only [Fmt.clip, BitVec.toNat_setWidth]
    omega
  | binary64 => rfl

end Sys2Proof
end

