-- ==== Sys2Proof/Laws/Format.lean ====
section
/-! SUPPORT. The IEEE 754 fields of packed, rounded and drawn values, the values a rounding leaves alone, and the
order a rounding keeps. -/

namespace Sys2Proof.Machine

/-! ### The two formats -/

/-- The layout facts of R80 the proofs use, for either format. -/
theorem fmt_layout (f : Fmt) :
    0 < 2 ^ f.fracBits ∧ 2 < 2 ^ f.expBits ∧ 2 ^ f.fracBits * 2 ^ f.expBits * 2 = 2 ^ f.width ∧
      2 ^ f.width ≤ 2 ^ 64 ∧ expMax f + 1 = 2 ^ f.expBits := by
  cases f <;> decide

theorem infBits_lt (f : Fmt) : infBits f < 2 ^ (f.fracBits + f.expBits) := by
  cases f <;> decide

/-! ### Packed values -/

theorem packBits_toNat {f : Fmt} {neg : Bool} {m : Nat} (h : m < 2 ^ (f.fracBits + f.expBits)) :
    (packBits f neg m).toNat = m + if neg then 2 ^ (f.fracBits + f.expBits) else 0 := by
  obtain ⟨-, -, h3, h4, -⟩ := fmt_layout f
  rw [packBits, BitVec.toNat_ofNat, Nat.mod_eq_of_lt]
  rw [pow_add] at *
  split <;> omega

theorem packBits_fits {f : Fmt} {neg : Bool} {m : Nat} (h : m < 2 ^ (f.fracBits + f.expBits)) :
    f.fits (packBits f neg m) = true := by
  obtain ⟨-, -, h3, h4, -⟩ := fmt_layout f
  rw [Fmt.fits, decide_eq_true_eq, packBits_toNat h]
  rw [pow_add] at *
  split <;> omega

theorem packBits_fracField {f : Fmt} {neg : Bool} {m : Nat} (h : m < 2 ^ (f.fracBits + f.expBits)) :
    fracField f (packBits f neg m) = m % 2 ^ f.fracBits := by
  rw [fracField, packBits_toNat h, pow_add]
  split
  · rw [Nat.add_mul_mod_self_left]
  · simp

theorem packBits_expField {f : Fmt} {neg : Bool} {m : Nat} (h : m < 2 ^ (f.fracBits + f.expBits)) :
    expField f (packBits f neg m) = m / 2 ^ f.fracBits := by
  obtain ⟨h1, -⟩ := fmt_layout f
  have hlt : m / 2 ^ f.fracBits < 2 ^ f.expBits := by
    rw [Nat.div_lt_iff_lt_mul h1, mul_comm, ← pow_add]
    exact h
  rw [expField, packBits_toNat h, pow_add]
  split
  · rw [Nat.add_mul_div_left _ _ h1, Nat.add_mod_right, Nat.mod_eq_of_lt hlt]
  · rw [Nat.add_zero, Nat.mod_eq_of_lt hlt]

theorem packBits_signBit {f : Fmt} {neg : Bool} {m : Nat} (h : m < 2 ^ (f.fracBits + f.expBits)) :
    signBit f (packBits f neg m) = neg := by
  rw [signBit, packBits_toNat h]
  cases neg with
  | true =>
    simp only [if_true]
    rw [Nat.add_div_right _ (by positivity), Nat.div_eq_of_lt h]
    rfl
  | false => simp [Nat.div_eq_of_lt h]

/-- A value of FMT is packed from its own sign and its other bits. -/
theorem packBits_self {f : Fmt} {w : Word} (h : f.fits w = true) :
    packBits f (signBit f w) (w.toNat % 2 ^ (f.fracBits + f.expBits)) = w := by
  obtain ⟨h1, -, h3, -, -⟩ := fmt_layout f
  rw [Fmt.fits, decide_eq_true_eq] at h
  have hp : 0 < 2 ^ (f.fracBits + f.expBits) := by positivity
  have hq : w.toNat / 2 ^ (f.fracBits + f.expBits) < 2 := by
    rw [Nat.div_lt_iff_lt_mul hp, mul_comm, pow_add]
    omega
  have hm := Nat.div_add_mod w.toNat (2 ^ (f.fracBits + f.expBits))
  apply BitVec.eq_of_toNat_eq
  rw [packBits_toNat (Nat.mod_lt _ hp), signBit]
  generalize w.toNat / 2 ^ (f.fracBits + f.expBits) = q at hq hm ⊢
  interval_cases q
  · simpa using hm
  · simp only [mul_one] at hm
    simp
    omega

/-- The exponent and fraction fields together. -/
theorem toNat_mod_fields (f : Fmt) (w : Word) :
    w.toNat % 2 ^ (f.fracBits + f.expBits) = expField f w * 2 ^ f.fracBits + fracField f w := by
  rw [expField, fracField, pow_add, Nat.mod_mul, Nat.add_comm, mul_comm]

/-! ### Kinds of data -/

theorem isFinite_iff_expField (f : Fmt) (w : Word) : isFinite f w = true ↔ expField f w ≠ expMax f := by
  simp [isFinite]

theorem not_isNaN_of_isFinite {f : Fmt} {w : Word} (h : isFinite f w = true) : isNaN f w = false := by
  simp_all [isFinite, isNaN]

theorem not_isInf_of_isFinite {f : Fmt} {w : Word} (h : isFinite f w = true) : isInf f w = false := by
  simp_all [isFinite, isInf]

/-- Every datum is a NaN, an infinity or finite. -/
theorem kind_cases (f : Fmt) (w : Word) :
    isNaN f w = true ∨ isInf f w = true ∨ isFinite f w = true := by
  by_cases he : expField f w = expMax f
  · by_cases hf : fracField f w = 0
    · exact .inr (.inl (by simp [isInf, he, hf]))
    · exact .inl (by simp [isNaN, he, hf])
  · exact .inr (.inr (by simp [isFinite, he]))

theorem packBits_not_isNaN {f : Fmt} {neg : Bool} {m : Nat} (h : m ≤ infBits f) :
    isNaN f (packBits f neg m) = false := by
  have hm := lt_of_le_of_lt h (infBits_lt f)
  obtain ⟨h1, -⟩ := fmt_layout f
  rw [isNaN, packBits_expField hm, packBits_fracField hm]
  by_cases he : m / 2 ^ f.fracBits = expMax f
  · have hd := Nat.div_add_mod m (2 ^ f.fracBits)
    rw [he] at hd
    have : m % 2 ^ f.fracBits = 0 := by
      rw [infBits, mul_comm] at h
      omega
    simp [this]
  · simp [he]

theorem packBits_isFinite {f : Fmt} {neg : Bool} {m : Nat} (h : m < infBits f) :
    isFinite f (packBits f neg m) = true := by
  have hm := lt_trans h (infBits_lt f)
  obtain ⟨h1, -⟩ := fmt_layout f
  rw [isFinite_iff_expField, packBits_expField hm]
  have : m / 2 ^ f.fracBits < expMax f := by
    rw [Nat.div_lt_iff_lt_mul h1]
    exact h
  omega

theorem infOf_isInf (f : Fmt) (neg : Bool) : isInf f (infOf f neg) = true := by
  cases f <;> cases neg <;> decide

theorem infOf_signBit (f : Fmt) (neg : Bool) : signBit f (infOf f neg) = neg :=
  packBits_signBit (infBits_lt f)

/-! ### Drawn NaNs -/

theorem quietMask_fields (f : Fmt) :
    (quietMask f).toNat = expMax f * 2 ^ f.fracBits + 2 ^ (f.fracBits - 1) := by
  cases f <;> rfl

/-- A quiet NaN made of any bits is one (R82). -/
theorem quietNaN_spec (f : Fmt) (bits : Word) :
    f.fits (quietNaN f bits) = true ∧ isNaN f (quietNaN f bits) = true ∧
      isQuietNaN f (quietNaN f bits) = true := by
  have hfit := clip_fits f bits
  generalize hx : f.clip bits = x at hfit
  cases f with
  | binary32 =>
    have hlt : x.toNat < 2 ^ 32 := of_decide_eq_true hfit
    have hor : (quietNaN .binary32 bits).toNat = x.toNat ||| 2143289344 := by
      rw [quietNaN, hx, BitVec.toNat_or]
      rfl
    have hlt' : x.toNat ||| 2143289344 < 2 ^ 32 := Nat.or_lt_two_pow hlt (by decide)
    have hexp : (x.toNat ||| 2143289344) / 2 ^ 23 % 2 ^ 8 = 255 := by
      rw [← Nat.shiftRight_eq_div_pow, Nat.shiftRight_or_distrib, ← Nat.and_two_pow_sub_one_eq_mod,
        Nat.and_or_distrib_right]
      apply Nat.eq_of_testBit_eq
      intro i
      rcases Nat.lt_or_ge i 8 with h | h
      · interval_cases i <;> simp [Nat.testBit_or, Nat.testBit_and]
      · have h1 : (255 : Nat).testBit i = false := Nat.testBit_lt_two_pow (lt_of_lt_of_le (by decide) (Nat.pow_le_pow_right (by decide) h))
        simp [Nat.testBit_or, Nat.testBit_and, h1]
    have hfrac : 2 ^ 22 ≤ (x.toNat ||| 2143289344) % 2 ^ 23 := by
      apply Nat.ge_two_pow_of_testBit
      rw [Nat.testBit_mod_two_pow, Nat.testBit_or]
      simp
      exact .inr (by decide)
    refine ⟨?_, ?_, ?_⟩
    · simp only [Fmt.fits, Fmt.width, hor]
      exact decide_eq_true hlt'
    · simp only [isNaN, expField, fracField, expMax, Fmt.fracBits, Fmt.expBits, hor, hexp]
      simp
      omega
    · simp only [isQuietNaN, expField, fracField, expMax, Fmt.fracBits, Fmt.expBits, hor, hexp]
      simpa using hfrac
  | binary64 =>
    have hor : (quietNaN .binary64 bits).toNat = x.toNat ||| 9221120237041090560 := by
      rw [quietNaN, hx, BitVec.toNat_or]
      rfl
    have hexp : (x.toNat ||| 9221120237041090560) / 2 ^ 52 % 2 ^ 11 = 2047 := by
      rw [← Nat.shiftRight_eq_div_pow, Nat.shiftRight_or_distrib, ← Nat.and_two_pow_sub_one_eq_mod,
        Nat.and_or_distrib_right]
      apply Nat.eq_of_testBit_eq
      intro i
      rcases Nat.lt_or_ge i 11 with h | h
      · interval_cases i <;> simp [Nat.testBit_or, Nat.testBit_and]
      · have h1 : (2047 : Nat).testBit i = false := Nat.testBit_lt_two_pow (lt_of_lt_of_le (by decide) (Nat.pow_le_pow_right (by decide) h))
        simp [Nat.testBit_or, Nat.testBit_and, h1]
    have hfrac : 2 ^ 51 ≤ (x.toNat ||| 9221120237041090560) % 2 ^ 52 := by
      apply Nat.ge_two_pow_of_testBit
      rw [Nat.testBit_mod_two_pow, Nat.testBit_or]
      simp
      exact .inr (by decide)
    refine ⟨?_, ?_, ?_⟩
    · exact decide_eq_true (BitVec.isLt _)
    · simp only [isNaN, expField, fracField, expMax, Fmt.fracBits, Fmt.expBits, hor, hexp]
      simp
      omega
    · simp only [isQuietNaN, expField, fracField, expMax, Fmt.fracBits, Fmt.expBits, hor, hexp]
      simpa using hfrac

theorem drawNaN_isNaN (f : Fmt) (k : DrawSite) : isNaN f (drawNaN f k) = true := (quietNaN_spec f _).2.1

theorem drawNaN_fits (f : Fmt) (k : DrawSite) : f.fits (drawNaN f k) = true := (quietNaN_spec f _).1

theorem drawNaN_isQuietNaN (f : Fmt) (k : DrawSite) : isQuietNaN f (drawNaN f k) = true :=
  (quietNaN_spec f _).2.2

end Sys2Proof.Machine
end

