-- ==== Sys2Proof/Laws/Rounding.lean ====
section
/-! SUPPORT. Rounding: what it leaves alone, that it keeps order, and how the value of a rounded result reads. -/

namespace Sys2Proof.Machine

/-! ### Rounding to a whole number -/

theorem roundToEven_exact (m : Nat) {d : Nat} (h : 0 < d) : roundToEven (m * d) d = m := by
  simp [roundToEven, Nat.mul_div_cancel _ h]
  omega

theorem roundToEven_between (n d : Nat) : n / d ≤ roundToEven n d ∧ roundToEven n d ≤ n / d + 1 := by
  unfold roundToEven
  dsimp only
  split <;> omega

theorem roundToEven_le {n d m : Nat} (hd : 0 < d) (h : n ≤ m * d) : roundToEven n d ≤ m := by
  have hq : n / d ≤ m := by
    rw [Nat.div_le_iff_le_mul_add_pred hd]
    nlinarith
  have hm := Nat.div_add_mod n d
  unfold roundToEven
  dsimp only
  split
  · rcases Nat.lt_or_ge (n / d) m with hlt | hge
    · exact hlt
    · have : n / d = m := le_antisymm hq hge
      rw [this, mul_comm] at hm
      omega
  · exact hq

theorem le_roundToEven {n d m : Nat} (hd : 0 < d) (h : m * d ≤ n) : m ≤ roundToEven n d :=
  le_trans ((Nat.le_div_iff_mul_le hd).2 h) (roundToEven_between n d).1

/-- Rounding keeps order: `n / d ≤ n' / d'`. -/
theorem roundToEven_mono {n d n' d' : Nat} (hd : 0 < d) (hd' : 0 < d') (h : n * d' ≤ n' * d) :
    roundToEven n d ≤ roundToEven n' d' := by
  have hm := Nat.div_add_mod n d
  have hm' := Nat.div_add_mod n' d'
  have hr := Nat.mod_lt n hd
  have hr' := Nat.mod_lt n' hd'
  have hq : n / d ≤ n' / d' := by
    rw [Nat.le_div_iff_mul_le hd']
    have h1 : n / d * d * d' ≤ n * d' := Nat.mul_le_mul_right _ (Nat.div_mul_le_self n d)
    have h2 : n / d * d' * d ≤ n' * d := by
      calc n / d * d' * d = n / d * d * d' := by ring
        _ ≤ n' * d := le_trans h1 h
    exact Nat.le_of_mul_le_mul_right h2 hd
  rcases Nat.lt_or_ge (n / d) (n' / d') with hlt | hge
  · exact le_trans (roundToEven_between n d).2 (le_trans hlt (roundToEven_between n' d').1)
  · have he : n / d = n' / d' := le_antisymm hq hge
    have hrr : n % d * d' ≤ n' % d' * d := by
      rw [he] at hm
      generalize n' / d' = q' at hm hm'
      have h1 : d * q' * d' + n % d * d' = n * d' := by rw [← Nat.add_mul, hm]
      have h2 : d' * q' * d + n' % d' * d = n' * d := by rw [← Nat.add_mul, hm']
      have h3 : d * q' * d' = d' * q' * d := by ring
      omega
    unfold roundToEven
    dsimp only
    rw [he]
    split
    · rename_i hup
      split
      · exact le_rfl
      · rename_i hno
        exfalso
        rw [he] at *
        rcases hup with h1 | ⟨h1, h2⟩
        · have : ¬ d' < 2 * (n' % d') := fun h3 => hno (.inl h3)
          nlinarith
        · have h3 : ¬ d' < 2 * (n' % d') := fun h3 => hno (.inl h3)
          have h4 : ¬ 2 * (n' % d') = d' := fun h4 => hno (.inr ⟨h4, h2⟩)
          have h5 : 2 * (n' % d') < d' := by omega
          nlinarith
    · split <;> omega

/-! ### Rounding to FMT -/

theorem roundBits_le (f : Fmt) (n d : Nat) : roundBits f n d ≤ infBits f := min_le_right _ _

theorem roundBits_lt (f : Fmt) (n d : Nat) : roundBits f n d < 2 ^ (f.fracBits + f.expBits) :=
  lt_of_le_of_lt (roundBits_le f n d) (infBits_lt f)

theorem roundTo_fits (f : Fmt) (neg : Bool) (n d : Nat) : f.fits (roundTo f neg n d) = true :=
  packBits_fits (roundBits_lt f n d)

theorem roundTo_not_isNaN (f : Fmt) (neg : Bool) (n d : Nat) : isNaN f (roundTo f neg n d) = false :=
  packBits_not_isNaN (roundBits_le f n d)

theorem roundTo_signBit (f : Fmt) (neg : Bool) (n d : Nat) : signBit f (roundTo f neg n d) = neg :=
  packBits_signBit (roundBits_lt f n d)

/-- The binade of a rounding: how far the quotient reaches. -/
theorem roundBits_binade {f : Fmt} {n d k : Nat} (hd : 0 < d) (hk : k = Nat.log2 (n / d) - f.fracBits) :
    n < 2 ^ (f.fracBits + 1) * (d * 2 ^ k) ∧ (0 < k → 2 ^ f.fracBits * (d * 2 ^ k) ≤ n) := by
  have hm := Nat.div_add_mod n d
  have hr := Nat.mod_lt n hd
  constructor
  · have hlog : n / d < 2 ^ (Nat.log2 (n / d) + 1) := Nat.lt_log2_self
    have hpow : 2 ^ (Nat.log2 (n / d) + 1) ≤ 2 ^ (f.fracBits + 1 + k) :=
      Nat.pow_le_pow_right (by decide) (by omega)
    have hlt : n / d < 2 ^ (f.fracBits + 1) * 2 ^ k := by
      rw [← pow_add]
      exact lt_of_lt_of_le hlog hpow
    rw [Nat.div_lt_iff_lt_mul hd] at hlt
    calc n < 2 ^ (f.fracBits + 1) * 2 ^ k * d := hlt
      _ = 2 ^ (f.fracBits + 1) * (d * 2 ^ k) := by ring
  · intro hpos
    have hne : n / d ≠ 0 := by
      intro h0
      rw [h0] at hk
      simp at hk
      omega
    have hlog : 2 ^ Nat.log2 (n / d) ≤ n / d := Nat.log2_self_le hne
    have he : Nat.log2 (n / d) = f.fracBits + k := by omega
    rw [he, pow_add, Nat.le_div_iff_mul_le hd] at hlog
    calc 2 ^ f.fracBits * (d * 2 ^ k) = 2 ^ f.fracBits * 2 ^ k * d := by ring
      _ ≤ n := hlog

/-- Rounding to FMT keeps order. -/
theorem roundBits_mono {f : Fmt} {n d n' d' : Nat} (hd : 0 < d) (hd' : 0 < d') (h : n * d' ≤ n' * d) :
    roundBits f n d ≤ roundBits f n' d' := by
  have hq : n / d ≤ n' / d' := by
    rw [Nat.le_div_iff_mul_le hd']
    have h1 : n / d * d * d' ≤ n * d' := Nat.mul_le_mul_right _ (Nat.div_mul_le_self n d)
    have h2 : n / d * d' * d ≤ n' * d := by
      calc n / d * d' * d = n / d * d * d' := by ring
        _ ≤ n' * d := le_trans h1 h
    exact Nat.le_of_mul_le_mul_right h2 hd
  have hlog : Nat.log2 (n / d) ≤ Nat.log2 (n' / d') := by
    simp only [Nat.log2_eq_log_two]
    exact Nat.log_mono_right hq
  unfold roundBits
  dsimp only
  generalize hk : Nat.log2 (n / d) - f.fracBits = k
  generalize hk' : Nat.log2 (n' / d') - f.fracBits = k'
  have hkk : k ≤ k' := by omega
  have hp : 0 < d * 2 ^ k := by positivity
  have hp' : 0 < d' * 2 ^ k' := by positivity
  apply min_le_min_right
  rcases Nat.lt_or_ge k k' with hlt | hge
  · have hub := roundToEven_le (m := 2 ^ (f.fracBits + 1)) hp (roundBits_binade hd hk.symm).1.le
    have hlb := le_roundToEven (m := 2 ^ f.fracBits) hp' ((roundBits_binade hd' hk'.symm).2 (by omega))
    rw [pow_succ] at hub
    have : (k + 1) * 2 ^ f.fracBits ≤ k' * 2 ^ f.fracBits := Nat.mul_le_mul_right _ hlt
    rw [Nat.add_mul] at this
    omega
  · have : k = k' := le_antisymm hkk hge
    subst this
    have := roundToEven_mono hp hp' (n := n) (n' := n') (by
      calc n * (d' * 2 ^ k) = n * d' * 2 ^ k := by ring
        _ ≤ n' * d * 2 ^ k := Nat.mul_le_mul_right _ h
        _ = n' * (d * 2 ^ k) := by ring)
    omega

/-- The magnitude that exponent and fraction bits stand for. -/
def bitsMagnitude (f : Fmt) (m : Nat) : Nat :=
  if m / 2 ^ f.fracBits = 0 then m % 2 ^ f.fracBits
  else (m % 2 ^ f.fracBits + 2 ^ f.fracBits) * 2 ^ (m / 2 ^ f.fracBits - 1)

theorem magnitude_packBits {f : Fmt} {neg : Bool} {m : Nat} (h : m < 2 ^ (f.fracBits + f.expBits)) :
    magnitude f (packBits f neg m) = bitsMagnitude f m := by
  rw [magnitude, packBits_expField h, packBits_fracField h, bitsMagnitude]

theorem magnitude_roundTo (f : Fmt) (neg : Bool) (n d : Nat) :
    magnitude f (roundTo f neg n d) = bitsMagnitude f (roundBits f n d) :=
  magnitude_packBits (roundBits_lt f n d)

theorem magnitude_eq_bits (f : Fmt) (w : Word) :
    magnitude f w = bitsMagnitude f (w.toNat % 2 ^ (f.fracBits + f.expBits)) := by
  obtain ⟨h1, -⟩ := fmt_layout f
  have hf : fracField f w < 2 ^ f.fracBits := Nat.mod_lt _ h1
  rw [toNat_mod_fields, bitsMagnitude, magnitude, mul_comm (expField f w) _, Nat.mul_add_div h1,
    Nat.div_eq_of_lt hf, Nat.mul_add_mod, Nat.mod_eq_of_lt hf, Nat.add_zero]

/-- A value of FMT is rounded to itself. -/
theorem roundBits_exact {f : Fmt} {m d : Nat} (hd : 0 < d) (hm : m ≤ infBits f) :
    roundBits f (bitsMagnitude f m * d) d = m := by
  obtain ⟨h1, -⟩ := fmt_layout f
  have hr : m % 2 ^ f.fracBits < 2 ^ f.fracBits := Nat.mod_lt _ h1
  have hdm := Nat.div_add_mod m (2 ^ f.fracBits)
  unfold roundBits
  dsimp only
  rw [Nat.mul_div_cancel _ hd]
  generalize hq : m / 2 ^ f.fracBits = e at *
  generalize m % 2 ^ f.fracBits = r at *
  have hbm : bitsMagnitude f m = if e = 0 then r else (r + 2 ^ f.fracBits) * 2 ^ (e - 1) := by
    rw [bitsMagnitude, hq]
    have : m % 2 ^ f.fracBits = r := by
      have := Nat.div_add_mod m (2 ^ f.fracBits)
      rw [hq] at this
      omega
    rw [this]
  rw [hbm]
  rcases Nat.eq_zero_or_pos e with he | he
  · subst he
    simp only [if_true]
    have hlog : Nat.log2 r - f.fracBits = 0 := by
      rcases Nat.eq_zero_or_pos r with h0 | h0
      · subst h0
        simp
      · have := (Nat.log2_lt (by omega)).2 hr
        omega
    rw [hlog, pow_zero, mul_one, roundToEven_exact _ hd, Nat.zero_mul, Nat.zero_add]
    rw [Nat.mul_zero, Nat.zero_add] at hdm
    rw [hdm]
    exact min_eq_left hm
  · rw [if_neg (by omega)]
    have hlog : Nat.log2 ((r + 2 ^ f.fracBits) * 2 ^ (e - 1)) = f.fracBits + (e - 1) := by
      rw [Nat.log2_eq_iff (by positivity)]
      constructor
      · rw [pow_add]
        exact Nat.mul_le_mul_right _ (by omega)
      · rw [show f.fracBits + (e - 1) + 1 = f.fracBits + 1 + (e - 1) by omega, pow_add]
        exact Nat.mul_lt_mul_of_pos_right (by rw [pow_succ]; omega) (by positivity)
    rw [hlog, Nat.add_sub_cancel_left]
    have hmul : (r + 2 ^ f.fracBits) * 2 ^ (e - 1) * d = (r + 2 ^ f.fracBits) * (d * 2 ^ (e - 1)) := by ring
    rw [hmul, roundToEven_exact _ (by positivity)]
    have hsum : (e - 1) * 2 ^ f.fracBits + (r + 2 ^ f.fracBits) = m := by
      obtain ⟨e', rfl⟩ : ∃ e', e = e' + 1 := ⟨e - 1, by omega⟩
      rw [Nat.add_sub_cancel]
      rw [← hdm]
      ring
    rw [hsum]
    exact min_eq_left hm

/-- Rounding a finite value's own magnitude gives the value back (R81: nothing is lost where nothing is to round). -/
theorem roundTo_self {f : Fmt} {w : Word} {d : Nat} (hd : 0 < d) (hfit : f.fits w = true)
    (hfin : isFinite f w = true) : roundTo f (signBit f w) (magnitude f w * d) d = w := by
  obtain ⟨h1, -, -, -, h5⟩ := fmt_layout f
  have hf : fracField f w < 2 ^ f.fracBits := Nat.mod_lt _ h1
  have he : expField f w < 2 ^ f.expBits := Nat.mod_lt _ (by positivity)
  have hne := (isFinite_iff_expField f w).1 hfin
  have hle : w.toNat % 2 ^ (f.fracBits + f.expBits) ≤ infBits f := by
    rw [toNat_mod_fields, infBits]
    have : (expField f w + 1) * 2 ^ f.fracBits ≤ expMax f * 2 ^ f.fracBits :=
      Nat.mul_le_mul_right _ (by omega)
    rw [Nat.add_mul] at this
    omega
  rw [roundTo, magnitude_eq_bits, roundBits_exact hd hle, packBits_self hfit]

theorem packBits_zero (f : Fmt) : packBits f false 0 = posZero := by cases f <;> rfl

theorem signBit_fneg (f : Fmt) (a : Word) : signBit f (fneg f a) = !signBit f a := by
  have hb : ∀ w : Word, signBit f w = w.getLsbD (f.fracBits + f.expBits) := by
    intro w
    rw [signBit, ← BitVec.testBit_toNat, Nat.testBit_eq_decide_div_mod_eq]
  rw [hb, hb, fneg, BitVec.getLsbD_xor]
  have : (signMask f).getLsbD (f.fracBits + f.expBits) = true := by cases f <;> decide
  rw [this, Bool.xor_true]

end Sys2Proof.Machine
end

