-- ==== Sys2Proof/Laws/Numerics.lean ====
section
/-! SUPPORT. What each arithmetic primitive does on each kind of operand, and that every result is a bit pattern of
FMT. -/

namespace Sys2Proof.Machine

variable {f : Fmt} {k : DrawSite} {a b : Word}

/-! ### Addition and subtraction -/

theorem fadd_nan (h : isNaN f a = true ∨ isNaN f b = true) : fadd f k a b = drawNaN f k := by
  rcases h with h | h <;> simp [fadd, h]

theorem fadd_finite (ha : isFinite f a = true) (hb : isFinite f b = true) :
    fadd f k a b = addFinite f a b := by
  simp [fadd, not_isNaN_of_isFinite ha, not_isNaN_of_isFinite hb, not_isInf_of_isFinite ha,
    not_isInf_of_isFinite hb]

theorem zeroOf_fits (f : Fmt) (neg : Bool) : f.fits (zeroOf f neg) = true :=
  packBits_fits (by positivity)

theorem infOf_fits (f : Fmt) (neg : Bool) : f.fits (infOf f neg) = true := packBits_fits (infBits_lt f)

theorem addFinite_fits (f : Fmt) (a b : Word) : f.fits (addFinite f a b) = true := by
  unfold addFinite
  dsimp only
  split
  · exact zeroOf_fits _ _
  · exact roundTo_fits _ _ _ _

theorem addFinite_not_isNaN (f : Fmt) (a b : Word) : isNaN f (addFinite f a b) = false := by
  unfold addFinite
  dsimp only
  split
  · exact packBits_not_isNaN (Nat.zero_le _)
  · exact roundTo_not_isNaN _ _ _ _

/-- A sum is one of four things: a drawn NaN, an infinity of an operand's sign, or the rounded finite sum. -/
theorem fadd_cases (f : Fmt) (k : DrawSite) (a b : Word) :
    fadd f k a b = drawNaN f k ∨ (isInf f a = true ∧ fadd f k a b = infOf f (signBit f a)) ∨
      (isInf f b = true ∧ fadd f k a b = infOf f (signBit f b)) ∨
        (isFinite f a = true ∧ isFinite f b = true ∧ fadd f k a b = addFinite f a b) := by
  rcases kind_cases f a with ha | ha | ha
  · exact .inl (fadd_nan (.inl ha))
  · rcases kind_cases f b with hb | hb | hb
    · exact .inl (fadd_nan (.inr hb))
    · by_cases hs : signBit f a = signBit f b
      · refine .inr (.inl ⟨ha, ?_⟩)
        have h1 : isNaN f a = false := by simp_all [isInf, isNaN]
        have h2 : isNaN f b = false := by simp_all [isInf, isNaN]
        simp [fadd, ha, hb, h1, h2, hs]
      · refine .inl ?_
        have h1 : isNaN f a = false := by simp_all [isInf, isNaN]
        have h2 : isNaN f b = false := by simp_all [isInf, isNaN]
        simp [fadd, ha, hb, h1, h2, hs]
    · refine .inr (.inl ⟨ha, ?_⟩)
      have h1 : isNaN f a = false := by simp_all [isInf, isNaN]
      simp [fadd, ha, h1, not_isNaN_of_isFinite hb, not_isInf_of_isFinite hb]
  · rcases kind_cases f b with hb | hb | hb
    · exact .inl (fadd_nan (.inr hb))
    · refine .inr (.inr (.inl ⟨hb, ?_⟩))
      have h2 : isNaN f b = false := by simp_all [isInf, isNaN]
      simp [fadd, hb, h2, not_isNaN_of_isFinite ha, not_isInf_of_isFinite ha]
    · exact .inr (.inr (.inr ⟨ha, hb, fadd_finite ha hb⟩))

theorem fadd_fits (f : Fmt) (k : DrawSite) (a b : Word) : f.fits (fadd f k a b) = true := by
  rcases fadd_cases f k a b with h | ⟨-, h⟩ | ⟨-, h⟩ | ⟨-, -, h⟩ <;> rw [h]
  · exact drawNaN_fits _ _
  · exact infOf_fits _ _
  · exact infOf_fits _ _
  · exact addFinite_fits _ _ _

theorem fsub_fits (f : Fmt) (k : DrawSite) (a b : Word) : f.fits (fsub f k a b) = true := fadd_fits _ _ _ _

/-! ### Multiplication, division, floor -/

theorem fmul_nan (h : isNaN f a = true ∨ isNaN f b = true) : fmul f k a b = drawNaN f k := by
  rcases h with h | h <;> simp [fmul, h]

theorem fmul_finite (ha : isFinite f a = true) (hb : isFinite f b = true) :
    fmul f k a b =
      roundTo f (signBit f a != signBit f b) (magnitude f a * magnitude f b) (2 ^ scaleOf f) := by
  simp [fmul, not_isNaN_of_isFinite ha, not_isNaN_of_isFinite hb, not_isInf_of_isFinite ha,
    not_isInf_of_isFinite hb]

theorem fmul_fits (f : Fmt) (k : DrawSite) (a b : Word) : f.fits (fmul f k a b) = true := by
  unfold fmul
  dsimp only
  split
  · exact drawNaN_fits _ _
  · split
    · split
      · exact drawNaN_fits _ _
      · exact infOf_fits _ _
    · exact roundTo_fits _ _ _ _

theorem fdiv_nan (h : isNaN f a = true ∨ isNaN f b = true) : fdiv f k a b = drawNaN f k := by
  rcases h with h | h <;> simp [fdiv, h]

theorem fdiv_finite (ha : isFinite f a = true) (hb : isFinite f b = true) (hz : isZero f b = false) :
    fdiv f k a b =
      roundTo f (signBit f a != signBit f b) (magnitude f a * 2 ^ scaleOf f) (magnitude f b) := by
  simp [fdiv, not_isNaN_of_isFinite ha, not_isNaN_of_isFinite hb, not_isInf_of_isFinite ha,
    not_isInf_of_isFinite hb, hz]

theorem fdiv_fits (f : Fmt) (k : DrawSite) (a b : Word) : f.fits (fdiv f k a b) = true := by
  unfold fdiv
  dsimp only
  split
  · exact drawNaN_fits _ _
  · split
    · split
      · exact drawNaN_fits _ _
      · exact infOf_fits _ _
    · split
      · exact zeroOf_fits _ _
      · split
        · split
          · exact drawNaN_fits _ _
          · exact infOf_fits _ _
        · exact roundTo_fits _ _ _ _

theorem ffloor_finite (ha : isFinite f a = true) :
    ffloor f k a =
      roundTo f (signBit f a) (scaled f a / 2 ^ scaleOf f * 2 ^ scaleOf f).natAbs 1 := by
  simp [ffloor, not_isNaN_of_isFinite ha, not_isInf_of_isFinite ha]

theorem ffloor_fits (f : Fmt) (k : DrawSite) (a : Word) : f.fits (ffloor f k a) = true := by
  unfold ffloor
  split
  · exact drawNaN_fits _ _
  · split
    · exact infOf_fits _ _
    · exact roundTo_fits _ _ _ _

/-! ### The sine and the wrap -/

/-- Everything `sinF` can answer (R86). -/
theorem sinF_cases (f : Fmt) (x : Word) :
    ((isNaN f x = true ∨ isInf f x = true) ∧ sinF f x = someNaN f (f.clip (Config.sinRaw f x))) ∨
      (isZero f x = true ∧ sinF f x = x) ∨
        (isFinite f x = true ∧ isZero f x = false ∧
          (sinF f x = posZero ∨
            (sineAllowed f x (sinF f x) = true ∧ f.fits (sinF f x) = true))) := by
  rcases kind_cases f x with hx | hx | hx
  · exact .inl ⟨.inl hx, by simp [sinF, hx]⟩
  · exact .inl ⟨.inr hx, by simp [sinF, hx]⟩
  · have h1 := not_isNaN_of_isFinite hx
    have h2 := not_isInf_of_isFinite hx
    by_cases hz : isZero f x = true
    · exact .inr (.inl ⟨hz, by simp [sinF, h1, h2, hz]⟩)
    · refine .inr (.inr ⟨hx, by simpa using hz, ?_⟩)
      by_cases hs : sineAllowed f x (f.clip (Config.sinRaw f x)) = true
      · have he : sinF f x = f.clip (Config.sinRaw f x) := by simp [sinF, h1, h2, hz, hs]
        exact .inr ⟨by rw [he]; exact hs, by rw [he]; exact clip_fits _ _⟩
      · exact .inl (by simp [sinF, h1, h2, hz, hs])

theorem someNaN_isNaN (f : Fmt) (bits : Word) : isNaN f (someNaN f bits) = true := by
  unfold someNaN
  split
  · assumption
  · exact (quietNaN_spec f bits).2.1

theorem wrap_not_finite (h : isFinite f a = false) : wrap f k a = drawNaN f (k.sub 1) := by
  rcases kind_cases f a with ha | ha | ha
  · simp [wrap, ha]
  · simp [wrap, ha]
  · simp [ha] at h

theorem wrap_finite (h : isFinite f a = true) :
    wrap f k a =
      if feq f (fsub f (k.sub 3) a (ffloor f (k.sub 2) a)) (oneC f) then posZero
      else fsub f (k.sub 3) a (ffloor f (k.sub 2) a) := by
  simp [wrap, not_isNaN_of_isFinite h, not_isInf_of_isFinite h]

theorem posZero_fits (f : Fmt) : f.fits posZero = true := by cases f <;> rfl

theorem wrap_fits (f : Fmt) (k : DrawSite) (s : Word) : f.fits (wrap f k s) = true := by
  cases h : isFinite f s with
  | false => rw [wrap_not_finite h]; exact drawNaN_fits _ _
  | true =>
    rw [wrap_finite h]
    split
    · exact posZero_fits f
    · exact fsub_fits _ _ _ _

end Sys2Proof.Machine
end

