-- ==== Sys2Proof/Laws/State.lean ====
section
/-! SUPPORT. What each update of the state leaves in each field. -/

namespace Sys2Proof.Machine

variable (s : State)

/-! ### setWaveform -/

@[simp] theorem State.setWaveform_params (w : Waveform) : (s.setWaveform w).params = s.params := rfl
@[simp] theorem State.setWaveform_constructed (w : Waveform) : (s.setWaveform w).constructed = s.constructed := rfl
@[simp] theorem State.setWaveform_waveform (w : Waveform) : (s.setWaveform w).waveform = w := rfl
@[simp] theorem State.setWaveform_phase (w : Waveform) : (s.setWaveform w).phase = s.phase := rfl
@[simp] theorem State.setWaveform_frequency (w : Waveform) : (s.setWaveform w).frequency = s.frequency := rfl
@[simp] theorem State.setWaveform_dutyCycle (w : Waveform) : (s.setWaveform w).dutyCycle = s.dutyCycle := rfl
@[simp] theorem State.setWaveform_sampleRate (w : Waveform) : (s.setWaveform w).sampleRate = s.sampleRate := rfl
@[simp] theorem State.setWaveform_harm (w : Waveform) : (s.setWaveform w).harm = s.harm := rfl
@[simp] theorem State.setWaveform_inc (w : Waveform) : (s.setWaveform w).inc = s.inc := rfl
@[simp] theorem State.setWaveform_j (w : Waveform) : (s.setWaveform w).j = s.j := rfl
@[simp] theorem State.setWaveform_port (w : Waveform) : (s.setWaveform w).port = s.port := rfl
@[simp] theorem State.setWaveform_response (w : Waveform) : (s.setWaveform w).response = s.response := rfl
@[simp] theorem State.setWaveform_draws (w : Waveform) : (s.setWaveform w).draws = s.draws := rfl

/-! ### setHarm -/

@[simp] theorem State.setHarm_params (h : List Word) : (s.setHarm h).params = s.params := rfl
@[simp] theorem State.setHarm_constructed (h : List Word) : (s.setHarm h).constructed = s.constructed := rfl
@[simp] theorem State.setHarm_waveform (h : List Word) : (s.setHarm h).waveform = s.waveform := rfl
@[simp] theorem State.setHarm_phase (h : List Word) : (s.setHarm h).phase = s.phase := rfl
@[simp] theorem State.setHarm_frequency (h : List Word) : (s.setHarm h).frequency = s.frequency := rfl
@[simp] theorem State.setHarm_dutyCycle (h : List Word) : (s.setHarm h).dutyCycle = s.dutyCycle := rfl
@[simp] theorem State.setHarm_sampleRate (h : List Word) : (s.setHarm h).sampleRate = s.sampleRate := rfl
@[simp] theorem State.setHarm_harm (h : List Word) : (s.setHarm h).harm = h := rfl
@[simp] theorem State.setHarm_inc (h : List Word) : (s.setHarm h).inc = s.inc := rfl
@[simp] theorem State.setHarm_j (h : List Word) : (s.setHarm h).j = s.j := rfl
@[simp] theorem State.setHarm_port (h : List Word) : (s.setHarm h).port = s.port := rfl
@[simp] theorem State.setHarm_response (h : List Word) : (s.setHarm h).response = s.response := rfl
@[simp] theorem State.setHarm_draws (h : List Word) : (s.setHarm h).draws = s.draws := rfl

/-! ### setFrequency -/

@[simp] theorem State.setFrequency_params (v : Word) : (s.setFrequency v).params = s.params := rfl
@[simp] theorem State.setFrequency_constructed (v : Word) : (s.setFrequency v).constructed = s.constructed := rfl
@[simp] theorem State.setFrequency_waveform (v : Word) : (s.setFrequency v).waveform = s.waveform := rfl
@[simp] theorem State.setFrequency_phase (v : Word) : (s.setFrequency v).phase = s.phase := rfl
@[simp] theorem State.setFrequency_frequency (v : Word) : (s.setFrequency v).frequency = v := rfl
@[simp] theorem State.setFrequency_dutyCycle (v : Word) : (s.setFrequency v).dutyCycle = s.dutyCycle := rfl
@[simp] theorem State.setFrequency_sampleRate (v : Word) : (s.setFrequency v).sampleRate = s.sampleRate := rfl
@[simp] theorem State.setFrequency_harm (v : Word) : (s.setFrequency v).harm = s.harm := rfl
@[simp] theorem State.setFrequency_inc (v : Word) : (s.setFrequency v).inc = s.inc := rfl
@[simp] theorem State.setFrequency_j (v : Word) : (s.setFrequency v).j = s.j := rfl
@[simp] theorem State.setFrequency_port (v : Word) : (s.setFrequency v).port = s.port := rfl
@[simp] theorem State.setFrequency_response (v : Word) : (s.setFrequency v).response = s.response := rfl
@[simp] theorem State.setFrequency_draws (v : Word) : (s.setFrequency v).draws = s.draws := rfl

/-! ### setPhase -/

@[simp] theorem State.setPhase_params (v : Word) : (s.setPhase v).params = s.params := rfl
@[simp] theorem State.setPhase_constructed (v : Word) : (s.setPhase v).constructed = s.constructed := rfl
@[simp] theorem State.setPhase_waveform (v : Word) : (s.setPhase v).waveform = s.waveform := rfl
@[simp] theorem State.setPhase_phase (v : Word) : (s.setPhase v).phase = v := rfl
@[simp] theorem State.setPhase_frequency (v : Word) : (s.setPhase v).frequency = s.frequency := rfl
@[simp] theorem State.setPhase_dutyCycle (v : Word) : (s.setPhase v).dutyCycle = s.dutyCycle := rfl
@[simp] theorem State.setPhase_sampleRate (v : Word) : (s.setPhase v).sampleRate = s.sampleRate := rfl
@[simp] theorem State.setPhase_harm (v : Word) : (s.setPhase v).harm = s.harm := rfl
@[simp] theorem State.setPhase_inc (v : Word) : (s.setPhase v).inc = s.inc := rfl
@[simp] theorem State.setPhase_j (v : Word) : (s.setPhase v).j = s.j := rfl
@[simp] theorem State.setPhase_port (v : Word) : (s.setPhase v).port = s.port := rfl
@[simp] theorem State.setPhase_response (v : Word) : (s.setPhase v).response = s.response := rfl
@[simp] theorem State.setPhase_draws (v : Word) : (s.setPhase v).draws = s.draws := rfl

/-! ### setDutyCycle -/

@[simp] theorem State.setDutyCycle_params (v : Word) : (s.setDutyCycle v).params = s.params := rfl
@[simp] theorem State.setDutyCycle_constructed (v : Word) : (s.setDutyCycle v).constructed = s.constructed := rfl
@[simp] theorem State.setDutyCycle_waveform (v : Word) : (s.setDutyCycle v).waveform = s.waveform := rfl
@[simp] theorem State.setDutyCycle_phase (v : Word) : (s.setDutyCycle v).phase = s.phase := rfl
@[simp] theorem State.setDutyCycle_frequency (v : Word) : (s.setDutyCycle v).frequency = s.frequency := rfl
@[simp] theorem State.setDutyCycle_dutyCycle (v : Word) : (s.setDutyCycle v).dutyCycle = v := rfl
@[simp] theorem State.setDutyCycle_sampleRate (v : Word) : (s.setDutyCycle v).sampleRate = s.sampleRate := rfl
@[simp] theorem State.setDutyCycle_harm (v : Word) : (s.setDutyCycle v).harm = s.harm := rfl
@[simp] theorem State.setDutyCycle_inc (v : Word) : (s.setDutyCycle v).inc = s.inc := rfl
@[simp] theorem State.setDutyCycle_j (v : Word) : (s.setDutyCycle v).j = s.j := rfl
@[simp] theorem State.setDutyCycle_port (v : Word) : (s.setDutyCycle v).port = s.port := rfl
@[simp] theorem State.setDutyCycle_response (v : Word) : (s.setDutyCycle v).response = s.response := rfl
@[simp] theorem State.setDutyCycle_draws (v : Word) : (s.setDutyCycle v).draws = s.draws := rfl

/-! ### loadLatches -/

@[simp] theorem State.loadLatches_params (v : Word) : (s.loadLatches v).params = s.params := rfl
@[simp] theorem State.loadLatches_constructed (v : Word) : (s.loadLatches v).constructed = s.constructed := rfl
@[simp] theorem State.loadLatches_waveform (v : Word) : (s.loadLatches v).waveform = s.waveform := rfl
@[simp] theorem State.loadLatches_phase (v : Word) : (s.loadLatches v).phase = s.phase := rfl
@[simp] theorem State.loadLatches_frequency (v : Word) : (s.loadLatches v).frequency = s.frequency := rfl
@[simp] theorem State.loadLatches_dutyCycle (v : Word) : (s.loadLatches v).dutyCycle = s.dutyCycle := rfl
@[simp] theorem State.loadLatches_sampleRate (v : Word) : (s.loadLatches v).sampleRate = s.sampleRate := rfl
@[simp] theorem State.loadLatches_harm (v : Word) : (s.loadLatches v).harm = s.harm := rfl
@[simp] theorem State.loadLatches_inc (v : Word) : (s.loadLatches v).inc = v := rfl
@[simp] theorem State.loadLatches_j (v : Word) : (s.loadLatches v).j = 0 := rfl
@[simp] theorem State.loadLatches_port (v : Word) : (s.loadLatches v).port = s.port := rfl
@[simp] theorem State.loadLatches_response (v : Word) : (s.loadLatches v).response = s.response := rfl
@[simp] theorem State.loadLatches_draws (v : Word) : (s.loadLatches v).draws = s.draws := rfl

/-! ### advance -/

@[simp] theorem State.advance_params (v : Word) : (s.advance v).params = s.params := rfl
@[simp] theorem State.advance_constructed (v : Word) : (s.advance v).constructed = s.constructed := rfl
@[simp] theorem State.advance_waveform (v : Word) : (s.advance v).waveform = s.waveform := rfl
@[simp] theorem State.advance_phase (v : Word) : (s.advance v).phase = v := rfl
@[simp] theorem State.advance_frequency (v : Word) : (s.advance v).frequency = s.frequency := rfl
@[simp] theorem State.advance_dutyCycle (v : Word) : (s.advance v).dutyCycle = s.dutyCycle := rfl
@[simp] theorem State.advance_sampleRate (v : Word) : (s.advance v).sampleRate = s.sampleRate := rfl
@[simp] theorem State.advance_harm (v : Word) : (s.advance v).harm = s.harm := rfl
@[simp] theorem State.advance_inc (v : Word) : (s.advance v).inc = s.inc := rfl
@[simp] theorem State.advance_j (v : Word) : (s.advance v).j = s.j + 1 := rfl
@[simp] theorem State.advance_port (v : Word) : (s.advance v).port = s.port := rfl
@[simp] theorem State.advance_response (v : Word) : (s.advance v).response = s.response := rfl
@[simp] theorem State.advance_draws (v : Word) : (s.advance v).draws = s.draws := rfl

/-! ### takeDraws -/

@[simp] theorem State.takeDraws_params : (s.takeDraws).params = s.params := rfl
@[simp] theorem State.takeDraws_constructed : (s.takeDraws).constructed = s.constructed := rfl
@[simp] theorem State.takeDraws_waveform : (s.takeDraws).waveform = s.waveform := rfl
@[simp] theorem State.takeDraws_phase : (s.takeDraws).phase = s.phase := rfl
@[simp] theorem State.takeDraws_frequency : (s.takeDraws).frequency = s.frequency := rfl
@[simp] theorem State.takeDraws_dutyCycle : (s.takeDraws).dutyCycle = s.dutyCycle := rfl
@[simp] theorem State.takeDraws_sampleRate : (s.takeDraws).sampleRate = s.sampleRate := rfl
@[simp] theorem State.takeDraws_harm : (s.takeDraws).harm = s.harm := rfl
@[simp] theorem State.takeDraws_inc : (s.takeDraws).inc = s.inc := rfl
@[simp] theorem State.takeDraws_j : (s.takeDraws).j = s.j := rfl
@[simp] theorem State.takeDraws_port : (s.takeDraws).port = s.port := rfl
@[simp] theorem State.takeDraws_response : (s.takeDraws).response = s.response := rfl
@[simp] theorem State.takeDraws_draws : (s.takeDraws).draws = s.draws + 1 := rfl

/-! ### releaseLatches -/

@[simp] theorem State.releaseLatches_params : (s.releaseLatches).params = s.params := rfl
@[simp] theorem State.releaseLatches_constructed : (s.releaseLatches).constructed = s.constructed := rfl
@[simp] theorem State.releaseLatches_waveform : (s.releaseLatches).waveform = s.waveform := rfl
@[simp] theorem State.releaseLatches_phase : (s.releaseLatches).phase = s.phase := rfl
@[simp] theorem State.releaseLatches_frequency : (s.releaseLatches).frequency = s.frequency := rfl
@[simp] theorem State.releaseLatches_dutyCycle : (s.releaseLatches).dutyCycle = s.dutyCycle := rfl
@[simp] theorem State.releaseLatches_sampleRate : (s.releaseLatches).sampleRate = s.sampleRate := rfl
@[simp] theorem State.releaseLatches_harm : (s.releaseLatches).harm = s.harm := rfl
@[simp] theorem State.releaseLatches_inc : (s.releaseLatches).inc = s.fmt.clip (Config.idleInc s.draws) := rfl
@[simp] theorem State.releaseLatches_j : (s.releaseLatches).j = Config.idleJ s.draws := rfl
@[simp] theorem State.releaseLatches_port : (s.releaseLatches).port = s.port := rfl
@[simp] theorem State.releaseLatches_response : (s.releaseLatches).response = s.response := rfl
@[simp] theorem State.releaseLatches_draws : (s.releaseLatches).draws = s.draws + 1 := rfl

/-! ### answer -/

@[simp] theorem State.answer_params (d : List Word) : (s.answer d).params = s.params := rfl
@[simp] theorem State.answer_constructed (d : List Word) : (s.answer d).constructed = s.constructed := rfl
@[simp] theorem State.answer_waveform (d : List Word) : (s.answer d).waveform = s.waveform := rfl
@[simp] theorem State.answer_phase (d : List Word) : (s.answer d).phase = s.phase := rfl
@[simp] theorem State.answer_frequency (d : List Word) : (s.answer d).frequency = s.frequency := rfl
@[simp] theorem State.answer_dutyCycle (d : List Word) : (s.answer d).dutyCycle = s.dutyCycle := rfl
@[simp] theorem State.answer_sampleRate (d : List Word) : (s.answer d).sampleRate = s.sampleRate := rfl
@[simp] theorem State.answer_harm (d : List Word) : (s.answer d).harm = s.harm := rfl
@[simp] theorem State.answer_inc (d : List Word) : (s.answer d).inc = s.inc := rfl
@[simp] theorem State.answer_j (d : List Word) : (s.answer d).j = s.j := rfl
@[simp] theorem State.answer_port (d : List Word) : (s.answer d).port = s.port := rfl
@[simp] theorem State.answer_response (d : List Word) : (s.answer d).response = some { status := .ok, data := d } := rfl
@[simp] theorem State.answer_draws (d : List Word) : (s.answer d).draws = s.draws := rfl

/-! ### raise -/

@[simp] theorem State.raise_params (c : Status) : (s.raise c).params = s.params := rfl
@[simp] theorem State.raise_constructed (c : Status) : (s.raise c).constructed = s.constructed := rfl
@[simp] theorem State.raise_waveform (c : Status) : (s.raise c).waveform = s.waveform := rfl
@[simp] theorem State.raise_phase (c : Status) : (s.raise c).phase = s.phase := rfl
@[simp] theorem State.raise_frequency (c : Status) : (s.raise c).frequency = s.frequency := rfl
@[simp] theorem State.raise_dutyCycle (c : Status) : (s.raise c).dutyCycle = s.dutyCycle := rfl
@[simp] theorem State.raise_sampleRate (c : Status) : (s.raise c).sampleRate = s.sampleRate := rfl
@[simp] theorem State.raise_harm (c : Status) : (s.raise c).harm = s.harm := rfl
@[simp] theorem State.raise_inc (c : Status) : (s.raise c).inc = s.inc := rfl
@[simp] theorem State.raise_j (c : Status) : (s.raise c).j = s.j := rfl
@[simp] theorem State.raise_port (c : Status) : (s.raise c).port = s.port := rfl
@[simp] theorem State.raise_response (c : Status) : (s.raise c).response = some { status := c, data := [] } := rfl
@[simp] theorem State.raise_draws (c : Status) : (s.raise c).draws = s.draws := rfl

/-! ### resetRegisters -/

@[simp] theorem State.resetRegisters_params (sr : Word) : (s.resetRegisters sr).params = s.params := rfl
@[simp] theorem State.resetRegisters_constructed (sr : Word) : (s.resetRegisters sr).constructed = true := rfl
@[simp] theorem State.resetRegisters_waveform (sr : Word) : (s.resetRegisters sr).waveform = .sine := rfl
@[simp] theorem State.resetRegisters_phase (sr : Word) : (s.resetRegisters sr).phase = posZero := rfl
@[simp] theorem State.resetRegisters_frequency (sr : Word) : (s.resetRegisters sr).frequency = posZero := rfl
@[simp] theorem State.resetRegisters_dutyCycle (sr : Word) : (s.resetRegisters sr).dutyCycle = halfC s.fmt := rfl
@[simp] theorem State.resetRegisters_sampleRate (sr : Word) : (s.resetRegisters sr).sampleRate = sr := rfl
@[simp] theorem State.resetRegisters_harm (sr : Word) : (s.resetRegisters sr).harm = [oneC s.fmt] := rfl
@[simp] theorem State.resetRegisters_inc (sr : Word) : (s.resetRegisters sr).inc = s.fmt.clip (Config.idleInc s.draws) := rfl
@[simp] theorem State.resetRegisters_j (sr : Word) : (s.resetRegisters sr).j = Config.idleJ s.draws := rfl
@[simp] theorem State.resetRegisters_port (sr : Word) : (s.resetRegisters sr).port = s.port := rfl
@[simp] theorem State.resetRegisters_response (sr : Word) : (s.resetRegisters sr).response = s.response := rfl
@[simp] theorem State.resetRegisters_draws (sr : Word) : (s.resetRegisters sr).draws = s.draws + 1 := rfl

/-! ### setPort -/

@[simp] theorem State.setPort_params (q : List Command) : (s.setPort q).params = s.params := rfl
@[simp] theorem State.setPort_constructed (q : List Command) : (s.setPort q).constructed = s.constructed := rfl
@[simp] theorem State.setPort_waveform (q : List Command) : (s.setPort q).waveform = s.waveform := rfl
@[simp] theorem State.setPort_phase (q : List Command) : (s.setPort q).phase = s.phase := rfl
@[simp] theorem State.setPort_frequency (q : List Command) : (s.setPort q).frequency = s.frequency := rfl
@[simp] theorem State.setPort_dutyCycle (q : List Command) : (s.setPort q).dutyCycle = s.dutyCycle := rfl
@[simp] theorem State.setPort_sampleRate (q : List Command) : (s.setPort q).sampleRate = s.sampleRate := rfl
@[simp] theorem State.setPort_harm (q : List Command) : (s.setPort q).harm = s.harm := rfl
@[simp] theorem State.setPort_inc (q : List Command) : (s.setPort q).inc = s.inc := rfl
@[simp] theorem State.setPort_j (q : List Command) : (s.setPort q).j = s.j := rfl
@[simp] theorem State.setPort_port (q : List Command) : (s.setPort q).port = q := rfl
@[simp] theorem State.setPort_response (q : List Command) : (s.setPort q).response = s.response := rfl
@[simp] theorem State.setPort_draws (q : List Command) : (s.setPort q).draws = s.draws := rfl

/-! ### FMT and HLEN -/

@[simp] theorem State.setWaveform_fmt (w : Waveform) : (s.setWaveform w).fmt = s.fmt := rfl
@[simp] theorem State.setWaveform_hlen (w : Waveform) : (s.setWaveform w).hlen = s.hlen := rfl
@[simp] theorem State.setHarm_fmt (h : List Word) : (s.setHarm h).fmt = s.fmt := rfl
@[simp] theorem State.setHarm_hlen (h : List Word) : (s.setHarm h).hlen = h.length := rfl
@[simp] theorem State.setFrequency_fmt (v : Word) : (s.setFrequency v).fmt = s.fmt := rfl
@[simp] theorem State.setFrequency_hlen (v : Word) : (s.setFrequency v).hlen = s.hlen := rfl
@[simp] theorem State.setPhase_fmt (v : Word) : (s.setPhase v).fmt = s.fmt := rfl
@[simp] theorem State.setPhase_hlen (v : Word) : (s.setPhase v).hlen = s.hlen := rfl
@[simp] theorem State.setDutyCycle_fmt (v : Word) : (s.setDutyCycle v).fmt = s.fmt := rfl
@[simp] theorem State.setDutyCycle_hlen (v : Word) : (s.setDutyCycle v).hlen = s.hlen := rfl
@[simp] theorem State.loadLatches_fmt (v : Word) : (s.loadLatches v).fmt = s.fmt := rfl
@[simp] theorem State.loadLatches_hlen (v : Word) : (s.loadLatches v).hlen = s.hlen := rfl
@[simp] theorem State.advance_fmt (v : Word) : (s.advance v).fmt = s.fmt := rfl
@[simp] theorem State.advance_hlen (v : Word) : (s.advance v).hlen = s.hlen := rfl
@[simp] theorem State.takeDraws_fmt : (s.takeDraws).fmt = s.fmt := rfl
@[simp] theorem State.takeDraws_hlen : (s.takeDraws).hlen = s.hlen := rfl
@[simp] theorem State.releaseLatches_fmt : (s.releaseLatches).fmt = s.fmt := rfl
@[simp] theorem State.releaseLatches_hlen : (s.releaseLatches).hlen = s.hlen := rfl
@[simp] theorem State.answer_fmt (d : List Word) : (s.answer d).fmt = s.fmt := rfl
@[simp] theorem State.answer_hlen (d : List Word) : (s.answer d).hlen = s.hlen := rfl
@[simp] theorem State.raise_fmt (c : Status) : (s.raise c).fmt = s.fmt := rfl
@[simp] theorem State.raise_hlen (c : Status) : (s.raise c).hlen = s.hlen := rfl
@[simp] theorem State.resetRegisters_fmt (sr : Word) : (s.resetRegisters sr).fmt = s.fmt := rfl
@[simp] theorem State.resetRegisters_hlen (sr : Word) : (s.resetRegisters sr).hlen = 1 := rfl
@[simp] theorem State.setPort_fmt (q : List Command) : (s.setPort q).fmt = s.fmt := rfl
@[simp] theorem State.setPort_hlen (q : List Command) : (s.setPort q).hlen = s.hlen := rfl

/-! ### The registers as a whole -/

@[simp] theorem State.setPort_registers (q : List Command) : (s.setPort q).registers = s.registers := rfl
@[simp] theorem State.answer_registers (d : List Word) : (s.answer d).registers = s.registers := rfl
@[simp] theorem State.raise_registers (c : Status) : (s.raise c).registers = s.registers := rfl
@[simp] theorem State.takeDraws_registers : s.takeDraws.registers = s.registers := rfl
@[simp] theorem State.releaseLatches_registers : s.releaseLatches.registers = s.registers := rfl
@[simp] theorem State.loadLatches_registers (v : Word) : (s.loadLatches v).registers = s.registers := rfl
@[simp] theorem State.advance_registers (v : Word) :
    (s.advance v).registers = { s.registers with phase := v } := rfl
@[simp] theorem State.resetRegisters_registers (sr : Word) :
    (s.resetRegisters sr).registers = constructedRegisters s.fmt sr := rfl

end Sys2Proof.Machine
end

