-- ==== Sys2Proof/Laws/Ops.lean ====
section
/-! SUPPORT. What each shared operation can do, said once: the checks before a command, the command port, a step,
and the sample loop. -/

namespace Sys2Proof.Machine

/-! ### The checks before a command -/

/-- A checked command answers a next state in one of three ways, in R183's order. -/
theorem guarded_cases {fits : Bool} {s done t : State} (h : guarded fits s done = .next t) :
    (s.constructed = false ∧ t = s.raise .notConstructed) ∨
      (s.constructed = true ∧ fits = false ∧ t = s.raise .capacityExceeded) ∨
        (s.constructed = true ∧ fits = true ∧ t = done) := by
  unfold guarded at h
  split at h
  · exact .inl ⟨by assumption, by simpa using h.symm⟩
  · split at h
    · exact .inr (.inl ⟨by simp_all, by assumption, by simpa using h.symm⟩)
    · exact .inr (.inr ⟨by simp_all, by simp_all, by simpa using h.symm⟩)

theorem guarded_unconstructed {fits : Bool} {s done : State} (h : s.constructed = false) :
    guarded fits s done = .next (s.raise .notConstructed) := by simp [guarded, h]

theorem guarded_overCapacity {s done : State} (h : s.constructed = true) :
    guarded false s done = .next (s.raise .capacityExceeded) := by simp [guarded, h]

theorem guarded_done {s done : State} (h : s.constructed = true) :
    guarded true s done = .next done := by simp [guarded, h]

/-! ### The command port -/

theorem takeCommand_nil {s : State} (h : s.port = []) : takeCommand s = none := by simp [takeCommand, h]

theorem takeCommand_cons {s : State} {c : Command} {rest : List Command} (h : s.port = c :: rest) :
    takeCommand s = some (onPort s.fmt c, s.setPort rest) := by simp [takeCommand, h]

/-- Everything a step can do: nothing when no command waits, an ILLEGAL_COMMAND answer, or one command. -/
theorem step_cases (s : State) :
    (s.port = [] ∧ step s = .next s) ∨
      ∃ c rest, s.port = c :: rest ∧
        ((∃ e, decode (onPort s.fmt c) = .error e ∧
            step s = .next ((s.setPort rest).raise .illegalCommand)) ∨
          ∃ i, decode (onPort s.fmt c) = .ok i ∧ step s = exec i (s.setPort rest)) := by
  cases hp : s.port with
  | nil => exact .inl ⟨rfl, by simp [step, takeCommand_nil hp]⟩
  | cons c rest =>
    refine .inr ⟨c, rest, rfl, ?_⟩
    cases hd : decode (onPort s.fmt c) with
    | error e => exact .inl ⟨e, rfl, by simp [step, takeCommand_cons hp, runCommand, hd, illegalCommand]⟩
    | ok i => exact .inr ⟨i, rfl, by simp [step, takeCommand_cons hp, runCommand, hd]⟩

/-! ### The sample loop -/

@[simp] theorem sampleRun_zero (s : State) : sampleRun 0 s = ([], s) := rfl

@[simp] theorem sampleRun_succ (n : Nat) (s : State) :
    sampleRun (n + 1) s =
      (s.sampleValue :: (sampleRun n (s.advance s.nextPhase)).1, (sampleRun n (s.advance s.nextPhase)).2) := rfl

/-- R42: a run gives one sample a step. -/
theorem sampleRun_length (n : Nat) (s : State) : (sampleRun n s).1.length = n := by
  induction n generalizing s with
  | zero => rfl
  | succ n ih => simp [ih]

/-- R121: a run writes PHASE and counts J, and nothing else. -/
theorem sampleRun_frame (n : Nat) (s : State) :
    (sampleRun n s).2 = { s with phase := (sampleRun n s).2.phase, j := s.j + n } := by
  induction n generalizing s with
  | zero => rfl
  | succ n ih =>
    rw [sampleRun_succ, ih]
    simp [State.advance, Nat.add_assoc, Nat.add_comm 1 n]

/-- R48, R128: a run of `m + n` steps is a run of `m` and then a run of `n`. -/
theorem sampleRun_add (m n : Nat) (s : State) :
    sampleRun (m + n) s =
      ((sampleRun m s).1 ++ (sampleRun n (sampleRun m s).2).1, (sampleRun n (sampleRun m s).2).2) := by
  induction m generalizing s with
  | zero => simp
  | succ m ih => simp [Nat.succ_add, ih]

end Sys2Proof.Machine
end

