-- ==== Sys2Proof/Laws/PerInstr.lean ====
section
/-! SUPPORT. The statements made of every instruction as text, one lemma a constructor. -/

namespace Sys2Proof.Laws.WordFields

/-- The row number of an instruction in the opcode map (R63). -/
def opcodeOf : Instr → Nat
  | .construct _ => 1
  | .setWaveform _ => 2
  | .setHarmonics _ => 3
  | .noteOn _ => 4
  | .noteOff => 5
  | .setDutyCycle _ => 6
  | .process _ => 7
  | .getPulseWaveformData => 8

/-- The waveform field of an instruction's word: zero but for `set_waveform` (R61). -/
def waveformBits : Instr → BitVec 3
  | .setWaveform kind => kind.code
  | .construct _ | .setHarmonics _ | .noteOn _ | .noteOff | .setDutyCycle _ | .process _
  | .getPulseWaveformData => 0

/-- An instruction's word has its opcode, its waveform field, and nothing in the reserved bits (R61, R63). -/
def Statement (i : Instr) : Prop :=
  (opField (encodeWord i)).toNat = opcodeOf i ∧ wfField (encodeWord i) = waveformBits i ∧
    rsvField (encodeWord i) = 0

theorem construct (sampleRate : Word) : Statement (.construct sampleRate) := by
  refine ⟨?_, ?_, ?_⟩ <;> simp only [encodeWord, opcodeOf, waveformBits] <;> decide

theorem setWaveform (kind : Waveform) : Statement (.setWaveform kind) := by
  cases kind <;> refine ⟨?_, ?_, ?_⟩ <;> decide

theorem setHarmonics (amplitudes : List Word) : Statement (.setHarmonics amplitudes) := by
  refine ⟨?_, ?_, ?_⟩ <;> simp only [encodeWord, opcodeOf, waveformBits] <;> decide

theorem noteOn (frequency : Word) : Statement (.noteOn frequency) := by
  refine ⟨?_, ?_, ?_⟩ <;> simp only [encodeWord, opcodeOf, waveformBits] <;> decide

theorem noteOff : Statement .noteOff := by
  refine ⟨?_, ?_, ?_⟩ <;> simp only [encodeWord, opcodeOf, waveformBits] <;> decide

theorem setDutyCycle (value : Word) : Statement (.setDutyCycle value) := by
  refine ⟨?_, ?_, ?_⟩ <;> simp only [encodeWord, opcodeOf, waveformBits] <;> decide

theorem process (len : Nat) : Statement (.process len) := by
  refine ⟨?_, ?_, ?_⟩ <;> simp only [encodeWord, opcodeOf, waveformBits] <;> decide

theorem getPulseWaveformData : Statement .getPulseWaveformData := by
  refine ⟨?_, ?_, ?_⟩ <;> simp only [encodeWord, opcodeOf, waveformBits] <;> decide

end Sys2Proof.Laws.WordFields
end

