-- ==== Sys2Proof/Laws/Store.lean ====
section
/-! SUPPORT. The harmonic store, the one data space the block keeps (R40): its two writers keep it within H_CAP with
every entry of FMT, and the constants are of FMT. -/

namespace Sys2Proof.Machine

theorem halfC_fits (f : Fmt) : f.fits (halfC f) = true := by cases f <;> rfl
theorem oneC_fits (f : Fmt) : f.fits (oneC f) = true := by cases f <;> rfl
theorem minusOneC_fits (f : Fmt) : f.fits (minusOneC f) = true := by cases f <;> rfl
theorem twoC_fits (f : Fmt) : f.fits (twoC f) = true := by cases f <;> rfl
theorem fourC_fits (f : Fmt) : f.fits (fourC f) = true := by cases f <;> rfl
theorem piC_fits (f : Fmt) : f.fits (piC f) = true := by cases f <;> rfl
theorem tauC_fits (f : Fmt) : f.fits (tauC f) = true := by cases f <;> rfl

/-- The conditions of a well-formed state, one by one. -/
theorem wellFormed_iff (s : State) :
    s.wellFormed = true ↔
      s.params.wf = true ∧ s.fmt.fits s.phase = true ∧ s.fmt.fits s.frequency = true ∧
        s.fmt.fits s.dutyCycle = true ∧ s.fmt.fits s.sampleRate = true ∧ s.fmt.fits s.inc = true ∧
          s.harm.all s.fmt.fits = true ∧ withinBound s.params.hCap s.hlen = true := by
  simp only [State.wellFormed, Bool.and_eq_true]
  tauto

/-- `set_harmonics` within H_CAP keeps the state well-formed (R102). -/
theorem setHarm_wellFormed {s : State} {h : List Word} (hs : s.wellFormed = true)
    (hh : h.all s.fmt.fits = true) (hc : withinBound s.params.hCap h.length = true) :
    (s.setHarm h).wellFormed = true := by
  rw [wellFormed_iff] at hs ⊢
  obtain ⟨h1, h2, h3, h4, h5, h6, -, -⟩ := hs
  exact ⟨h1, h2, h3, h4, h5, h6, hh, hc⟩

/-- `construct` makes the state well-formed: `H_CAP >= 1` leaves room for its one entry (R100). -/
theorem resetRegisters_wellFormed {s : State} {sr : Word} (hs : s.params.wf = true)
    (hsr : s.fmt.fits sr = true) : (s.resetRegisters sr).wellFormed = true := by
  rw [wellFormed_iff]
  refine ⟨hs, posZero_fits _, posZero_fits _, halfC_fits _, hsr, clip_fits _ _, ?_, hs⟩
  simpa using oneC_fits s.fmt

end Sys2Proof.Machine
end

