-- ==== Sys2Proof/Tests/Slice0.lean ====
section
/-! SUPPORT. Tests of the model on the spec's own examples and vectors (spec/95_test_vectors.md,
spec/30_encoding.md R70), and for every statement with hypotheses a state and operands that meet them. Every expected value is the spec's. -/

namespace Sys2Proof.Tests

open Sys2Proof Sys2Proof.Machine

/-! ### Helpers -/

/-- A constructed block with the given registers; unbounded, SAMPLE_RATE `4.0` of binary32 unless said. -/
def block (f : Fmt) (w : Waveform) (phase frequency duty sr : Word) (harm : List Word) : State :=
  { State.reset with
    params := { Params.default with fmt := f }
    constructed := true
    waveform := w
    phase := phase
    frequency := frequency
    dutyCycle := duty
    sampleRate := sr
    harm := harm }

/-- A block sounding at `1.0` of `4.0` in binary32, phase `0.75`. -/
def sounding : State := block .binary32 .square 0x3F400000 0x3F800000 0x3F000000 0x40800000 [0x3F800000]

/-- The same block with bounds on both operands. -/
def bounded (hCap lMax : Nat) : State :=
  { sounding with params := { sounding.params with hCap := some hCap, lMax := some lMax } }

/-- The response of an outcome. -/
def answer (o : Host.Outcome State Fault Refusal) : Option Response :=
  match o with
  | .next t => t.response
  | .fault _ => none
  | .refused _ => none

/-- The registers of an outcome. -/
def registersOf (o : Host.Outcome State Fault Refusal) : Option Registers :=
  match o with
  | .next t => some t.registers
  | .fault _ => none
  | .refused _ => none

/-- A draw site. -/
def site0 : DrawSite := { cmd := 0, path := [] }

/-- A command with operands zero. -/
def cmd (cw : CmdWord) : Command := { cw := cw, arg := 0, seq := [], len := 0 }

/-! ### Well-formedness refuses what is not of FMT -/

theorem test_illformed_construct : (Instr.construct 0x100000000).wellFormed .binary32 = false := by decide
theorem test_illformed_setHarmonics :
    (Instr.setHarmonics [0, 0x100000000]).wellFormed .binary32 = false := by decide
theorem test_illformed_noteOn : (Instr.noteOn 0x100000000).wellFormed .binary32 = false := by decide
theorem test_illformed_setDutyCycle :
    (Instr.setDutyCycle 0x100000000).wellFormed .binary32 = false := by decide
theorem test_illformed_command :
    Command.wellFormed .binary32 { cw := 5, arg := 0x100000000, seq := [], len := 0 } = false := by decide
theorem test_wellformed_construct_binary64 :
    (Instr.construct 0x40E5888000000000).wellFormed .binary64 = true := by decide

/-! ### Decoding: words written out from R61 and R63, and V-E1 to V-E12 -/

theorem test_decode_construct : decodeTableWord 32 0x00000001 = some (.construct 0) := by decide
theorem test_decode_setWaveform_sine : decodeTableWord 32 0x00000002 = some (.setWaveform .sine) := by decide
theorem test_decode_setWaveform_sawtooth :
    decodeTableWord 32 0x00000202 = some (.setWaveform .sawtooth) := by decide
theorem test_decode_setWaveform_triangle :
    decodeTableWord 32 0x00000302 = some (.setWaveform .triangle) := by decide
theorem test_decode_setHarmonics : decodeTableWord 32 0x00000003 = some (.setHarmonics []) := by decide
theorem test_decode_noteOn : decodeTableWord 32 0x00000004 = some (.noteOn 0) := by decide
theorem test_decode_noteOff : decodeTableWord 32 0x00000005 = some .noteOff := by decide
theorem test_decode_setDutyCycle : decodeTableWord 32 0x00000006 = some (.setDutyCycle 0) := by decide
theorem test_decode_process : decodeTableWord 32 0x00000007 = some (.process 0) := by decide
theorem test_decode_getPulseWaveformData :
    decodeTableWord 32 0x00000008 = some .getPulseWaveformData := by decide
theorem test_decode_reservedWaveform :
    decode (cmd 0x00000602) = .error .reservedWaveform ∧ decode (cmd 0x00000702) = .error .reservedWaveform := by
  decide
theorem test_decode_reservedOpcode :
    decode (cmd 0x00000000) = .error .reservedOpcode ∧ decode (cmd 0x00000009) = .error .reservedOpcode ∧
      decode (cmd 0x000000FF) = .error .reservedOpcode := by decide
theorem test_decode_waveformFieldSet : decode (cmd 0x00000101) = .error .waveformFieldSet := by decide
theorem test_decode_reservedBits :
    decode (cmd 0x00000807) = .error .reservedBits ∧ decode (cmd 0x80000007) = .error .reservedBits := by decide

/-! ### Numerics: V-A13 to V-A18, V-A8, R87, R157 -/

theorem test_wrap_folds_one : wrap .binary32 site0 0xB3000000 = 0 := by decide
theorem test_wrap_binary64_keeps : wrap .binary64 site0 0xBE60000000000000 = 0x3FEFFFFFF0000000 := by
  decide +kernel
theorem test_wrap_values :
    wrap .binary32 site0 0x80000000 = 0 ∧ wrap .binary32 site0 0x3F800000 = 0 ∧
      wrap .binary32 site0 0x40200000 = 0x3F000000 ∧ wrap .binary32 site0 0xBE800000 = 0x3F400000 := by
  decide
theorem test_wrap_infinity : isNaN .binary32 (wrap .binary32 site0 0x7F800000) = true := by
  rw [wrap_not_finite (by decide)]
  exact drawNaN_isNaN _ _
theorem test_drift : wrap .binary32 site0 (fadd .binary32 site0 0x3DCCCCCD 0x3F800000) = 0x3DCCCCD0 := by
  decide
theorem test_tau_is_twice_pi :
    fmul .binary32 site0 (twoC .binary32) (piC .binary32) = tauC .binary32 ∧
      fmul .binary64 site0 (twoC .binary64) (piC .binary64) = tauC .binary64 := by decide +kernel
theorem test_amplitudeTotal : amplitudeTotal .binary32 site0 [0x3F19999A, 0x3F19999A] = 0x3F99999A := by
  decide
theorem test_increment_440 : fdiv .binary32 site0 0x43DC0000 0x472C4400 = 0x3C2377EE := by decide
theorem test_toF_preview_end : toF .binary32 511 = 0x43FF8000 := by decide

/-! ### Waveforms: V-Q, V-W, V-T, V-AD -/

theorem test_square_boundary :
    squareValue .binary32 0x3F000000 0x3F000000 = 0xBF800000 ∧ squareValue .binary32 0 1 = 0x3F800000 := by
  decide
theorem test_sawtooth_outside_unit : sawtoothValue .binary32 site0 0x3FA00000 = 0xBF000000 := by decide
theorem test_sawtooth_near_one : sawtoothValue .binary32 site0 0x3F7FFFFF = 0x3F7FFFFE := by decide
theorem test_triangle_tiny : triangleValue .binary32 site0 0x30800000 = 0x3F800000 := by decide
theorem test_triangle_binary64_tiny :
    triangleValue .binary64 site0 0x3E10000000000000 = 0x3FEFFFFFFE000000 := by decide +kernel
theorem test_additive_nonpositive :
    additiveValue .binary32 site0 0x3E000000 [0, 0x80000000, 0xBF800000] = 0 := by decide
theorem test_additive_phase_zero :
    additiveValue .binary32 site0 0 [0x3F19999A, 0x3F19999A] = 0 := by decide

/-! ### Commands: V-M, V-A, V-F, W1, W2, P3 and P4 -/

theorem test_construct_resets :
    registersOf (exec (.construct 0x40800000) sounding) =
      some { constructed := true, waveform := .sine, phase := 0, frequency := 0, dutyCycle := 0x3F000000,
             sampleRate := 0x40800000, harm := [0x3F800000] } := by decide
theorem test_setWaveform_keeps_phase :
    registersOf (exec (.setWaveform .triangle) sounding) =
      some { sounding.registers with waveform := .triangle } := by decide
theorem test_setHarmonics_empty :
    registersOf (exec (.setHarmonics []) sounding) = some { sounding.registers with harm := [] } := by
  decide
theorem test_setHarmonics_too_long :
    answer (exec (.setHarmonics [0x3F800000, 0x3F800000, 0x3F800000]) (bounded 2 4)) =
      some { status := .capacityExceeded, data := [] } := by decide
theorem test_noteOn_minus_zero :
    registersOf (exec (.noteOn 0x80000000) sounding) =
      some { sounding.registers with phase := 0, frequency := 0x80000000 } := by decide
theorem test_noteOff_keeps_phase :
    registersOf (exec .noteOff sounding) = some { sounding.registers with frequency := 0 } := by decide
theorem test_setDutyCycle_nan :
    registersOf (exec (.setDutyCycle 0x7FC00000) sounding) =
      some { sounding.registers with dutyCycle := 0x7FC00000 } := by decide
theorem test_process_square :
    answer (exec (.process 4) { sounding with phase := 0 }) =
      some { status := .ok, data := [0x3F800000, 0x3F800000, 0xBF800000, 0xBF800000] } := by decide
theorem test_process_reverse_sawtooth :
    answer (exec (.process 4)
      (block .binary32 .sawtooth 0 0xBF800000 0x3F000000 0x40800000 [])) =
      some { status := .ok, data := [0xBF800000, 0x3F000000, 0, 0xBF000000] } := by decide
theorem test_process_silent :
    answer (exec (.process 3) { sounding with frequency := 0x80000000 }) =
      some { status := .ok, data := [0, 0, 0] } := by decide
theorem test_process_too_long :
    answer (exec (.process 5) (bounded 2 4)) = some { status := .capacityExceeded, data := [] } := by
  decide
theorem test_preview_zero_duty :
    (answer (exec .getPulseWaveformData { sounding with dutyCycle := 0x80000000 })).map
      (fun r => (r.status, r.data.length, r.data.take 3)) =
      some (.ok, 512, [0, 0x80000000, 0x80000000]) := by decide +kernel
theorem test_illegal_before_construct :
    answer (step (State.reset.withFetchWord 32 0x602)) = some { status := .illegalCommand, data := [] } := by
  decide
theorem test_notConstructed_before_capacity :
    answer (exec (.setHarmonics [0, 0]) { bounded 1 1 with constructed := false }) =
      some { status := .notConstructed, data := [] } := by decide
theorem test_construct_first :
    answer (step (State.reset.withFetchWord 32 1)) = some { status := .ok, data := [] } := by decide

/-! ### Assembly text and bytes: R67, R68, R70, R44 -/

theorem test_asm_construct :
    (readLine .binary32 0 "construct 44100.0 ; comment").map (assemble .binary32) =
      some { cw := 1, arg := 0x472C4400, seq := [], len := 0 } := by decide
theorem test_asm_setHarmonics :
    (readLine .binary32 0 "set_harmonics [0.6, 0.6]").map (assemble .binary32) =
      some { cw := 3, arg := 0, seq := [0x3F19999A, 0x3F19999A], len := 0 } := by decide
theorem test_asm_setWaveform :
    (readLine .binary32 0 "set_waveform additive").map (assemble .binary32) = some (cmd 0x502) := by
  decide
theorem test_asm_word :
    (readLine .binary32 0 ".word 0x00000602").map (assemble .binary32) = some (cmd 0x602) := by decide
theorem test_asm_rest :
    (readLine .binary32 0 "note_on -1.0").map (assemble .binary32) =
        some { cw := 4, arg := 0xBF800000, seq := [], len := 0 } ∧
      (readLine .binary32 0 "process 4").map (assemble .binary32) =
        some { cw := 7, arg := 0, seq := [], len := 4 } ∧
      (readLine .binary32 0 "set_harmonics []").map (assemble .binary32) = some (cmd 3) ∧
      readLine .binary32 0 "set_waveform square 1" = none := by decide
theorem test_word_bytes : wordBytes Params.default 0x00000502 = [0x02, 0x05, 0, 0] := by decide

/-! ### Witnesses: what meets the hypotheses of each statement -/

theorem witness_DecodeAndEncodeAgree : decode (cmd 0x502) = .ok (.setWaveform .additive) := by decide

theorem witness_IllegalExactlyForReservedWords :
    (State.reset.setPort [cmd 0x602]).port = cmd 0x602 :: [] ∧ reservedWord (cmd 0x602).cw ∧
      reservedWord (cmd 0x800).cw ∧ reservedWord (cmd 0).cw ∧ reservedWord (cmd 9).cw ∧
      reservedWord (cmd 0x101).cw ∧ ¬ reservedWord (cmd 0x502).cw ∧ ¬ reservedWord (cmd 8).cw := by
  simp only [reservedWord]
  decide

theorem witness_OpcodeTableDecidesDecoding :
    decode (cmd 0x502) = .ok (.setWaveform .additive) ∧
      ∃ r ∈ opcodeTable, r.accepts 0x502 = true ∧ (r.mnemonic = "set_waveform" → 0x502 / 256 % 8 ≤ 5) :=
  ⟨by decide, { mnemonic := "set_waveform", pattern := 0x00000002, mask := 0xFFFFF8FF }, by decide, by decide,
    fun _ => by decide⟩

theorem witness_AssemblyLinesEncode :
    instrOfLine .binary32 (.setWaveform .pulse) = some (.setWaveform .pulse) ∧
      Fmt.fits .binary32 0x7FC00001 = true := ⟨rfl, by decide⟩

theorem witness_SerialisedDataReadBack : Params.default.fmt.fits 0xFFFFFFFF = true ∧ 3 < 4 := by decide

theorem witness_StepRunsDecodedCommand :
    (State.reset.setPort [cmd 1]).port = cmd 1 :: [] ∧ (cmd 1).wellFormed State.reset.fmt = true ∧
      decode (cmd 1) = .ok (.construct 0) ∧ decode (cmd 0) = .error .reservedOpcode ∧
      State.reset.port = [] := by decide

theorem witness_EveryCommandAnswered : (sounding.setPort [cmd 7, cmd 0]).port = cmd 7 :: [cmd 0] := rfl

theorem witness_LaterCommandsDoNotInterfere :
    (sounding.setPort [cmd 5]).port ≠ [] ∧ ∃ t, step (sounding.setPort [cmd 5]) = .next t :=
  ⟨by decide, _, rfl⟩

theorem witness_FaultsReportedByPriority :
    (State.reset.setPort [cmd 0x602]).port = cmd 0x602 :: [] ∧ (cmd 0x602).wellFormed .binary32 = true ∧
      statusOf State.reset (cmd 0x602) = .illegalCommand ∧ statusOf State.reset (cmd 5) = .notConstructed ∧
      statusOf { bounded 1 0 with constructed := true } { cw := 7, arg := 0, seq := [], len := 1 } =
        .capacityExceeded ∧
      statusOf sounding (cmd 7) = .ok := by decide

theorem witness_FaultedCommandChangesNothing :
    ∃ t r, step (State.reset.setPort [cmd 5]) = .next t ∧ t.response = some r ∧ r.status ≠ .ok :=
  ⟨_, { status := .notConstructed, data := [] }, rfl, rfl, by decide⟩

theorem witness_ConstructedGatesCommands :
    State.reset.constructed = false ∧ isConstruct .noteOff = false ∧ sounding.constructed = true ∧
      ∃ t, step sounding = .next t := ⟨rfl, rfl, rfl, _, rfl⟩

theorem witness_SetWaveformResult : sounding.constructed = true ∧ State.reset.constructed = false :=
  ⟨rfl, rfl⟩

theorem witness_SetHarmonicsResult :
    (bounded 1 0).constructed = true ∧ withinBound (bounded 1 0).params.hCap [(0 : Word)].length = true ∧
      withinBound (bounded 1 0).params.hCap [(0 : Word), 0].length = false ∧
      State.reset.constructed = false ∧ State.reset.params.hCap = none ∧ (bounded 1 0).params.hCap = some 1 := by
  decide

theorem witness_NoteOnResult :
    sounding.constructed = true ∧ State.reset.constructed = false ∧
      isZero sounding.fmt 0x80000000 = true := by decide

theorem witness_NoteOffResult : sounding.constructed = true ∧ State.reset.constructed = false := ⟨rfl, rfl⟩

theorem witness_SetDutyCycleResult : sounding.constructed = true ∧ State.reset.constructed = false :=
  ⟨rfl, rfl⟩

theorem witness_MutatorsAreIdempotent :
    (∀ len, Instr.noteOff ≠ .process len) ∧ Instr.noteOff ≠ .getPulseWaveformData ∧
      ∃ t, exec .noteOff sounding = .next t := ⟨by simp, by simp, _, rfl⟩

/-- Each register is changed by a command of its own. -/
theorem witness_CommandsWriteOnlyTheirRegisters :
    registersOf (exec (.construct 0) State.reset) ≠ some State.reset.registers ∧
      registersOf (exec (.setWaveform .sine) sounding) ≠ some sounding.registers ∧
      registersOf (exec (.noteOn 0) sounding) ≠ some sounding.registers ∧
      registersOf (exec (.process 1) sounding) ≠ some sounding.registers ∧
      registersOf (exec .noteOff sounding) ≠ some sounding.registers ∧
      registersOf (exec (.setDutyCycle 0) sounding) ≠ some sounding.registers ∧
      registersOf (exec (.setHarmonics []) sounding) ≠ some sounding.registers := by decide

theorem witness_LifecycleMoves :
    sounding.constructed = true ∧ isConstruct (.setWaveform .sine) = false ∧
      Instr.setWaveform .sine ≠ .noteOff ∧ (∀ v, Instr.setWaveform .sine ≠ .noteOn v) ∧
      (∃ t, exec (.setWaveform .sine) sounding = .next t) ∧ (bounded 1 4).lifecycle = .sounding ∧
      withinBound (bounded 1 4).params.lMax 4 = true ∧
      State.lifecycle { sounding with frequency := 0x80000000 } = .silent :=
  ⟨rfl, rfl, by simp, by simp, ⟨_, rfl⟩, by decide, by decide, by decide⟩

theorem witness_ProcessResult :
    State.reset.constructed = false ∧ (bounded 1 4).constructed = true ∧
      withinBound (bounded 1 4).params.lMax 5 = false ∧ withinBound (bounded 1 4).params.lMax 4 = true ∧
      (bounded 1 4).silent = false ∧ State.silent { bounded 1 4 with frequency := 0 } = true ∧
      State.reset.params.lMax = none ∧ (bounded 1 4).params.lMax = some 4 := by
  decide

theorem witness_SilenceLeavesEveryRegister :
    (bounded 1 4).constructed = true ∧ withinBound (bounded 1 4).params.lMax 4 = true ∧
      feq .binary32 0x80000000 posZero = true := by decide

theorem witness_PhaseContinuesAcrossBlocks :
    (bounded 1 4).constructed = true ∧ withinBound (bounded 1 4).params.lMax (1 + 3) = true := by decide

theorem witness_PhaseStaysInUnitOrNaN :
    phaseOk sounding = true ∧ phaseOk { sounding with phase := 0x7FC00000 } = true ∧
      ∃ t, step (sounding.setPort [{ cw := 7, arg := 0, seq := [], len := 2 }]) = .next t :=
  ⟨by decide, by decide, _, rfl⟩

theorem witness_FiniteIncrementKeepsPhaseInUnit :
    sounding.constructed = true ∧ withinBound sounding.params.lMax 3 = true ∧
      inUnit sounding.fmt sounding.phase = true ∧ isFinite sounding.fmt sounding.increment = true ∧
      sounding.fmt.fits sounding.phase = true ∧ isFinite sounding.fmt sounding.frequency = true ∧
      isInf .binary32 (State.sampleRate { sounding with sampleRate := 0xFF800000 }) = true := by
  decide

theorem witness_NonFiniteIncrementMakesPhaseNaN :
    sounding.constructed = true ∧ withinBound sounding.params.lMax (0 + 1) = true ∧
      sounding.silent = false ∧
      isFinite sounding.fmt (State.increment { sounding with sampleRate := 0 }) = false ∧
      isZero sounding.fmt 0x80000000 = true ∧ isNaN sounding.fmt 0x7FC00000 = true ∧
      isFinite sounding.fmt 0xFF800000 = false ∧
      State.silent { sounding with frequency := 0xFF800000 } = false := by decide

theorem witness_NaNPhaseOutputs :
    isNaN .binary32 0x7FC00000 = true ∧ (∃ h ∈ [(0x3F800000 : Word)], fgt .binary32 h posZero = true) ∧
      ∀ h ∈ [(0xBF800000 : Word)], fgt .binary32 h posZero = false := by
  refine ⟨by decide, ⟨_, List.mem_singleton.2 rfl, by decide⟩, fun h hh => ?_⟩
  rw [List.mem_singleton.1 hh]
  decide

theorem witness_AudioRatesGiveFiniteIncrement :
    isFinite sounding.fmt sounding.frequency = true ∧ isFinite sounding.fmt sounding.sampleRate = true ∧
      flt sounding.fmt sounding.sampleRate (oneC sounding.fmt) = false ∧
      flt .binary32 (oneC .binary32) (oneC .binary32) = false := by decide

theorem witness_EveryBootedRateGivesFiniteIncrement :
    bootedRate sounding = true ∧ isFinite sounding.fmt sounding.frequency = true := by decide

theorem witness_SquareOutput :
    flt .binary32 0 0x3F000000 = true ∧ flt .binary32 0x3F000000 0x3F000000 = false ∧
      isNaN .binary32 0x7FC00000 = true ∧ inUnit .binary32 0x3F7FFFFF = true ∧
      fgt .binary32 0x80000000 posZero = false ∧ isNaN .binary32 0x3F800000 = false ∧
      flt .binary32 0x3F800000 (oneC .binary32) = false := by decide

theorem witness_SawtoothOutput :
    Fmt.fits .binary32 0x3F7FFFFF = true ∧ inUnit .binary32 0x3F7FFFFF = true ∧
      isNaN .binary32 0x7FC00000 = true := by decide

theorem witness_TriangleOutput :
    inUnit .binary64 0x3FEFFFFFFFFFFFFF = true ∧ isNaN .binary64 0x7FF8000000000000 = true := by decide +kernel

theorem witness_SineOutput :
    inUnit .binary32 0x3F7FFFFF = true ∧ isNaN .binary32 0x7F800001 = true := by decide

theorem witness_ClosedFormSamplesAreBounded :
    sounding.constructed = true ∧ withinBound sounding.params.lMax 8 = true ∧
      sounding.waveform ≠ .additive ∧ inUnit sounding.fmt sounding.phase = true ∧
      isFinite sounding.fmt sounding.increment = true := by decide

theorem witness_ProcessReadsOnlyItsPath :
    State.silent { sounding with frequency := 0 } = true ∧
      State.waveform { sounding with waveform := .sine } ≠ .square ∧
      State.waveform { sounding with waveform := .sine } ≠ .pulse ∧ sounding.waveform ≠ .additive := by
  decide

theorem witness_HarmonicSumSkipsNonPositive :
    fgt .binary32 0x80000000 posZero = false ∧ fgt .binary32 0x00000001 posZero = true := by decide

theorem witness_AmplitudeTotalCountsEveryEntry :
    (0x7FC00000 : Word) ∈ [(0x3F800000 : Word), 0x7FC00000] ∧ isNaN .binary32 0x7FC00000 = true := by
  decide

theorem witness_NormalizeDividesAboveOne :
    fgt .binary32 0x3F99999A (oneC .binary32) = true ∧ fgt .binary32 0x3F800000 (oneC .binary32) = false ∧
      isNaN .binary32 0x7FC00000 = true ∧ isFinite .binary32 0 = true ∧
      isFinite .binary32 0x7F800000 = false := by decide

theorem witness_AdditiveWithoutPositiveEntryIsZero :
    ∀ h ∈ [(0 : Word), 0x80000000, 0xBF800000, 0x7FC00000], fgt .binary32 h posZero = false := by
  have hall : [(0 : Word), 0x80000000, 0xBF800000, 0x7FC00000].all
      (fun h => !fgt .binary32 h posZero) = true := by decide
  simpa using hall

theorem witness_AdditiveOfOneEqualsSine :
    inUnit .binary32 0 = true ∧ inUnit .binary32 0x3F7FFFFF = true := by decide

theorem witness_ArithmeticRoundsToNearestEven :
    isFinite .binary32 0x3DCCCCCD = true ∧ isFinite .binary32 0x00000001 = true ∧
      isZero .binary32 0x00000001 = false ∧
      isFinite .binary32 (fadd .binary32 site0 0x3DCCCCCD 0x00000001) = true ∧
      isFinite .binary32 (fmul .binary32 site0 0x3DCCCCCD 0x00000001) = true ∧
      isFinite .binary32 (fdiv .binary32 site0 0x00000001 0x3DCCCCCD) = true := by decide

/-- R81 at its boundary: half a last place above the largest finite binary32 value overflows, less does not. -/
theorem test_overflow_boundary :
    fadd .binary32 site0 0x7F7FFFFF 0x73000000 = 0x7F800000 ∧
      fadd .binary32 site0 0x7F7FFFFF 0x72FFFFFF = 0x7F7FFFFF ∧
      fsub .binary32 site0 0xFF7FFFFF 0x73000000 = 0xFF800000 := by decide

theorem witness_ArithmeticSpecialCases :
    isNaN .binary32 0x7FC00000 = true ∧ isFinite .binary32 0x3F800000 = true ∧
      isZero .binary32 0x3F800000 = false ∧ isZero .binary32 0x80000000 = true ∧
      isInf .binary32 0xFF800000 = true := by decide

theorem witness_NaNAndZeroResults :
    isNaN .binary32 (fadd .binary32 site0 0x7FC00000 0) = true ∧ isFinite .binary32 0x80000000 = true ∧
      isZero .binary32 0x3F800000 = false :=
  ⟨by rw [fadd_nan (.inl (by decide))]; exact drawNaN_isNaN _ _, by decide, by decide⟩

theorem witness_FloorAndAbsAreExact :
    Fmt.fits .binary32 0xBF000000 = true ∧ isFinite .binary32 0xBF000000 = true ∧
      Fmt.fits .binary32 0x80000000 = true ∧ isZero .binary32 0x80000000 = true ∧
      Fmt.fits .binary32 0x7FC00000 = true ∧ isNaN .binary32 0x7FC00000 = true := by decide

theorem witness_ComparisonsAreQuiet :
    isNaN .binary64 0x7FF8000000000000 = true ∧ isFinite .binary64 0x7FEFFFFFFFFFFFFF = true ∧
      isFinite .binary64 0 = true ∧ isNaN .binary64 0x7FF0000000000000 = false := by decide

/-- The corner states of R80's fields: a subnormal, the largest finite value, both infinities' and NaNs' exponent. -/
theorem witness_FieldsOfEachFormat :
    isFinite .binary32 0x00000001 = true ∧ scaled .binary32 0x00000001 = 1 ∧
      isFinite .binary32 0x7F7FFFFF = true ∧ isFinite .binary32 0xFF800000 = false := by decide

theorem witness_WholeNumbersConvertExactly : (511 : Nat) ≤ 2 ^ 24 ∧ 2 ^ 24 ≤ 2 ^ 24 := by decide

theorem witness_SineHasItsFiveProperties :
    isNaN .binary32 0x7FC00000 = true ∧ isInf .binary32 0xFF800000 = true ∧
      isFinite .binary32 0x40C90FDB = true ∧ fgt .binary32 0x40C90FDB posZero = true ∧
      fgt .binary32 0x40C90FDB (tauC .binary32) = false := by decide

theorem witness_WrapLandsInUnit :
    isFinite .binary32 0xB3000000 = true ∧ Fmt.fits .binary32 0x3F7FFFFF = true ∧
      inUnit .binary32 0x3F7FFFFF = true ∧ isFinite .binary32 0x7F800000 = false := by decide

theorem witness_WrapAddsOrTakesOneCycle :
    isFinite .binary32 0x3F800000 = true ∧ flt .binary32 0x3F800000 (oneC .binary32) = false ∧
      flt .binary32 0x3F800000 (twoC .binary32) = true ∧ isFinite .binary32 0xBF800000 = true ∧
      flt .binary32 0xBF800000 (minusOneC .binary32) = false ∧
      flt .binary32 0xBF800000 posZero = true := by decide

theorem witness_PreviewResult :
    sounding.constructed = true ∧ State.reset.constructed = false ∧ (1 : Nat) ≤ 511 := by decide

theorem witness_PreviewDependsOnDutyCycleOnly :
    sounding.constructed = true ∧ State.constructed { sounding with waveform := .sine, harm := [] } = true ∧
      (∃ t, exec .getPulseWaveformData sounding = .next t) ∧
      ∃ t, exec .getPulseWaveformData { sounding with waveform := .sine, harm := [] } = .next t :=
  ⟨rfl, rfl, ⟨_, rfl⟩, _, rfl⟩

theorem witness_PreviewCornerDutyCycles :
    (1 : Nat) ≤ 511 ∧ isNaN .binary32 0x7FC00000 = true ∧ isInf .binary32 0x7F800000 = true := by decide

theorem witness_PreviewFiniteInNominalDomain :
    (1 : Nat) ≤ 511 ∧ isFinite .binary32 0x3F800000 = true ∧ flt .binary32 0x80000000 posZero = false ∧
      isFinite .binary32 0x80000000 = true ∧ fgt .binary32 0x3F800000 (oneC .binary32) = false := by
  decide

theorem witness_PreviewFiniteForEveryFiniteDuty : isFinite .binary32 0x7F7FFFFF = true := by decide

theorem witness_StepKeepsStateWellFormed :
    sounding.wellFormed = true ∧ sounding.responseFits = true ∧
      ∃ t, step (sounding.setPort [cmd 8]) = .next t := ⟨by decide, by decide, _, rfl⟩

end Sys2Proof.Tests
end

section
/-! Power-on (R31): what the state before the first command satisfies. The rules about the invariants' predicates hold
in every state; the facts about `State.reset` follow from them. -/

namespace Sys2Proof.Machine

/-! ### The predicates of the invariants -/

/-- A value of magnitude 0 is one of the two zeros (R80). -/
theorem magnitude_eq_zero_iff (f : Fmt) (w : Word) : magnitude f w = 0 ↔ isZero f w = true := by
  by_cases he : expField f w = 0
  · simp [magnitude, isZero, he]
  · simp [magnitude, isZero, he]

theorem oneC_not_isZero (f : Fmt) : isZero f (oneC f) = false := by cases f <;> rfl

/-- `+0.0` is in `[+0.0, 1.0)` in either format. -/
theorem posZero_inUnit (f : Fmt) : inUnit f posZero = true := by
  have hfin : isFinite f posZero = true := by cases f <;> rfl
  have hsign : signBit f posZero = false := by cases f <;> rfl
  have hzero : magnitude f posZero = 0 := (magnitude_eq_zero_iff f _).mpr (by cases f <;> rfl)
  have hone : magnitude f (oneC f) ≠ 0 := by simp [magnitude_eq_zero_iff, oneC_not_isZero]
  simp [inUnit, hfin, hsign, hzero, Nat.pos_of_ne_zero hone]

theorem phaseOk_of_inUnit {s : State} (h : inUnit s.fmt s.phase = true) : phaseOk s = true := by
  rw [phaseOk, h, Bool.true_or]

theorem lifecycle_eq_unconstructed_iff (s : State) :
    s.lifecycle = .unconstructed ↔ s.constructed = false := by
  cases hc : s.constructed with
  | false => simp [State.lifecycle, hc]
  | true => cases hs : s.silent <;> simp [State.lifecycle, hc, hs]

theorem responseFits_of_no_response {s : State} (h : s.response = none) : s.responseFits = true := by
  rw [State.responseFits, h]

/-! ### The power-on state -/

/-- R9's defaults: binary32, both bounds unbounded, little-endian. -/
theorem reset_params :
    State.reset.params.fmt = .binary32 ∧ State.reset.params.hCap = none ∧
      State.reset.params.lMax = none ∧ State.reset.params.byteOrder = .little := ⟨rfl, rfl, rfl, rfl⟩

theorem reset_not_constructed : State.reset.constructed = false := rfl

theorem reset_no_response : State.reset.response = none := rfl

/-- The model's own value of PHASE at power-on (log 3). -/
theorem reset_phase : State.reset.phase = posZero := rfl

theorem reset_phase_inUnit : inUnit State.reset.fmt State.reset.phase = true := by
  rw [reset_phase]
  exact posZero_inUnit _

/-- The registers of FMT and the latch INC hold `+0.0` (logs 3 and 4); the harmonic store is empty, and the default
H_CAP bounds nothing. -/
theorem reset_wellFormed : State.reset.wellFormed = true := by
  have hz : State.reset.fmt.fits posZero = true := posZero_fits _
  have hcap (n : Nat) : withinBound State.reset.params.hCap n = true := rfl
  have hharm : State.reset.harm.all State.reset.fmt.fits = true := rfl
  exact (wellFormed_iff _).mpr ⟨hcap 1, hz, hz, hz, hz, hz, hharm, hcap _⟩

/-- Settles O60: R9's defaults and R31's CONSTRUCTED are `State.reset`'s own fields; the invariants follow from `+0.0`
in every register of FMT and from no response. -/
theorem powerOnState : Obligations.PowerOnState := by
  obtain ⟨hfmt, hcap, hmax, horder⟩ := reset_params
  exact ⟨hfmt, hcap, hmax, horder, reset_not_constructed,
    (lifecycle_eq_unconstructed_iff _).mpr reset_not_constructed, reset_wellFormed, reset_phase_inUnit,
    phaseOk_of_inUnit reset_phase_inUnit, reset_no_response, responseFits_of_no_response reset_no_response⟩

end Sys2Proof.Machine
end

section
/-! Exact results (R81, R83, R89): values a rounding leaves alone, the floor, and where `wrap` lands. -/

namespace Sys2Proof.Machine

variable {f : Fmt} {k : DrawSite} {a b : Word}

/-! ### Bits and the magnitude they stand for -/

theorem bitsMagnitude_mono {m m' : Nat} (h : m ≤ m') (hm' : m' ≤ infBits f) :
    bitsMagnitude f m ≤ bitsMagnitude f m' := by
  by_contra hlt
  have hround := roundBits_mono (f := f) (n := bitsMagnitude f m' * 1) (n' := bitsMagnitude f m * 1)
    one_pos one_pos (by omega)
  rw [roundBits_exact one_pos hm', roundBits_exact one_pos (h.trans hm')] at hround
  exact hlt (le_antisymm h hround ▸ le_rfl)

/-- A significand `q` in binade `k`. -/
theorem bitsMagnitude_binade {q e : Nat} (hq : q < 2 ^ (f.fracBits + 1)) (he : e = 0 ∨ 2 ^ f.fracBits ≤ q) :
    bitsMagnitude f (e * 2 ^ f.fracBits + q) = q * 2 ^ e := by
  have hp : 0 < 2 ^ f.fracBits := by positivity
  rcases Nat.lt_or_ge q (2 ^ f.fracBits) with hlt | hge
  · obtain rfl : e = 0 := by omega
    simp [bitsMagnitude, Nat.div_eq_of_lt hlt, Nat.mod_eq_of_lt hlt]
  · obtain ⟨r, rfl⟩ := Nat.exists_eq_add_of_le hge
    have hr : r < 2 ^ f.fracBits := by rw [pow_succ] at hq; omega
    have hsplit : e * 2 ^ f.fracBits + (2 ^ f.fracBits + r) = r + 2 ^ f.fracBits * (e + 1) := by ring
    have hdiv : (r + 2 ^ f.fracBits * (e + 1)) / 2 ^ f.fracBits = e + 1 := by
      rw [Nat.add_mul_div_left _ _ hp, Nat.div_eq_of_lt hr, Nat.zero_add]
    rw [hsplit, bitsMagnitude, hdiv, Nat.add_mul_mod_self_left, Nat.mod_eq_of_lt hr, if_neg (by omega),
      Nat.add_sub_cancel, Nat.add_comm r]

/-- A multiple of a power of two with few enough significant bits is rounded to itself. -/
theorem bitsMagnitude_roundBits {c e : Nat} (hc : c < 2 ^ (f.fracBits + 1))
    (hfin : roundBits f (c * 2 ^ e) 1 < infBits f) :
    bitsMagnitude f (roundBits f (c * 2 ^ e) 1) = c * 2 ^ e := by
  obtain ⟨j, hj⟩ : ∃ j, j = Nat.log2 (c * 2 ^ e / 1) - f.fracBits := ⟨_, rfl⟩
  obtain ⟨hub, hlb⟩ := roundBits_binade one_pos hj
  have hje : j ≤ e := by
    rcases Nat.eq_zero_or_pos c with rfl | hpos
    · simp at hj; omega
    · have : Nat.log2 (c * 2 ^ e) < f.fracBits + 1 + e := by
        rw [Nat.log2_lt (by positivity), pow_add]
        exact Nat.mul_lt_mul_of_pos_right hc (by positivity)
      rw [Nat.div_one] at hj
      omega
  obtain ⟨q, hq⟩ : ∃ q, c * 2 ^ e = q * 2 ^ j := exists_eq_mul_left_of_dvd ((pow_dvd_pow 2 hje).mul_left c)
  have hj0 : 0 < 2 ^ j := by positivity
  rw [hq, one_mul] at hub hlb
  have hround : roundBits f (c * 2 ^ e) 1 = j * 2 ^ f.fracBits + q := by
    have hmin : roundBits f (c * 2 ^ e) 1 = min (j * 2 ^ f.fracBits + q) (infBits f) := by
      rw [roundBits, ← hj, hq, one_mul, roundToEven_exact _ hj0]
    omega
  rw [hround, bitsMagnitude_binade (Nat.lt_of_mul_lt_mul_right hub), hq]
  rcases Nat.eq_zero_or_pos j with h0 | hpos
  · exact .inl h0
  · exact .inr (Nat.le_of_mul_le_mul_right (hlb hpos) hj0)

theorem isFinite_iff_bits_lt (f : Fmt) (w : Word) :
    isFinite f w = true ↔ w.toNat % 2 ^ (f.fracBits + f.expBits) < infBits f := by
  obtain ⟨h1, -, -, -, h5⟩ := fmt_layout f
  have hf : fracField f w < 2 ^ f.fracBits := Nat.mod_lt _ h1
  have he : expField f w < 2 ^ f.expBits := Nat.mod_lt _ (by positivity)
  rw [isFinite_iff_expField, toNat_mod_fields, infBits]
  constructor
  · intro hne
    have : (expField f w + 1) * 2 ^ f.fracBits ≤ expMax f * 2 ^ f.fracBits :=
      Nat.mul_le_mul_right _ (by omega)
    rw [Nat.add_mul] at this
    omega
  · intro hlt heq
    rw [heq] at hlt
    omega

/-- The exponent and fraction fields are read off the bits below the sign. -/
theorem fields_congr {w w' : Word}
    (h : w.toNat % 2 ^ (f.fracBits + f.expBits) = w'.toNat % 2 ^ (f.fracBits + f.expBits)) :
    expField f w = expField f w' ∧ fracField f w = fracField f w' := by
  have hexp (v : Word) : expField f v = v.toNat % 2 ^ (f.fracBits + f.expBits) / 2 ^ f.fracBits := by
    rw [pow_add, Nat.mod_mul_right_div_self, expField]
  have hfrac (v : Word) : fracField f v = v.toNat % 2 ^ (f.fracBits + f.expBits) % 2 ^ f.fracBits := by
    rw [pow_add, Nat.mod_mul_right_mod, fracField]
  rw [hexp, hexp, hfrac, hfrac, h]
  exact ⟨rfl, rfl⟩

/-- `fneg` changes the sign bit only. -/
theorem fneg_fields (f : Fmt) (a : Word) :
    expField f (fneg f a) = expField f a ∧ fracField f (fneg f a) = fracField f a := by
  have hmask : (signMask f).toNat % 2 ^ (f.fracBits + f.expBits) = 0 := by cases f <;> rfl
  apply fields_congr
  rw [fneg, BitVec.toNat_xor, Nat.xor_mod_two_pow, hmask, Nat.xor_zero]

/-- `fabs` changes the sign bit only (R83). -/
theorem fabs_fields (f : Fmt) (a : Word) :
    expField f (fabs f a) = expField f a ∧ fracField f (fabs f a) = fracField f a := by
  have hmask : (~~~signMask f).toNat % 2 ^ (f.fracBits + f.expBits) = 2 ^ (f.fracBits + f.expBits) - 1 := by
    cases f <;> rfl
  apply fields_congr
  rw [fabs, BitVec.toNat_and, Nat.and_mod_two_pow, hmask, Nat.and_two_pow_sub_one_eq_mod, Nat.mod_mod]

theorem magnitude_fneg (f : Fmt) (a : Word) : magnitude f (fneg f a) = magnitude f a := by
  simp [magnitude, fneg_fields]

theorem isFinite_fneg (f : Fmt) (a : Word) : isFinite f (fneg f a) = isFinite f a := by
  simp [isFinite, fneg_fields]

theorem isNaN_fneg (f : Fmt) (a : Word) : isNaN f (fneg f a) = isNaN f a := by
  simp [isNaN, fneg_fields]

theorem isNaN_fabs (f : Fmt) (a : Word) : isNaN f (fabs f a) = isNaN f a := by
  simp [isNaN, fabs_fields]

theorem scaled_fneg (f : Fmt) (a : Word) : scaled f (fneg f a) = -scaled f a := by
  rw [scaled, scaled, signBit_fneg, magnitude_fneg]
  cases signBit f a <;> simp

theorem natAbs_scaled (f : Fmt) (a : Word) : (scaled f a).natAbs = magnitude f a := by
  rw [scaled]
  split <;> simp

theorem roundTo_isFinite {neg : Bool} {n d : Nat} (h : roundBits f n d < infBits f) :
    isFinite f (roundTo f neg n d) = true := packBits_isFinite h

theorem scaled_roundTo (f : Fmt) (neg : Bool) (n d : Nat) :
    scaled f (roundTo f neg n d) =
      if neg then -(bitsMagnitude f (roundBits f n d) : Int) else bitsMagnitude f (roundBits f n d) := by
  rw [scaled, roundTo_signBit, magnitude_roundTo]

/-! ### The floor is exact (R83) -/

/-- The fields of `1.0`, and the place of the largest power of two the floor can meet. -/
theorem oneC_layout (f : Fmt) :
    fracField f (oneC f) = 0 ∧ signBit f (oneC f) = false ∧
      expField f (oneC f) = scaleOf f - f.fracBits + 1 ∧ f.fracBits ≤ scaleOf f ∧ scaleOf f + 1 < expMax f := by
  cases f <;> decide

theorem magnitude_oneC (f : Fmt) : magnitude f (oneC f) = 2 ^ scaleOf f := by
  obtain ⟨hfrac, -, hexp, hle, -⟩ := oneC_layout f
  rw [magnitude, hfrac, hexp, if_neg (by omega), Nat.add_sub_cancel, Nat.zero_add, ← pow_add,
    Nat.add_sub_cancel' hle]

/-- From `2 ^ fracBits` on every value is a whole number. -/
theorem dvd_magnitude_of_le (h : 2 ^ f.fracBits * 2 ^ scaleOf f ≤ magnitude f a) :
    2 ^ scaleOf f ∣ magnitude f a := by
  obtain ⟨h1, -⟩ := fmt_layout f
  have hf : fracField f a < 2 ^ f.fracBits := Nat.mod_lt _ h1
  have hs : 0 < 2 ^ scaleOf f := by positivity
  rw [magnitude] at h ⊢
  split at h
  · exact absurd (Nat.le_mul_of_pos_right (2 ^ f.fracBits) hs) (by omega)
  · rename_i he
    rw [if_neg he]
    have hlt : 2 ^ f.fracBits * 2 ^ scaleOf f < 2 ^ f.fracBits * 2 ^ (expField f a - 1 + 1) := by
      calc 2 ^ f.fracBits * 2 ^ scaleOf f
          ≤ (fracField f a + 2 ^ f.fracBits) * 2 ^ (expField f a - 1) := h
        _ < (2 ^ f.fracBits * 2) * 2 ^ (expField f a - 1) :=
            Nat.mul_lt_mul_of_pos_right (by omega) (by positivity)
        _ = 2 ^ f.fracBits * 2 ^ (expField f a - 1 + 1) := by ring
    have hexp := (Nat.pow_lt_pow_iff_right (by decide : 1 < 2)).1 (Nat.lt_of_mul_lt_mul_left hlt)
    exact (pow_dvd_pow 2 (by omega)).mul_left _

theorem roundBits_wholes_lt (f : Fmt) : roundBits f (2 ^ f.fracBits * 2 ^ scaleOf f) 1 < infBits f := by
  obtain ⟨h1, -⟩ := fmt_layout f
  obtain ⟨-, -, -, -, hexp⟩ := oneC_layout f
  have hlt : scaleOf f * 2 ^ f.fracBits + 2 ^ f.fracBits < infBits f := by
    calc scaleOf f * 2 ^ f.fracBits + 2 ^ f.fracBits = (scaleOf f + 1) * 2 ^ f.fracBits := by ring
      _ < expMax f * 2 ^ f.fracBits := Nat.mul_lt_mul_of_pos_right hexp h1
  have hexact := roundBits_exact (f := f) one_pos hlt.le
  rw [bitsMagnitude_binade (by rw [pow_succ]; omega) (.inr le_rfl), mul_one] at hexact
  rwa [hexact]

/-- The floor of a finite value, in smallest subnormals, is a value of FMT. -/
theorem floor_representable (ha : isFinite f a = true) {n : Nat}
    (hn : n = (scaled f a / 2 ^ scaleOf f * 2 ^ scaleOf f).natAbs) :
    roundBits f n 1 < infBits f ∧ bitsMagnitude f (roundBits f n 1) = n := by
  rcases Nat.lt_or_ge (magnitude f a) (2 ^ f.fracBits * 2 ^ scaleOf f) with hlt | hge
  · obtain ⟨c, hc⟩ : ∃ c, c = (scaled f a / 2 ^ scaleOf f).natAbs := ⟨_, rfl⟩
    have hnc : n = c * 2 ^ scaleOf f := by rw [hn, hc, Int.natAbs_mul, Int.natAbs_pow]; rfl
    have hle : c ≤ 2 ^ f.fracBits := by
      have hU : (0 : Int) < 2 ^ scaleOf f := by positivity
      have habs : (scaled f a).natAbs < 2 ^ f.fracBits * 2 ^ scaleOf f := by rwa [natAbs_scaled]
      have hup : scaled f a < 2 ^ f.fracBits * 2 ^ scaleOf f := by zify at habs; exact (abs_lt.1 habs).2
      have hlo : -2 ^ f.fracBits * 2 ^ scaleOf f ≤ scaled f a := by
        zify at habs
        linarith [(abs_lt.1 habs).1]
      have h1 := Int.ediv_lt_of_lt_mul hU hup
      have h2 := (Int.le_ediv_iff_mul_le hU).2 hlo
      zify
      rw [hc, Int.natCast_natAbs]
      exact abs_le.2 ⟨h2, h1.le⟩
    have hfin : roundBits f (c * 2 ^ scaleOf f) 1 < infBits f :=
      (roundBits_mono one_pos one_pos (by
        simpa using Nat.mul_le_mul_right (2 ^ scaleOf f) hle)).trans_lt (roundBits_wholes_lt f)
    rw [hnc]
    exact ⟨hfin, bitsMagnitude_roundBits (by rw [pow_succ]; have := (fmt_layout f).1; omega) hfin⟩
  · have hdvd : (2 : Int) ^ scaleOf f ∣ scaled f a := by
      rw [← Int.natAbs_dvd_natAbs, natAbs_scaled, Int.natAbs_pow]
      exact dvd_magnitude_of_le hge
    have hbits := (isFinite_iff_bits_lt f a).1 ha
    have hexact := roundBits_exact (f := f) one_pos hbits.le
    rw [hn, Int.ediv_mul_cancel hdvd, natAbs_scaled, magnitude_eq_bits]
    rw [mul_one] at hexact
    rw [hexact]
    exact ⟨hbits, rfl⟩

theorem ffloor_isFinite (ha : isFinite f a = true) : isFinite f (ffloor f k a) = true := by
  rw [ffloor_finite ha]
  exact roundTo_isFinite (floor_representable ha rfl).1

theorem ffloor_signBit (ha : isFinite f a = true) : signBit f (ffloor f k a) = signBit f a := by
  rw [ffloor_finite ha, roundTo_signBit]

/-- R83: the floor of a finite value is exact. -/
theorem scaled_ffloor (ha : isFinite f a = true) :
    scaled f (ffloor f k a) = scaled f a / 2 ^ scaleOf f * 2 ^ scaleOf f := by
  have hU : (0 : Int) < 2 ^ scaleOf f := by positivity
  rw [ffloor_finite ha, scaled_roundTo, (floor_representable ha rfl).2, Int.natCast_natAbs]
  cases hs : signBit f a with
  | true =>
    have hle : scaled f a ≤ 0 := by simp [scaled, hs]
    have hfl : scaled f a / 2 ^ scaleOf f * 2 ^ scaleOf f ≤ 0 :=
      (Int.ediv_mul_le _ hU.ne').trans hle
    simp [abs_of_nonpos hfl]
  | false =>
    have hge : 0 ≤ scaled f a := by simp [scaled, hs]
    simp [abs_of_nonneg (mul_nonneg (Int.ediv_nonneg hge hU.le) hU.le)]

/-! ### The wrap lands in the unit interval (R89, R90) -/

theorem inUnit_iff (f : Fmt) (w : Word) :
    inUnit f w = true ↔ isFinite f w = true ∧ signBit f w = false ∧ magnitude f w < magnitude f (oneC f) := by
  simp [inUnit, and_assoc]

theorem isFinite_oneC (f : Fmt) : isFinite f (oneC f) = true := by cases f <;> rfl

theorem scaled_oneC (f : Fmt) : scaled f (oneC f) = 2 ^ scaleOf f := by
  rw [scaled, (oneC_layout f).2.1, magnitude_oneC]
  simp

theorem zeroOf_false (f : Fmt) : zeroOf f false = posZero := packBits_zero f

theorem feq_of_isFinite (ha : isFinite f a = true) (hb : isFinite f b = true) :
    feq f a b = decide (scaled f a = scaled f b) := by
  simp [feq, ordered, not_isNaN_of_isFinite ha, not_isNaN_of_isFinite hb]

/-- A value of `[0, 1)` rounds to one of `[+0.0, 1.0]`. -/
theorem roundBits_le_one {n : Nat} (h : n ≤ 2 ^ scaleOf f) :
    roundBits f n 1 < infBits f ∧ bitsMagnitude f (roundBits f n 1) ≤ magnitude f (oneC f) := by
  have hone := (isFinite_iff_bits_lt f _).1 (isFinite_oneC f)
  have hexact := roundBits_exact (f := f) one_pos hone.le
  rw [← magnitude_eq_bits, mul_one] at hexact
  have hle : roundBits f n 1 ≤ roundBits f (magnitude f (oneC f)) 1 :=
    roundBits_mono one_pos one_pos (by rwa [mul_one, mul_one, magnitude_oneC])
  rw [hexact] at hle
  refine ⟨hle.trans_lt hone, ?_⟩
  rw [magnitude_eq_bits]
  exact bitsMagnitude_mono hle hone.le

/-- The difference inside `wrap`: its exact value is the remainder of the division by `1.0`, and an exact zero is
`+0.0`. -/
theorem fsub_ffloor {k' : DrawSite} (ha : isFinite f a = true) :
    fsub f k a (ffloor f k' a) =
      if scaled f a % 2 ^ scaleOf f = 0 then posZero
      else roundTo f false (scaled f a % 2 ^ scaleOf f).natAbs 1 := by
  have hfl : isFinite f (fneg f (ffloor f k' a)) = true := by rw [isFinite_fneg, ffloor_isFinite ha]
  have hrem : scaled f a + scaled f (fneg f (ffloor f k' a)) = scaled f a % 2 ^ scaleOf f := by
    rw [scaled_fneg, scaled_ffloor ha, Int.emod_def]
    ring
  have hsign : (signBit f a && signBit f (fneg f (ffloor f k' a))) = false := by
    rw [signBit_fneg, ffloor_signBit ha, Bool.and_not_self]
  have hnonneg : 0 ≤ scaled f a % 2 ^ scaleOf f := Int.emod_nonneg _ (by positivity)
  rw [fsub, fadd_finite ha hfl, addFinite, hrem, hsign, zeroOf_false, decide_eq_false hnonneg.not_gt]

/-- R89, R90: a finite value wraps into `[+0.0, 1.0)`. -/
theorem wrap_inUnit (ha : isFinite f a = true) : inUnit f (wrap f k a) = true := by
  have hlt : (scaled f a % 2 ^ scaleOf f).natAbs ≤ 2 ^ scaleOf f := by
    have hU : (0 : Int) < 2 ^ scaleOf f := by positivity
    zify
    rw [abs_of_nonneg (Int.emod_nonneg _ hU.ne')]
    exact (Int.emod_lt_of_pos _ hU).le
  obtain ⟨hfin, hle⟩ := roundBits_le_one hlt
  rw [wrap_finite ha, fsub_ffloor ha]
  generalize (scaled f a % 2 ^ scaleOf f).natAbs = n at *
  by_cases hz : scaled f a % 2 ^ scaleOf f = 0
  · rw [if_pos hz, ite_self]
    exact posZero_inUnit f
  · rw [if_neg hz]
    split
    · exact posZero_inUnit f
    · rename_i hne
      rw [feq_of_isFinite (roundTo_isFinite hfin) (isFinite_oneC f), decide_eq_true_eq, scaled_roundTo,
        scaled_oneC] at hne
      rw [inUnit_iff, magnitude_roundTo]
      refine ⟨roundTo_isFinite hfin, roundTo_signBit _ _ _ _, lt_of_le_of_ne hle fun heq => hne ?_⟩
      rw [if_neg (by decide), heq, magnitude_oneC]
      push_cast
      rfl

/-- R130: whatever is wrapped lands in `[+0.0, 1.0)` or is a NaN. -/
theorem wrap_inUnit_or_isNaN (f : Fmt) (k : DrawSite) (a : Word) :
    inUnit f (wrap f k a) = true ∨ isNaN f (wrap f k a) = true := by
  cases ha : isFinite f a with
  | true => exact .inl (wrap_inUnit ha)
  | false =>
    rw [wrap_not_finite ha]
    exact .inr (drawNaN_isNaN _ _)

end Sys2Proof.Machine
end

section
/-! Sums in the unit interval (R81, R120, R130): the phase and a finite increment never overflow, and adding a zero or
wrapping leaves a phase of `[+0.0, 1.0)` as it is. -/

namespace Sys2Proof.Machine

variable {f : Fmt} {k : DrawSite} {a b : Word}

/-! ### Below the overflow bound a rounding is finite -/

theorem infBits_eq_binade (f : Fmt) :
    infBits f = (expMax f - 2) * 2 ^ f.fracBits + (2 ^ (f.fracBits + 1) - 1) + 1 ∧ scaleOf f + 3 ≤ expMax f := by
  cases f <;> decide

/-- The largest finite value and half its last place, doubled (R81). -/
theorem two_mul_overflowBound (f : Fmt) :
    2 * overflowBound f = (2 * (2 ^ (f.fracBits + 1) - 1) + 1) * 2 ^ (expMax f - 2) := by
  obtain ⟨hinf, hexp⟩ := infBits_eq_binade f
  have hp : 0 < 2 ^ f.fracBits := by positivity
  have hhalf : 2 ^ (expMax f - 2) = 2 * 2 ^ (expMax f - 3) := by
    rw [← pow_succ']
    congr 1
    omega
  have hbits : infBits f - 1 = (expMax f - 2) * 2 ^ f.fracBits + (2 ^ (f.fracBits + 1) - 1) := by omega
  rw [overflowBound, magnitude_packBits ((Nat.sub_le _ _).trans_lt (infBits_lt f)), hbits,
    bitsMagnitude_binade (by rw [pow_succ]; omega) (.inr (by rw [pow_succ]; omega)), hhalf]
  ring

theorem roundToEven_le_of_lt {n d q : Nat} (hd : 0 < d) (h : 2 * n < (2 * q + 1) * d) :
    roundToEven n d ≤ q := by
  have hdm := Nat.div_add_mod n d
  have hq : n / d < q + 1 := by
    rw [Nat.div_lt_iff_lt_mul hd]
    nlinarith
  rcases Nat.lt_or_ge (n / d) q with hlt | hge
  · exact (roundToEven_between n d).2.trans hlt
  · have he : n / d = q := by omega
    have hr : 2 * (n % d) < d := by
      rw [he] at hdm
      nlinarith
    have hdown : roundToEven n d = n / d := if_neg (by omega)
    omega

/-- R81: what stays below the overflow bound is rounded to a finite value. -/
theorem roundBits_lt_infBits {n d : Nat} (hd : 0 < d) (h : n < overflowBound f * d) :
    roundBits f n d < infBits f := by
  obtain ⟨hinf, -⟩ := infBits_eq_binade f
  have hp : 0 < 2 ^ f.fracBits := by positivity
  obtain ⟨j, hj⟩ : ∃ j, j = Nat.log2 (n / d) - f.fracBits := ⟨_, rfl⟩
  obtain ⟨hub, hlb⟩ := roundBits_binade hd hj
  have htwo : 2 * n < (2 * (2 ^ (f.fracBits + 1) - 1) + 1) * (d * 2 ^ (expMax f - 2)) := by
    calc 2 * n < 2 * overflowBound f * d := by linarith
      _ = (2 * (2 ^ (f.fracBits + 1) - 1) + 1) * (d * 2 ^ (expMax f - 2)) := by
        rw [two_mul_overflowBound]; ring
  have hround : roundBits f n d ≤ j * 2 ^ f.fracBits + roundToEven n (d * 2 ^ j) := by
    rw [roundBits, ← hj]
    exact min_le_left _ _
  rw [pow_succ] at *
  rcases Nat.lt_trichotomy j (expMax f - 2) with hlt | rfl | hgt
  · have hsig := roundToEven_le (m := 2 ^ f.fracBits * 2) (by positivity) hub.le
    have hexp : (j + 1) * 2 ^ f.fracBits ≤ (expMax f - 2) * 2 ^ f.fracBits := Nat.mul_le_mul_right _ hlt
    rw [Nat.add_mul] at hexp
    omega
  · have hsig := roundToEven_le_of_lt (by positivity) htwo
    omega
  · have hpow : 2 * 2 ^ (expMax f - 2) ≤ 2 ^ j := by
      rw [← pow_succ']
      exact Nat.pow_le_pow_right (by decide) hgt
    have hlow := hlb (by omega)
    have hbig : 2 ^ f.fracBits * (d * (2 * 2 ^ (expMax f - 2))) ≤ n :=
      (Nat.mul_le_mul_left _ (Nat.mul_le_mul_left _ hpow)).trans hlow
    have hcoef : (2 * (2 ^ f.fracBits * 2 - 1) + 1) * (d * 2 ^ (expMax f - 2)) ≤
        2 ^ f.fracBits * 4 * (d * 2 ^ (expMax f - 2)) := Nat.mul_le_mul_right _ (by omega)
    linarith

/-! ### The sum of a phase and an increment -/

theorem addFinite_isFinite (h : magnitude f a + magnitude f b < overflowBound f) :
    isFinite f (addFinite f a b) = true := by
  have hz : (scaled f a + scaled f b).natAbs < overflowBound f * 1 := by
    have := Int.natAbs_add_le (scaled f a) (scaled f b)
    rw [natAbs_scaled, natAbs_scaled] at this
    omega
  unfold addFinite
  dsimp only
  split
  · exact packBits_isFinite (by cases f <;> decide)
  · exact roundTo_isFinite (roundBits_lt_infBits one_pos hz)

theorem magnitude_le_largest (ha : isFinite f a = true) :
    magnitude f a ≤ magnitude f (packBits f false (infBits f - 1)) := by
  have hbits := (isFinite_iff_bits_lt f a).1 ha
  rw [magnitude_packBits ((Nat.sub_le _ _).trans_lt (infBits_lt f)), magnitude_eq_bits]
  exact bitsMagnitude_mono (by omega) (Nat.sub_le _ _)

/-- A phase of `[+0.0, 1.0)` and a finite increment have a finite sum: `1.0` is less than half the last place of
the largest finite value. -/
theorem fadd_inUnit_isFinite (ha : inUnit f a = true) (hb : isFinite f b = true) :
    isFinite f (fadd f k a b) = true := by
  obtain ⟨hfin, -, hlt⟩ := (inUnit_iff f a).1 ha
  have hle := magnitude_le_largest hb
  have hone : 2 ^ scaleOf f ≤ 2 ^ (expMax f - 3) :=
    Nat.pow_le_pow_right (by decide) (by have := (infBits_eq_binade f).2; omega)
  rw [magnitude_oneC] at hlt
  rw [fadd_finite hfin hb]
  exact addFinite_isFinite (by rw [overflowBound]; omega)

/-! ### Nothing to add, nothing to wrap -/

theorem scaled_eq_magnitude (h : signBit f a = false) : scaled f a = magnitude f a := by simp [scaled, h]

/-- A value of sign clear is read back from its exact value. -/
theorem roundTo_scaled_self (hfit : f.fits a = true) (hfin : isFinite f a = true) (hs : signBit f a = false) :
    (if scaled f a = 0 then posZero else roundTo f false (scaled f a).natAbs 1) = a := by
  have hself := roundTo_self one_pos hfit hfin
  rw [hs, mul_one] at hself
  rw [natAbs_scaled, hself, scaled_eq_magnitude hs]
  split
  · rename_i hz
    rw [Int.natCast_eq_zero.1 hz] at hself
    rw [← hself, ← packBits_zero f]
    simp [roundTo, roundBits, roundToEven]
  · rfl

theorem isFinite_of_isZero (h : isZero f a = true) : isFinite f a = true := by
  have hmax : expMax f ≠ 0 := by cases f <;> decide
  simp only [isZero, Bool.and_eq_true, beq_iff_eq] at h
  rw [isFinite_iff_expField, h.1]
  exact hmax.symm

/-- A zero of either sign adds nothing to a value of sign clear (R82). -/
theorem fadd_isZero (hfit : f.fits a = true) (ha : inUnit f a = true) (hb : isZero f b = true) :
    fadd f k a b = a := by
  obtain ⟨hfin, hs, -⟩ := (inUnit_iff f a).1 ha
  have hb0 : scaled f b = 0 := by
    rw [← Int.natAbs_eq_zero, natAbs_scaled]
    exact (magnitude_eq_zero_iff f b).2 hb
  have hneg : ¬ scaled f a < 0 := by
    rw [scaled_eq_magnitude hs]
    omega
  rw [fadd_finite hfin (isFinite_of_isZero hb), addFinite, hb0, Int.add_zero, hs, Bool.false_and, zeroOf_false,
    decide_eq_false hneg]
  exact roundTo_scaled_self hfit hfin hs

/-- R89: a phase of `[+0.0, 1.0)` is its own wrap. -/
theorem wrap_of_inUnit (hfit : f.fits a = true) (ha : inUnit f a = true) : wrap f k a = a := by
  obtain ⟨hfin, hs, hlt⟩ := (inUnit_iff f a).1 ha
  have hrange : 0 ≤ scaled f a ∧ scaled f a < 2 ^ scaleOf f := by
    rw [magnitude_oneC] at hlt
    rw [scaled_eq_magnitude hs]
    exact ⟨Int.natCast_nonneg _, by exact_mod_cast hlt⟩
  rw [wrap_finite hfin, fsub_ffloor hfin, Int.emod_eq_of_lt hrange.1 hrange.2, roundTo_scaled_self hfit hfin hs,
    feq_of_isFinite hfin (isFinite_oneC f), scaled_oneC, decide_eq_false hrange.2.ne, if_neg (by decide)]

end Sys2Proof.Machine
end

section
/-! Data no rule tells apart (R82): every operation, and every waveform, answers the same datum wherever it draws its
NaNs. -/

namespace Sys2Proof.Machine

variable {f : Fmt} {k k' : DrawSite} {a a' b b' : Word}

theorem sameDatum_refl (f : Fmt) (a : Word) : sameDatum f a a := .inl rfl

/-- An operation of R81 to R83 reads no site but to draw, and a NaN operand makes a NaN: it cannot tell apart what no
rule does. -/
theorem sameDatum_binary {op : DrawSite → Word → Word → Word}
    (hnan : ∀ k a b, isNaN f a = true ∨ isNaN f b = true → isNaN f (op k a b) = true)
    (hsite : ∀ k k' a b, sameDatum f (op k a b) (op k' a b))
    (ha : sameDatum f a a') (hb : sameDatum f b b') : sameDatum f (op k a b) (op k' a' b') := by
  rcases ha with rfl | ⟨h, h'⟩
  · rcases hb with rfl | ⟨h, h'⟩
    · exact hsite _ _ _ _
    · exact .inr ⟨hnan _ _ _ (.inr h), hnan _ _ _ (.inr h')⟩
  · exact .inr ⟨hnan _ _ _ (.inl h), hnan _ _ _ (.inl h')⟩

theorem drawNaN_sameDatum (f : Fmt) (k k' : DrawSite) : sameDatum f (drawNaN f k) (drawNaN f k') :=
  .inr ⟨drawNaN_isNaN _ _, drawNaN_isNaN _ _⟩

theorem sameDatum_ite {c : Prop} [Decidable c] (h : sameDatum f a a') (h' : sameDatum f b b') :
    sameDatum f (if c then a else b) (if c then a' else b') := by
  split
  · exact h
  · exact h'

/-! ### The operations -/

theorem fadd_isNaN (h : isNaN f a = true ∨ isNaN f b = true) : isNaN f (fadd f k a b) = true := by
  rw [fadd_nan h]
  exact drawNaN_isNaN _ _

theorem fadd_sameDatum (ha : sameDatum f a a') (hb : sameDatum f b b') :
    sameDatum f (fadd f k a b) (fadd f k' a' b') := by
  have draw := drawNaN_sameDatum f
  have same := sameDatum_refl f
  refine sameDatum_binary (fun _ _ _ => fadd_isNaN) (fun k k' a b => ?_) ha hb
  exact sameDatum_ite (draw k k') (sameDatum_ite (sameDatum_ite (draw k k') (same _)) (same _))

theorem fsub_sameDatum (ha : sameDatum f a a') (hb : sameDatum f b b') :
    sameDatum f (fsub f k a b) (fsub f k' a' b') := by
  refine fadd_sameDatum ha ?_
  rcases hb with rfl | ⟨h, h'⟩
  · exact sameDatum_refl _ _
  · exact .inr ⟨by rwa [isNaN_fneg], by rwa [isNaN_fneg]⟩

theorem fmul_sameDatum (ha : sameDatum f a a') (hb : sameDatum f b b') :
    sameDatum f (fmul f k a b) (fmul f k' a' b') := by
  have draw := drawNaN_sameDatum f
  have same := sameDatum_refl f
  refine sameDatum_binary (fun k a b h => ?_) (fun k k' a b => ?_) ha hb
  · rw [fmul_nan h]
    exact drawNaN_isNaN _ _
  · exact sameDatum_ite (draw k k') (sameDatum_ite (sameDatum_ite (draw k k') (same _)) (same _))

theorem fdiv_sameDatum (ha : sameDatum f a a') (hb : sameDatum f b b') :
    sameDatum f (fdiv f k a b) (fdiv f k' a' b') := by
  have draw := drawNaN_sameDatum f
  have same := sameDatum_refl f
  refine sameDatum_binary (fun k a b h => ?_) (fun k k' a b => ?_) ha hb
  · rw [fdiv_nan h]
    exact drawNaN_isNaN _ _
  · exact sameDatum_ite (draw k k') (sameDatum_ite (sameDatum_ite (draw k k') (same _))
      (sameDatum_ite (same _) (sameDatum_ite (sameDatum_ite (draw k k') (same _)) (same _))))

theorem ffloor_sameDatum (ha : sameDatum f a a') : sameDatum f (ffloor f k a) (ffloor f k' a') := by
  rcases ha with rfl | ⟨h, h'⟩
  · exact sameDatum_ite (drawNaN_sameDatum f k k') (sameDatum_refl _ _)
  · simpa only [ffloor, h, h', if_true] using drawNaN_sameDatum f k k'

theorem fabs_sameDatum (ha : sameDatum f a a') : sameDatum f (fabs f a) (fabs f a') := by
  rcases ha with rfl | ⟨h, h'⟩
  · exact sameDatum_refl _ _
  · exact .inr ⟨by rwa [isNaN_fabs], by rwa [isNaN_fabs]⟩

theorem sinF_isNaN (h : isNaN f a = true) : isNaN f (sinF f a) = true := by
  simp only [sinF, h, Bool.true_or, if_true]
  exact someNaN_isNaN _ _

theorem sinF_sameDatum (ha : sameDatum f a a') : sameDatum f (sinF f a) (sinF f a') := by
  rcases ha with rfl | ⟨h, h'⟩
  · exact sameDatum_refl _ _
  · exact .inr ⟨sinF_isNaN h, sinF_isNaN h'⟩

/-- R84: a comparison is false of either NaN. -/
theorem flt_congr (ha : sameDatum f a a') : flt f a b = flt f a' b := by
  rcases ha with rfl | ⟨h, h'⟩
  · rfl
  · simp [flt, ordered, h, h']

theorem fgt_congr (ha : sameDatum f a a') : fgt f a b = fgt f a' b := by
  rcases ha with rfl | ⟨h, h'⟩
  · rfl
  · simp [fgt, ordered, h, h']

/-! ### The waveforms -/

variable {p p' d : Word} {harm : List Word}

theorem harmonicTerm_sameDatum (hp : sameDatum f p p') (i : Nat) (h : Word) :
    sameDatum f (harmonicTerm f k p i h) (harmonicTerm f k' p' i h) :=
  fmul_sameDatum
    (sinF_sameDatum (fmul_sameDatum (fmul_sameDatum (sameDatum_refl _ _) hp) (sameDatum_refl _ _)))
    (sameDatum_refl _ _)

theorem harmonicSumFrom_sameDatum (hp : sameDatum f p p') (harm : List Word) (i : Nat) {v v' : Word}
    (hv : sameDatum f v v') :
    sameDatum f (harmonicSumFrom f k p i v harm) (harmonicSumFrom f k' p' i v' harm) := by
  induction harm generalizing i v v' with
  | nil => exact hv
  | cons h rest ih =>
    exact ih _ (sameDatum_ite (fadd_sameDatum hv (harmonicTerm_sameDatum hp i h)) hv)

theorem amplitudeTotalFrom_sameDatum (harm : List Word) (i : Nat) {v v' : Word} (hv : sameDatum f v v') :
    sameDatum f (amplitudeTotalFrom f k i v harm) (amplitudeTotalFrom f k' i v' harm) := by
  induction harm generalizing i v v' with
  | nil => exact hv
  | cons h rest ih => exact ih _ (fadd_sameDatum hv (sameDatum_refl _ _))

theorem normalize_sameDatum (ha : sameDatum f a a') (hb : sameDatum f b b') :
    sameDatum f (normalize f k a b) (normalize f k' a' b') := by
  rw [normalize, normalize, fgt_congr hb]
  exact sameDatum_ite (fdiv_sameDatum ha hb) ha

theorem additiveValue_sameDatum (hp : sameDatum f p p') :
    sameDatum f (additiveValue f k p harm) (additiveValue f k' p' harm) :=
  normalize_sameDatum (harmonicSumFrom_sameDatum hp harm 0 (sameDatum_refl _ _))
    (amplitudeTotalFrom_sameDatum harm 0 (sameDatum_refl _ _))

theorem squareValue_congr (hp : sameDatum f p p') : squareValue f p d = squareValue f p' d := by
  rw [squareValue, squareValue, flt_congr hp]

/-- R82, R122: a sample does not depend on the sites of its draws, up to which NaN it is. -/
theorem waveValue_sameDatum (w : Waveform) (hp : sameDatum f p p') :
    sameDatum f (waveValue f k w p d harm) (waveValue f k' w p' d harm) := by
  have hrefl := sameDatum_refl f
  cases w with
  | sine => exact sinF_sameDatum (fmul_sameDatum (hrefl _) hp)
  | square => exact .inl (squareValue_congr hp)
  | sawtooth =>
    exact fsub_sameDatum (fmul_sameDatum (hrefl _) (fsub_sameDatum hp (ffloor_sameDatum hp))) (hrefl _)
  | triangle =>
    exact fsub_sameDatum (fmul_sameDatum (hrefl _) (fabs_sameDatum (fsub_sameDatum hp (hrefl _)))) (hrefl _)
  | pulse => exact .inl (squareValue_congr hp)
  | additive => exact additiveValue_sameDatum hp

end Sys2Proof.Machine
end

section
/-! What a command does, said once: the state a completed command leaves, and everything `exec` and `step` can answer.
Each invariant of the machine is derived from `step_invariant`, each fact about the samples of a `process` from
`sampleRun_invariant`. -/

namespace Sys2Proof.Machine

/-! ### Commands -/

/-- The state an instruction leaves when no fault applies (`exec_eq` ties it to `exec`). -/
def completed : Instr → State → State
  | .construct sampleRate, s => (s.resetRegisters sampleRate).answer []
  | .setWaveform kind, s => (s.setWaveform kind).answer []
  | .setHarmonics amplitudes, s => (s.setHarm amplitudes).answer []
  | .noteOn frequency, s => ((s.setFrequency frequency).setPhase posZero).answer []
  | .noteOff, s => (s.setFrequency posZero).answer []
  | .setDutyCycle value, s => (s.setDutyCycle value).answer []
  | .process len, s => if s.silent then processSilent len s else processSounding len s
  | .getPulseWaveformData, s => s.takeDraws.answer (previewVector s.fmt s.site s.dutyCycle)

/-- `construct` always completes; every other instruction makes R183's checks first. -/
theorem exec_eq (i : Instr) (s : State) :
    exec i s =
      if isConstruct i then .next (completed i s)
      else guarded (!overCapacity s.params i) s (completed i s) := by
  cases i with
  | setHarmonics amplitudes => rw [overCapacity, Bool.not_not]; rfl
  | process len => rw [overCapacity, Bool.not_not]; rfl
  | construct _ | setWaveform _ | noteOn _ | noteOff | setDutyCycle _ | getPulseWaveformData => rfl

theorem exec_construct (sr : Word) (s : State) :
    exec (.construct sr) s = .next ((s.resetRegisters sr).answer []) := rfl

theorem exec_unconstructed {i : Instr} {s : State} (hs : s.constructed = false) (hi : isConstruct i = false) :
    exec i s = .next (s.raise .notConstructed) := by
  rw [exec_eq, hi, if_neg (by decide), guarded_unconstructed hs]

theorem exec_completes {i : Instr} {s : State} (hs : s.constructed = true)
    (hi : overCapacity s.params i = false) : exec i s = .next (completed i s) := by
  rw [exec_eq, hi, Bool.not_false, guarded_done hs, ite_self]

theorem overCapacity_process {p : Params} {len : Nat} (h : withinBound p.lMax len = true) :
    overCapacity p (.process len) = false := by rw [overCapacity, h, Bool.not_true]

theorem overCapacity_of_isConstruct {i : Instr} (p : Params) (h : isConstruct i = true) :
    overCapacity p i = false := by
  cases i with
  | construct _ => rfl
  | setWaveform _ | setHarmonics _ | noteOn _ | noteOff | setDutyCycle _ | process _ | getPulseWaveformData =>
    cases h

theorem guarded_next (fits : Bool) (s done : State) : ∃ t, guarded fits s done = .next t := by
  unfold guarded
  split_ifs <;> exact ⟨_, rfl⟩

/-- Every instruction answers with a next state (R60). -/
theorem exec_next (i : Instr) (s : State) : ∃ t, exec i s = .next t := by
  rw [exec_eq]
  split
  · exact ⟨_, rfl⟩
  · exact guarded_next _ _ _

/-- Two states of equal CONSTRUCTED and equal parameters pass the same checks: an instruction raises the same fault in
both or completes in both. -/
theorem exec_pair {i : Instr} {s u t : State} (h : exec i s = .next t) (hcon : u.constructed = s.constructed)
    (hparams : u.params = s.params) :
    ∃ v, exec i u = .next v ∧
      ((∃ code, t = s.raise code ∧ v = u.raise code) ∨ (t = completed i s ∧ v = completed i u)) := by
  rw [exec_eq] at h ⊢
  split at h
  · rename_i hi
    injection h with h
    exact ⟨_, if_pos hi, .inr ⟨h.symm, rfl⟩⟩
  · rename_i hi
    rw [if_neg hi, hparams]
    rcases guarded_cases h with ⟨hs, rfl⟩ | ⟨hs, hcap, rfl⟩ | ⟨hs, hcap, rfl⟩
    · exact ⟨_, guarded_unconstructed (hcon.trans hs), .inl ⟨_, rfl, rfl⟩⟩
    · rw [hcap]
      exact ⟨_, guarded_overCapacity (hcon.trans hs), .inl ⟨_, rfl, rfl⟩⟩
    · rw [hcap]
      exact ⟨_, guarded_done (hcon.trans hs), .inr ⟨rfl, rfl⟩⟩

/-- Everything an instruction can answer: a command fault, or its completed state. -/
theorem exec_cases {i : Instr} {s t : State} (h : exec i s = .next t) :
    (∃ code, t = s.raise code) ∨ (overCapacity s.params i = false ∧ t = completed i s) := by
  rw [exec_eq] at h
  split at h
  · rename_i hi
    injection h with h
    exact .inr ⟨overCapacity_of_isConstruct _ hi, h.symm⟩
  · rcases guarded_cases h with ⟨-, ht⟩ | ⟨-, -, ht⟩ | ⟨-, hcap, ht⟩
    · exact .inl ⟨_, ht⟩
    · exact .inl ⟨_, ht⟩
    · exact .inr ⟨by simpa using hcap, ht⟩

theorem plainCommand_ok {cw : CmdWord} {i j : Instr} (h : plainCommand cw j = .ok i) : i = j := by
  unfold plainCommand at h
  split at h
  · injection h with h
    exact h.symm
  · cases h

theorem waveformCommand_ok {cw : CmdWord} {i : Instr} (h : waveformCommand cw = .ok i) :
    ∃ kind, Waveform.ofCode (wfField cw) = some kind ∧ i = .setWaveform kind := by
  unfold waveformCommand at h
  split at h
  · rename_i kind hk
    injection h with h
    exact ⟨kind, hk, h.symm⟩
  · cases h

/-- The decoder takes an instruction's operands from the port (R62). -/
theorem decode_operandsFrom {c : Command} {i : Instr} (h : decode c = .ok i) : operandsFrom c i := by
  unfold decode at h
  split at h
  · cases h
  · split at h
    case h_2 =>
      obtain ⟨kind, hk, rfl⟩ := waveformCommand_ok h
      rw [operandsFrom, code_of_ofCode hk, wfField_toNat]
    case h_9 => cases h
    all_goals
      obtain rfl := plainCommand_ok h
      simp [operandsFrom]

/-- The port's wires carry FMT's bits only, so every decoded operand is a bit pattern of FMT (R60, R62). -/
theorem decode_onPort_wellFormed {f : Fmt} {c : Command} {i : Instr} (h : decode (onPort f c) = .ok i) :
    i.wellFormed f = true := by
  have ho := decode_operandsFrom h
  have harg : f.fits (onPort f c).arg = true := clip_fits _ _
  have hseq : (onPort f c).seq.all f.fits = true := by simp [onPort, clip_fits]
  cases i with
  | construct _ | noteOn _ | setDutyCycle _ => rw [Instr.wellFormed, ho, harg]
  | setHarmonics _ => rw [Instr.wellFormed, ho, hseq]
  | setWaveform _ | noteOff | process _ | getPulseWaveformData => rfl

/-- An invariant of the machine: kept when a command is taken, when a fault is raised, and by every completed
instruction within its capacity whose operands are of FMT. -/
theorem step_invariant {P : State → Prop} (hport : ∀ s q, P s → P (s.setPort q))
    (hraise : ∀ s code, P s → P (s.raise code))
    (hdone : ∀ i s, P s → i.wellFormed s.fmt = true → overCapacity s.params i = false → P (completed i s))
    {s t : State} (hs : P s) (h : step s = .next t) : P t := by
  rcases step_cases s with ⟨-, hidle⟩ | ⟨c, rest, -, ⟨e, -, hill⟩ | ⟨i, hdec, hexec⟩⟩
  · rw [hidle] at h
    injection h with h
    rwa [← h]
  · rw [hill] at h
    injection h with h
    rw [← h]
    exact hraise _ _ (hport _ _ hs)
  · rw [hexec] at h
    rcases exec_cases h with ⟨code, rfl⟩ | ⟨hcap, rfl⟩
    · exact hraise _ _ (hport _ _ hs)
    · exact hdone i _ (hport _ _ hs) (decode_onPort_wellFormed hdec) hcap

/-! ### The samples of a process -/

/-- What every sample step keeps holds after the run, and of the state each sample is taken in. -/
theorem sampleRun_invariant {P : State → Prop} (hstep : ∀ u, P u → P (u.advance u.nextPhase)) (n : Nat)
    {s : State} (hs : P s) :
    P (sampleRun n s).2 ∧ ∀ v ∈ (sampleRun n s).1, ∃ u, P u ∧ v = u.sampleValue := by
  induction n generalizing s with
  | zero => exact ⟨hs, by simp⟩
  | succ n ih =>
    obtain ⟨hend, hsamples⟩ := ih (hstep s hs)
    rw [sampleRun_succ]
    refine ⟨hend, fun v hv => ?_⟩
    rcases List.mem_cons.1 hv with rfl | hv
    · exact ⟨s, hs, rfl⟩
    · exact hsamples v hv

theorem completed_process_silent {s : State} (h : s.silent = true) (len : Nat) :
    completed (.process len) s = s.releaseLatches.answer (List.replicate len posZero) := by
  rw [completed, if_pos h, processSilent]

theorem completed_process_sounding {s : State} (h : s.silent = false) (len : Nat) :
    completed (.process len) s =
      (sampleRun len (s.loadLatches s.increment)).2.releaseLatches.answer
        (sampleRun len (s.loadLatches s.increment)).1 := by
  rw [completed, h, if_neg (by decide), processSounding]

/-- A predicate of the registers that the latches, the draws and the answer do not touch is kept by `process` if each
sample step keeps it. -/
theorem completed_process_invariant {P : State → Prop} {s : State} (hs : P s) (len : Nat)
    (hload : P s → P (s.loadLatches s.increment)) (hstep : ∀ u, P u → P (u.advance u.nextPhase))
    (hdone : ∀ u data, P u → P (u.releaseLatches.answer data)) : P (completed (.process len) s) := by
  cases h : s.silent with
  | true =>
    rw [completed_process_silent h]
    exact hdone _ _ hs
  | false =>
    rw [completed_process_sounding h]
    exact hdone _ _ (sampleRun_invariant hstep len (hload hs)).1

/-- R33, R121: of the registers `process` writes PHASE alone, and not that on the silence path or without a sample. -/
theorem completed_process_frame (len : Nat) (s : State) :
    ∃ p inc j draws r,
      completed (.process len) s = { s with phase := p, inc := inc, j := j, draws := draws, response := r } ∧
        (p = s.phase ∨ (1 ≤ len ∧ s.silent = false)) := by
  cases h : s.silent with
  | true => exact ⟨_, _, _, _, _, by rw [completed_process_silent h]; rfl, .inl rfl⟩
  | false =>
    refine ⟨(sampleRun len (s.loadLatches s.increment)).2.phase, s.fmt.clip (Config.idleInc s.draws),
      Config.idleJ s.draws, s.draws + 1,
      some { status := .ok, data := (sampleRun len (s.loadLatches s.increment)).1 }, ?_, ?_⟩
    · rw [completed_process_sounding h, sampleRun_frame]
      rfl
    · cases len with
      | zero => exact .inl rfl
      | succ n => exact .inr ⟨Nat.le_add_left 1 n, rfl⟩

end Sys2Proof.Machine
end

section
/-! PHASE (R22, R90, R120, R130): the unit interval or a NaN at every step, the unit interval while the increment is
finite, and where it is while the increment is a zero. -/

namespace Sys2Proof.Machine

/-! ### At every step -/

theorem phaseOk_iff (s : State) :
    phaseOk s = true ↔ inUnit s.fmt s.phase = true ∨ isNaN s.fmt s.phase = true := by
  rw [phaseOk, Bool.or_eq_true]

/-- A sample step leaves PHASE in the interval or a NaN, wherever it was. -/
theorem advance_phaseOk (u : State) : phaseOk (u.advance u.nextPhase) = true :=
  (phaseOk_iff _).2 (wrap_inUnit_or_isNaN _ _ _)

theorem completed_phaseOk (i : Instr) {s : State} (hs : phaseOk s = true) : phaseOk (completed i s) = true := by
  cases i with
  | construct _ | noteOn _ => exact phaseOk_of_inUnit (posZero_inUnit s.fmt)
  | process len =>
    exact completed_process_invariant (P := fun u => phaseOk u = true) hs len id (fun u _ => advance_phaseOk u)
      fun _ _ hu => hu
  | setWaveform _ | setHarmonics _ | noteOff | setDutyCycle _ | getPulseWaveformData => exact hs

/-- Settles O25: an invariant of the machine; only `construct`, `note_on` and the sample steps write PHASE, and each
sample step wraps it. -/
theorem phaseStaysInUnitOrNaN : Obligations.PhaseStaysInUnitOrNaN := fun _ _ hs hstep =>
  step_invariant (P := fun u => phaseOk u = true) (fun _ _ hu => hu) (fun _ _ hu => hu)
    (fun i _ hu _ _ => completed_phaseOk i hu) hs hstep

/-! ### With a finite increment -/

/-- Where PHASE is in the interval and the latch INC finite, as inside `process` (R120). -/
def SoundsInUnit (u : State) : Prop := inUnit u.fmt u.phase = true ∧ isFinite u.fmt u.inc = true

theorem advance_soundsInUnit {u : State} (hu : SoundsInUnit u) : SoundsInUnit (u.advance u.nextPhase) := by
  obtain ⟨hphase, hinc⟩ := hu
  refine ⟨?_, hinc⟩
  rw [State.advance_phase, State.advance_fmt, State.nextPhase]
  exact wrap_inUnit (fadd_inUnit_isFinite hphase hinc)

theorem completed_process_inUnit {s : State} (hs : inUnit s.fmt s.phase = true)
    (hinc : isFinite s.fmt s.increment = true) (len : Nat) :
    inUnit (completed (.process len) s).fmt (completed (.process len) s).phase = true := by
  cases h : s.silent with
  | true =>
    rw [completed_process_silent h]
    exact hs
  | false =>
    have hload : SoundsInUnit (s.loadLatches s.increment) := ⟨hs, hinc⟩
    rw [completed_process_sounding h]
    exact (sampleRun_invariant (P := SoundsInUnit) (fun _ => advance_soundsInUnit) len hload).1.1

/-! ### With an infinite rate -/

theorem zeroOf_isZero (f : Fmt) (neg : Bool) : isZero f (zeroOf f neg) = true := by
  cases f <;> cases neg <;> rfl

theorem not_isNaN_of_isInf {f : Fmt} {w : Word} (h : isInf f w = true) : isNaN f w = false := by
  simp_all [isInf, isNaN]

/-- R81: a finite value over an infinity is a zero. -/
theorem fdiv_inf_isZero {f : Fmt} {k : DrawSite} {a b : Word} (ha : isFinite f a = true)
    (hb : isInf f b = true) : isZero f (fdiv f k a b) = true := by
  have hdiv : fdiv f k a b = zeroOf f (signBit f a != signBit f b) := by
    simp [fdiv, not_isNaN_of_isFinite ha, not_isInf_of_isFinite ha, not_isNaN_of_isInf hb, hb]
  rw [hdiv]
  exact zeroOf_isZero _ _

/-- What a `process` of increment zero keeps: every register, and the latch. -/
def Frozen (s u : State) : Prop :=
  u.registers = s.registers ∧ u.params = s.params ∧ isZero u.fmt u.inc = true

theorem nextPhase_of_isZero_inc {u : State} (hfit : u.fmt.fits u.phase = true)
    (hunit : inUnit u.fmt u.phase = true) (hinc : isZero u.fmt u.inc = true) : u.nextPhase = u.phase := by
  rw [State.nextPhase, fadd_isZero hfit hunit hinc, wrap_of_inUnit hfit hunit]

theorem advance_frozen {s u : State} (hfit : s.fmt.fits s.phase = true) (hunit : inUnit s.fmt s.phase = true)
    (hu : Frozen s u) : Frozen s (u.advance u.nextPhase) := by
  obtain ⟨hregs, hparams, hinc⟩ := hu
  have hphase : u.phase = s.phase := congrArg Registers.phase hregs
  have hfmt : u.fmt = s.fmt := congrArg Params.fmt hparams
  have hnext : u.nextPhase = s.phase := by
    rw [nextPhase_of_isZero_inc (by rwa [hfmt, hphase]) (by rwa [hfmt, hphase]) hinc, hphase]
  refine ⟨?_, hparams, hinc⟩
  rw [State.advance_registers, hnext, hregs]
  rfl

theorem sampleValue_of_frozen {s u : State} (hu : Frozen s u) :
    ∃ k, u.sampleValue = waveValue s.fmt k s.waveform s.phase s.dutyCycle s.harm := by
  obtain ⟨hregs, hparams, -⟩ := hu
  refine ⟨u.sampleSite.sub 0, ?_⟩
  rw [State.sampleValue, show u.fmt = s.fmt from congrArg Params.fmt hparams,
    show u.waveform = s.waveform from congrArg Registers.waveform hregs,
    show u.phase = s.phase from congrArg Registers.phase hregs,
    show u.dutyCycle = s.dutyCycle from congrArg Registers.dutyCycle hregs,
    show u.harm = s.harm from congrArg Registers.harm hregs]

/-- R120: with a zero increment PHASE stays where it is, and so does the sample. -/
theorem completed_process_frozen {s : State} (hfit : s.fmt.fits s.phase = true)
    (hunit : inUnit s.fmt s.phase = true) (hinc : isZero s.fmt s.increment = true) (len : Nat) :
    (completed (.process len) s).phase = s.phase ∧
      ∃ data, (completed (.process len) s).response = some { status := .ok, data := data } ∧
        ∀ v ∈ data, ∀ w ∈ data, sameDatum s.fmt v w := by
  cases h : s.silent with
  | true =>
    rw [completed_process_silent h]
    refine ⟨rfl, _, rfl, fun v hv w hw => ?_⟩
    rw [List.eq_of_mem_replicate hv, List.eq_of_mem_replicate hw]
    exact sameDatum_refl _ _
  | false =>
    have hload : Frozen s (s.loadLatches s.increment) := ⟨rfl, rfl, hinc⟩
    obtain ⟨⟨hregs, -⟩, hsamples⟩ := sampleRun_invariant (P := Frozen s) (fun _ => advance_frozen hfit hunit) len hload
    rw [completed_process_sounding h]
    refine ⟨congrArg Registers.phase hregs, _, rfl, fun v hv w hw => ?_⟩
    obtain ⟨u, hu, rfl⟩ := hsamples v hv
    obtain ⟨u', hu', rfl⟩ := hsamples w hw
    obtain ⟨k, hk⟩ := sampleValue_of_frozen hu
    obtain ⟨k', hk'⟩ := sampleValue_of_frozen hu'
    rw [hk, hk']
    exact waveValue_sameDatum _ (sameDatum_refl _ _)

/-- Settles O26: the sum of a phase and a finite increment never overflows, so every sample step wraps a finite value;
over an infinite rate the increment is a zero, which neither the addition nor the wrap sees. -/
theorem finiteIncrementKeepsPhaseInUnit : Obligations.FiniteIncrementKeepsPhaseInUnit := by
  intro len s hcon hlen hunit
  have hexec := exec_completes hcon (overCapacity_process hlen)
  refine ⟨fun hinc => ⟨_, hexec, completed_process_inUnit hunit hinc len⟩, fun hfit hfreq hrate => ?_⟩
  have hzero : isZero s.fmt s.increment = true := fdiv_inf_isZero hfreq hrate
  obtain ⟨hphase, data, hdata, hsame⟩ := completed_process_frozen hfit hunit hzero len
  exact ⟨hzero, _, data, hexec, hphase, hdata, hsame⟩

end Sys2Proof.Machine
end

section
/-! Well-formed states (R26, R80, R102): every value the block computes is a bit pattern of FMT. -/

namespace Sys2Proof.Machine

/-! ### Samples and preview values are bit patterns of FMT -/

section
variable {f : Fmt} {k : DrawSite}

theorem someNaN_fits {bits : Word} (h : f.fits bits = true) : f.fits (someNaN f bits) = true := by
  unfold someNaN
  split
  · exact h
  · exact (quietNaN_spec f bits).1

theorem sinF_fits {x : Word} (hx : f.fits x = true) : f.fits (sinF f x) = true := by
  rcases sinF_cases f x with ⟨-, h⟩ | ⟨-, h⟩ | ⟨-, -, h | ⟨-, h⟩⟩
  · rw [h]
    exact someNaN_fits (clip_fits _ _)
  · rwa [h]
  · rw [h]
    exact posZero_fits f
  · exact h

theorem squareValue_fits (p d : Word) : f.fits (squareValue f p d) = true := by
  unfold squareValue
  split
  · exact oneC_fits f
  · exact minusOneC_fits f

theorem harmonicSumFrom_fits (p : Word) (harm : List Word) (i : Nat) {v : Word} (hv : f.fits v = true) :
    f.fits (harmonicSumFrom f k p i v harm) = true := by
  induction harm generalizing i v with
  | nil => exact hv
  | cons h rest ih =>
    apply ih
    split
    · exact fadd_fits _ _ _ _
    · exact hv

theorem additiveValue_fits (p : Word) (harm : List Word) : f.fits (additiveValue f k p harm) = true := by
  unfold additiveValue normalize
  split
  · exact fdiv_fits _ _ _ _
  · exact harmonicSumFrom_fits p harm 0 (posZero_fits f)

theorem waveValue_fits (w : Waveform) (p d : Word) (harm : List Word) :
    f.fits (waveValue f k w p d harm) = true := by
  cases w with
  | sine => exact sinF_fits (fmul_fits _ _ _ _)
  | square | pulse => exact squareValue_fits p d
  | sawtooth | triangle => exact fsub_fits _ _ _ _
  | additive => exact additiveValue_fits p harm

theorem previewValue_fits (d : Word) (n : Nat) : f.fits (previewValue f k d n) = true := by
  unfold previewValue
  split
  · exact posZero_fits f
  · exact fdiv_fits _ _ _ _

theorem previewVector_fits (d : Word) : (previewVector f k d).all f.fits = true := by
  simp [previewVector, previewValue_fits]

end

/-! ### The registers -/

theorem setPhase_wellFormed {s : State} {v : Word} (hs : s.wellFormed = true) (hv : s.fmt.fits v = true) :
    (s.setPhase v).wellFormed = true := by
  rw [wellFormed_iff] at hs ⊢
  obtain ⟨hcap, -, hrest⟩ := hs
  exact ⟨hcap, hv, hrest⟩

theorem setFrequency_wellFormed {s : State} {v : Word} (hs : s.wellFormed = true) (hv : s.fmt.fits v = true) :
    (s.setFrequency v).wellFormed = true := by
  rw [wellFormed_iff] at hs ⊢
  obtain ⟨hcap, hphase, -, hrest⟩ := hs
  exact ⟨hcap, hphase, hv, hrest⟩

theorem setDutyCycle_wellFormed {s : State} {v : Word} (hs : s.wellFormed = true) (hv : s.fmt.fits v = true) :
    (s.setDutyCycle v).wellFormed = true := by
  rw [wellFormed_iff] at hs ⊢
  obtain ⟨hcap, hphase, hfreq, -, hrest⟩ := hs
  exact ⟨hcap, hphase, hfreq, hv, hrest⟩

theorem loadLatches_wellFormed {s : State} {v : Word} (hs : s.wellFormed = true) (hv : s.fmt.fits v = true) :
    (s.loadLatches v).wellFormed = true := by
  rw [wellFormed_iff] at hs ⊢
  obtain ⟨hcap, hphase, hfreq, hduty, hrate, -, hrest⟩ := hs
  exact ⟨hcap, hphase, hfreq, hduty, hrate, hv, hrest⟩

/-- The latches hold bit patterns of FMT when they are released, too (log 4). -/
theorem releaseLatches_wellFormed {s : State} (hs : s.wellFormed = true) : s.releaseLatches.wellFormed = true :=
  loadLatches_wellFormed (v := s.fmt.clip (Config.idleInc s.draws)) hs (clip_fits _ _)

theorem answer_wellFormed {s : State} (hs : s.wellFormed = true) (data : List Word) :
    (s.answer data).wellFormed = true := hs

theorem advance_wellFormed {u : State} (hu : u.wellFormed = true) :
    (u.advance u.nextPhase).wellFormed = true := setPhase_wellFormed hu (wrap_fits _ _ _)

/-- A completed instruction within its capacity, its operands of FMT, keeps the state well-formed. -/
theorem completed_wellFormed {i : Instr} {s : State} (hs : s.wellFormed = true)
    (hi : i.wellFormed s.fmt = true) (hcap : overCapacity s.params i = false) :
    (completed i s).wellFormed = true := by
  cases i with
  | construct sr => exact answer_wellFormed (resetRegisters_wellFormed ((wellFormed_iff s).1 hs).1 hi) _
  | setHarmonics amplitudes =>
    have hlen : withinBound s.params.hCap amplitudes.length = true := by simpa [overCapacity] using hcap
    exact answer_wellFormed (setHarm_wellFormed hs hi hlen) _
  | noteOn v =>
    exact answer_wellFormed (setPhase_wellFormed (setFrequency_wellFormed hs hi) (posZero_fits _)) _
  | noteOff => exact answer_wellFormed (setFrequency_wellFormed hs (posZero_fits _)) _
  | setDutyCycle v => exact answer_wellFormed (setDutyCycle_wellFormed hs hi) _
  | process len =>
    exact completed_process_invariant (P := fun u => u.wellFormed = true) hs len
      (fun hu => loadLatches_wellFormed hu (fdiv_fits _ _ _ _)) (fun _ => advance_wellFormed)
      fun _ data hu => answer_wellFormed (releaseLatches_wellFormed hu) data
  | setWaveform _ => exact answer_wellFormed (s := s.setWaveform _) hs []
  | getPulseWaveformData =>
    exact answer_wellFormed (s := s.takeDraws) hs (previewVector s.fmt s.site s.dutyCycle)

/-! ### The response -/

theorem answer_responseFits {s : State} {data : List Word} (h : data.all s.fmt.fits = true) :
    (s.answer data).responseFits = true := h

/-- Every sample of a run is a bit pattern of FMT. -/
theorem sampleRun_fits (n : Nat) (s : State) : (sampleRun n s).1.all s.fmt.fits = true := by
  rw [List.all_eq_true]
  intro v hv
  obtain ⟨u, hu, rfl⟩ := (sampleRun_invariant (P := fun u => u.fmt = s.fmt) (fun _ hu => hu) n rfl).2 v hv
  rw [← hu]
  exact waveValue_fits _ _ _ _

theorem completed_process_responseFits (len : Nat) (s : State) :
    (completed (.process len) s).responseFits = true := by
  cases h : s.silent with
  | true =>
    rw [completed_process_silent h]
    refine answer_responseFits (List.all_eq_true.2 fun v hv => ?_)
    rw [List.eq_of_mem_replicate hv]
    exact posZero_fits _
  | false =>
    have hframe := congrArg State.fmt (sampleRun_frame len (s.loadLatches s.increment))
    rw [completed_process_sounding h]
    apply answer_responseFits
    rw [State.releaseLatches_fmt, hframe]
    exact sampleRun_fits len _

/-- Whatever a completed instruction answers is bit patterns of FMT, from every state. -/
theorem completed_responseFits (i : Instr) (s : State) : (completed i s).responseFits = true := by
  cases i with
  | process len => exact completed_process_responseFits len s
  | getPulseWaveformData => exact answer_responseFits (previewVector_fits _)
  | construct _ | setWaveform _ | setHarmonics _ | noteOn _ | noteOff | setDutyCycle _ => rfl

/-- Settles O59: two invariants of the machine. The operands come through the port's FMT-wide wires, and every
primitive's result is a bit pattern of FMT. -/
theorem stepKeepsStateWellFormed : Obligations.StepKeepsStateWellFormed := fun _ _ hs hstep =>
  ⟨step_invariant (P := fun u => u.wellFormed = true) (fun _ _ hu => hu) (fun _ _ hu => hu)
      (fun _ _ => completed_wellFormed) hs hstep,
    fun hr => step_invariant (P := fun u => u.responseFits = true) (fun _ _ hu => hu) (fun _ _ _ => rfl)
      (fun i u _ _ _ => completed_responseFits i u) hr hstep⟩

end Sys2Proof.Machine
end

section
/-! Which registers a command writes (R20, R32, R33) and which `process` reads (R33, R120). -/

namespace Sys2Proof.Machine

/-! ### CONSTRUCTED gates the commands (R20, R181) -/

theorem completed_constructed (i : Instr) {s : State} (hs : s.constructed = true) :
    (completed i s).constructed = true := by
  cases i with
  | construct _ => rfl
  | process len =>
    obtain ⟨_, _, _, _, _, hframe, -⟩ := completed_process_frame len s
    rw [hframe]
    exact hs
  | setWaveform _ | setHarmonics _ | noteOn _ | noteOff | setDutyCycle _ | getPulseWaveformData => exact hs

/-- Settles O12: the check comes first in every instruction but `construct`, and CONSTRUCTED is an invariant of the
machine once set. -/
theorem constructedGatesCommands : Obligations.ConstructedGatesCommands :=
  ⟨fun _ _ hs hi => exec_unconstructed hs hi, rfl, reset_not_constructed,
    fun sr s => ⟨_, exec_construct sr s, rfl⟩,
    fun _ _ hs hstep => step_invariant (P := fun u => u.constructed = true) (fun _ _ hu => hu) (fun _ _ hu => hu)
      (fun i _ hu _ _ => completed_constructed i hu) hs hstep⟩

/-- Settles O13: `construct` is R32's reset, and the constants of R87 have the bit patterns of the table. -/
theorem constructResetsEveryRegister : Obligations.ConstructResetsEveryRegister :=
  ⟨fun sr s => ⟨_, exec_construct sr s, State.resetRegisters_registers s sr, rfl, rfl, rfl, rfl⟩,
    fun _ => rfl, fun _ => rfl⟩

/-! ### The access table, written (R33) -/

/-- Settles O20: a command fault changes the response only; of the registers, each instruction's completed state
differs in its own column of the table. -/
theorem commandsWriteOnlyTheirRegisters : Obligations.CommandsWriteOnlyTheirRegisters := by
  intro i s t h
  rcases exec_cases h with ⟨code, rfl⟩ | ⟨-, rfl⟩
  · simp
  · cases i with
    | process len =>
      obtain ⟨p, _, _, _, _, hframe, hphase⟩ := completed_process_frame len s
      rw [hframe]
      have hwrites : p ≠ s.phase → 1 ≤ len ∧ s.silent = false := hphase.resolve_left
      simpa using hwrites
    | construct _ | setWaveform _ | setHarmonics _ | noteOn _ | noteOff | setDutyCycle _ | getPulseWaveformData =>
      simp [completed]

/-! ### The access table, read (R33, R120) -/

/-- The state with the two registers replaced that only some waveforms read. -/
def State.withShape (d : Word) (h : List Word) (s : State) : State := { s with dutyCycle := d, harm := h }

/-- The waveform's value is the same with either pair of registers, at every site and phase. -/
def ShapeUnread (d : Word) (h : List Word) (s : State) : Prop :=
  ∀ k p, waveValue s.fmt k s.waveform p d h = waveValue s.fmt k s.waveform p s.dutyCycle s.harm

theorem shapeUnread_dutyCycle {s : State} (hsq : s.waveform ≠ .square) (hpu : s.waveform ≠ .pulse) (d : Word) :
    ShapeUnread d s.harm s := by
  intro k p
  cases hw : s.waveform with
  | square => exact absurd hw hsq
  | pulse => exact absurd hw hpu
  | sine | sawtooth | triangle | additive => rfl

theorem shapeUnread_harm {s : State} (hw : s.waveform ≠ .additive) (h : List Word) :
    ShapeUnread s.dutyCycle h s := by
  intro k p
  cases hk : s.waveform with
  | additive => exact absurd hk hw
  | sine | square | sawtooth | triangle | pulse => rfl

/-- A run gives the same samples and ends in the same state, but for the registers no sample reads. -/
theorem sampleRun_withShape {d : Word} {h : List Word} (n : Nat) {s : State} (hs : ShapeUnread d h s) :
    sampleRun n (s.withShape d h) = ((sampleRun n s).1, (sampleRun n s).2.withShape d h) := by
  induction n generalizing s with
  | zero => rfl
  | succ n ih =>
    have hvalue : (s.withShape d h).sampleValue = s.sampleValue := hs _ _
    have hnext : (s.withShape d h).advance (s.withShape d h).nextPhase =
        (s.advance s.nextPhase).withShape d h := rfl
    rw [sampleRun_succ, sampleRun_succ, hvalue, hnext, ih (s := s.advance s.nextPhase) hs]

theorem completed_process_withShape {d : Word} {h : List Word} (len : Nat) {s : State}
    (hs : ShapeUnread d h s) :
    completed (.process len) (s.withShape d h) = (completed (.process len) s).withShape d h := by
  have hsilent : (s.withShape d h).silent = s.silent := rfl
  cases hq : s.silent with
  | true =>
    rw [completed_process_silent hq, completed_process_silent (hsilent.trans hq)]
    rfl
  | false =>
    have hload : (s.withShape d h).loadLatches (s.withShape d h).increment =
        (s.loadLatches s.increment).withShape d h := rfl
    rw [completed_process_sounding hq, completed_process_sounding (hsilent.trans hq), hload,
      sampleRun_withShape len (s := s.loadLatches s.increment) hs]
    rfl

/-- What `process` answers, and the PHASE it leaves, do not depend on registers its waveform does not read. -/
theorem exec_process_withShape {d : Word} {h : List Word} {len : Nat} {s t : State}
    (ht : exec (.process len) s = .next t) (hs : ShapeUnread d h s) :
    ∃ u, exec (.process len) (s.withShape d h) = .next u ∧ u.response = t.response ∧ u.phase = t.phase := by
  obtain ⟨u, hu, hcase⟩ := exec_pair ht (u := s.withShape d h) rfl rfl
  refine ⟨u, hu, ?_⟩
  rcases hcase with ⟨code, rfl, rfl⟩ | ⟨rfl, rfl⟩
  · exact ⟨rfl, rfl⟩
  · rw [completed_process_withShape len hs]
    exact ⟨rfl, rfl⟩

/-- Settles O37: the silence path answers zeros whatever the registers hold, and a sample reads only its waveform's
registers. -/
theorem processReadsOnlyItsPath : Obligations.ProcessReadsOnlyItsPath := by
  intro len s w p d sr h
  obtain ⟨t, ht⟩ := exec_next (.process len) s
  refine ⟨t, ht, fun hs => ?_, fun hsq hpu => exec_process_withShape ht (shapeUnread_dutyCycle hsq hpu d),
    fun hw => exec_process_withShape ht (shapeUnread_harm hw h)⟩
  have hs' : State.silent { s with waveform := w, phase := p, dutyCycle := d, sampleRate := sr, harm := h } =
      true := hs
  obtain ⟨u, hu, hcase⟩ := exec_pair ht
    (u := { s with waveform := w, phase := p, dutyCycle := d, sampleRate := sr, harm := h }) rfl rfl
  refine ⟨u, hu, ?_⟩
  rcases hcase with ⟨code, rfl, rfl⟩ | ⟨rfl, rfl⟩
  · rfl
  · rw [completed_process_silent hs, completed_process_silent hs']
    rfl

end Sys2Proof.Machine
end

section
/-! The command port (R46, R47, R60): a step is one command run on the state left when it is taken, it is answered
whatever it meets, and nothing of it depends on the commands that wait behind it. -/

namespace Sys2Proof.Machine

/-! ### A step runs the command it takes -/

/-- The port's wires carry all of a well-formed command (R60, R62). -/
theorem onPort_of_wellFormed {f : Fmt} {c : Command} (h : c.wellFormed f = true) : onPort f c = c := by
  rw [Command.wellFormed, Bool.and_eq_true, List.all_eq_true] at h
  obtain ⟨harg, hseq⟩ := h
  have hmap : c.seq.map f.clip = c.seq :=
    (List.map_congr_left fun w hw => clip_of_fits (hseq w hw)).trans (List.map_id _)
  rw [onPort, clip_of_fits harg, hmap]

theorem runCommand_ok {c : Command} {i : Instr} (h : decode c = .ok i) (s : State) :
    runCommand c s = exec i s := by rw [runCommand, h]

theorem runCommand_error {c : Command} {e : Illegal} (h : decode c = .error e) (s : State) :
    runCommand c s = .next (s.raise .illegalCommand) := by rw [runCommand, h, illegalCommand]

theorem step_cons {s : State} {c : Command} {rest : List Command} (h : s.port = c :: rest) :
    step s = runCommand (onPort s.fmt c) (s.setPort rest) := by rw [step, takeCommand_cons h]

theorem step_idle {s : State} (h : s.port = []) : step s = .next s := by rw [step, takeCommand_nil h]

/-- Settles O7: a well-formed command passes the port whole, and a step runs what the port carries. -/
theorem stepRunsDecodedCommand : Obligations.StepRunsDecodedCommand := by
  refine ⟨fun s c rest hport hwf => ?_, fun _ => step_idle⟩
  have hwhole := onPort_of_wellFormed hwf
  have hstep := step_cons hport
  rw [hwhole] at hstep
  refine ⟨hwhole, fun i hdec => ⟨?_, hstep.trans (runCommand_ok hdec _)⟩,
    fun e hdec => hstep.trans (runCommand_error hdec _)⟩
  rw [← hwhole] at hdec
  exact decode_onPort_wellFormed hdec

/-! ### Every command is answered (R60) -/

theorem completed_answers (i : Instr) (s : State) :
    ∃ data, (completed i s).response = some { status := .ok, data := data } := by
  cases i with
  | process len =>
    cases h : s.silent with
    | true =>
      rw [completed_process_silent h]
      exact ⟨_, rfl⟩
    | false =>
      rw [completed_process_sounding h]
      exact ⟨_, rfl⟩
  | construct _ | setWaveform _ | setHarmonics _ | noteOn _ | noteOff | setDutyCycle _ | getPulseWaveformData =>
    exact ⟨_, rfl⟩

theorem exec_answers {i : Instr} {s t : State} (h : exec i s = .next t) : ∃ r, t.response = some r := by
  rcases exec_cases h with ⟨code, rfl⟩ | ⟨-, rfl⟩
  · exact ⟨_, rfl⟩
  · obtain ⟨data, hdata⟩ := completed_answers i s
    exact ⟨_, hdata⟩

/-- A command, legal or not, ends in a next state with a response, and writes neither the port nor the parameters. -/
theorem runCommand_answers (c : Command) (s : State) :
    ∃ t r, runCommand c s = .next t ∧ t.response = some r ∧ t.port = s.port ∧ t.params = s.params := by
  cases hdec : decode c with
  | error e => exact ⟨_, _, runCommand_error hdec s, rfl, rfl, rfl⟩
  | ok i =>
    obtain ⟨t, ht⟩ := exec_next i s
    obtain ⟨r, hr⟩ := exec_answers ht
    obtain ⟨hparams, hport, -⟩ := commandsWriteOnlyTheirRegisters i s t ht
    exact ⟨t, r, (runCommand_ok hdec s).trans ht, hr, hport, hparams⟩

/-- Settles O8: taking a command leaves the rest on the port, and running it ends in an answer. -/
theorem everyCommandAnswered : Obligations.EveryCommandAnswered := by
  intro s c rest hport
  rw [step_cons hport]
  exact runCommand_answers _ (s.setPort rest)

/-! ### Commands behind do not interfere (R47, R187) -/

theorem sampleRun_setPort (q : List Command) (n : Nat) (s : State) :
    sampleRun n (s.setPort q) = ((sampleRun n s).1, (sampleRun n s).2.setPort q) := by
  induction n generalizing s with
  | zero => rfl
  | succ n ih =>
    have hvalue : (s.setPort q).sampleValue = s.sampleValue := rfl
    have hnext : (s.setPort q).advance (s.setPort q).nextPhase = (s.advance s.nextPhase).setPort q := rfl
    rw [sampleRun_succ, sampleRun_succ, hvalue, hnext, ih]

theorem completed_setPort (i : Instr) (q : List Command) (s : State) :
    completed i (s.setPort q) = (completed i s).setPort q := by
  cases i with
  | process len =>
    have hsilent : (s.setPort q).silent = s.silent := rfl
    cases h : s.silent with
    | true =>
      rw [completed_process_silent h, completed_process_silent (hsilent.trans h)]
      rfl
    | false =>
      have hload : (s.setPort q).loadLatches (s.setPort q).increment =
          (s.loadLatches s.increment).setPort q := rfl
      rw [completed_process_sounding h, completed_process_sounding (hsilent.trans h), hload, sampleRun_setPort]
      rfl
  | construct _ | setWaveform _ | setHarmonics _ | noteOn _ | noteOff | setDutyCycle _ | getPulseWaveformData => rfl

theorem exec_setPort {i : Instr} {s t : State} (h : exec i s = .next t) (q : List Command) :
    exec i (s.setPort q) = .next (t.setPort q) := by
  obtain ⟨v, hv, hcase⟩ := exec_pair h (u := s.setPort q) rfl rfl
  rcases hcase with ⟨code, rfl, rfl⟩ | ⟨rfl, rfl⟩
  · exact hv
  · rw [hv, completed_setPort]

theorem runCommand_setPort {c : Command} {s t : State} (h : runCommand c s = .next t) (q : List Command) :
    runCommand c (s.setPort q) = .next (t.setPort q) := by
  cases hdec : decode c with
  | error e =>
    rw [runCommand_error hdec] at h ⊢
    injection h with h
    rw [← h]
    rfl
  | ok i =>
    rw [runCommand_ok hdec] at h ⊢
    exact exec_setPort h q

/-- Settles O9: the step takes the same command with or without others behind it, and running it neither reads nor
writes the port. -/
theorem laterCommandsDoNotInterfere : Obligations.LaterCommandsDoNotInterfere := by
  intro s t later hne h
  obtain ⟨c, rest, hport⟩ := List.exists_cons_of_ne_nil hne
  rw [step_cons hport] at h
  have hrest : t.port = rest := by
    obtain ⟨u, _, hu, -, hkept, -⟩ := runCommand_answers (onPort s.fmt c) (s.setPort rest)
    rw [h] at hu
    injection hu with hu
    rw [hu, hkept, State.setPort_port]
  have hlater : (s.setPort (s.port ++ later)).port = c :: (rest ++ later) := by
    rw [State.setPort_port, hport, List.cons_append]
  rw [step_cons hlater, hrest]
  exact runCommand_setPort h (rest ++ later)

/-! ### A mutator repeated (R46) -/

/-- The same instruction, run again where it ended, raises the same fault or completes again. -/
theorem exec_again {i : Instr} {s t : State} (h : exec i s = .next t) :
    ∃ u, exec i t = .next u ∧
      ((∃ code, t = s.raise code ∧ u = t.raise code) ∨ (t = completed i s ∧ u = completed i t)) := by
  obtain ⟨hparams, -, hwrites, -⟩ := commandsWriteOnlyTheirRegisters i s t h
  by_cases hcon : t.constructed = s.constructed
  · exact exec_pair h hcon hparams
  · obtain ⟨sr, rfl⟩ := hwrites hcon
    rw [exec_construct] at h
    injection h with h
    exact ⟨_, exec_construct sr t, .inr ⟨h.symm, rfl⟩⟩

/-- A mutator writes its operands or constants, whatever the registers held before. -/
theorem completed_completed {i : Instr} (hprocess : ∀ len, i ≠ .process len) (hpreview : i ≠ .getPulseWaveformData)
    (s : State) :
    (completed i (completed i s)).registers = (completed i s).registers ∧
      (completed i (completed i s)).response = (completed i s).response := by
  cases i with
  | process len => exact absurd rfl (hprocess len)
  | getPulseWaveformData => exact absurd rfl hpreview
  | construct _ | setWaveform _ | setHarmonics _ | noteOn _ | noteOff | setDutyCycle _ => exact ⟨rfl, rfl⟩

/-- Settles O19: a faulted mutator faults again and changes no register, and a completed one completes again with the
same writes. -/
theorem mutatorsAreIdempotent : Obligations.MutatorsAreIdempotent := by
  intro i s t hprocess hpreview h
  obtain ⟨u, hu, hcase⟩ := exec_again h
  refine ⟨u, hu, ?_⟩
  rcases hcase with ⟨code, rfl, rfl⟩ | ⟨rfl, rfl⟩
  · exact ⟨rfl, rfl⟩
  · exact completed_completed hprocess hpreview s

end Sys2Proof.Machine
end

section
/-! The preview as a function of DUTY_CYCLE (R43, R170): the draws' sites and the other registers do not enter it. -/

namespace Sys2Proof.Machine

section
variable {f : Fmt} {k k' : DrawSite}

theorem coefficient_sameDatum (n : Nat) (d : Word) :
    sameDatum f (coefficient f k n d) (coefficient f k' n d) := by
  have hrefl := sameDatum_refl f
  exact fdiv_sameDatum
    (fmul_sameDatum (hrefl _) (sinF_sameDatum (fmul_sameDatum (fmul_sameDatum (hrefl _) (hrefl _)) (hrefl _))))
    (fmul_sameDatum (hrefl _) (hrefl _))

theorem previewValue_sameDatum (d : Word) (n : Nat) :
    sameDatum f (previewValue f k d n) (previewValue f k' d n) :=
  sameDatum_ite (sameDatum_refl _ _) (coefficient_sameDatum n d)

theorem previewVector_sameData (d : Word) : sameData f (previewVector f k d) (previewVector f k' d) := by
  rw [sameData, previewVector, previewVector, List.forall₂_map_left_iff, List.forall₂_map_right_iff,
    List.forall₂_same]
  exact fun n _ => previewValue_sameDatum d n

end

theorem exec_preview {s : State} (h : s.constructed = true) :
    exec .getPulseWaveformData s =
      .next (s.takeDraws.answer (previewVector s.fmt s.site s.dutyCycle)) := exec_completes h rfl

/-- Settles O55: both previews are the vector of the same format and duty cycle, drawn at different sites. -/
theorem previewDependsOnDutyCycleOnly : Obligations.PreviewDependsOnDutyCycleOnly := by
  intro s s' t t' hs hs' hfmt hduty ht ht'
  rw [exec_preview hs] at ht
  rw [exec_preview hs', ← hfmt, ← hduty] at ht'
  injection ht with ht
  injection ht' with ht'
  rw [← ht, ← ht']
  exact ⟨_, _, rfl, rfl, previewVector_sameData s.dutyCycle⟩

end Sys2Proof.Machine
end

section
/-! Bytes of a binding that serialises (R44): where each byte of a number stands, and that the bytes hold it whole. -/

namespace Sys2Proof.Machine

/-! ### The bytes of a number -/

theorem bytesLow_length (n v : Nat) : (bytesLow n v).length = n := by
  induction n generalizing v with
  | zero => rfl
  | succ n ih => rw [bytesLow, List.length_cons, ih]

theorem bytesLow_getElem? {n i : Nat} (h : i < n) (v : Nat) :
    (bytesLow n v)[i]? = some (BitVec.ofNat 8 (v / 256 ^ i)) := by
  induction n generalizing i v with
  | zero => exact absurd h (Nat.not_lt_zero i)
  | succ n ih =>
    rw [bytesLow]
    cases i with
    | zero => simp
    | succ i => rw [List.getElem?_cons_succ, ih (Nat.lt_of_succ_lt_succ h), Nat.div_div_eq_div_mul, pow_succ']

/-- `n` bytes hold a number modulo `256 ^ n`. -/
theorem ofBytesLow_bytesLow (n v : Nat) : ofBytesLow (bytesLow n v) = v % 256 ^ n := by
  induction n generalizing v with
  | zero => simp [bytesLow, ofBytesLow, Nat.mod_one]
  | succ n ih => rw [bytesLow, ofBytesLow, ih, BitVec.toNat_ofNat, pow_succ' 256, Nat.mod_mul]

/-! ### Either byte order -/

theorem serialise_big (n v : Nat) : serialise .big n v = (serialise .little n v).reverse := rfl

theorem serialise_length (o : ByteOrder) (n v : Nat) : (serialise o n v).length = n := by
  cases o with
  | little => exact bytesLow_length n v
  | big => exact List.length_reverse.trans (bytesLow_length n v)

theorem deserialise_serialise (o : ByteOrder) (n v : Nat) : deserialise o (serialise o n v) = v % 256 ^ n := by
  cases o with
  | little => exact ofBytesLow_bytesLow n v
  | big => rw [serialise, deserialise, List.reverse_reverse, ofBytesLow_bytesLow]

/-! ### Values and command words -/

/-- A bit pattern of FMT is as wide as the bytes of one element (R45, R80). -/
theorem pow_elementBytes (f : Fmt) : 256 ^ elementBytes f = 2 ^ f.width := by cases f <;> rfl

theorem valueOfBytes_valueBytes {p : Params} {w : Word} (h : p.fmt.fits w = true) :
    valueOfBytes p (valueBytes p w) = some w := by
  have hlt : w.toNat < 2 ^ p.fmt.width := of_decide_eq_true h
  rw [valueOfBytes, valueBytes, if_pos (serialise_length _ _ _), deserialise_serialise, pow_elementBytes,
    Nat.mod_eq_of_lt hlt, BitVec.ofNat_toNat, BitVec.setWidth_eq]

theorem wordOfBytes_wordBytes (p : Params) (cw : CmdWord) : wordOfBytes p (wordBytes p cw) = some cw := by
  have hlt : cw.toNat < 256 ^ 4 := cw.isLt
  rw [wordOfBytes, wordBytes, if_pos (serialise_length _ _ _), deserialise_serialise, Nat.mod_eq_of_lt hlt,
    BitVec.ofNat_toNat, BitVec.setWidth_eq]

/-- Settles O6: `n` bytes hold every number below `256 ^ n` in either order, and a value or a command word is one. -/
theorem serialisedDataReadBack : Obligations.SerialisedDataReadBack :=
  ⟨rfl, fun _ v _ h => bytesLow_getElem? h v,
    fun n v => ⟨serialise_length .little n v, serialise_big n v⟩,
    fun p => ⟨fun _ => ⟨rfl, valueOfBytes_valueBytes⟩, fun cw => ⟨rfl, wordOfBytes_wordBytes p cw⟩⟩⟩

end Sys2Proof.Machine
end

section
/-! Command words (R61 to R66): a word is its three fields, and decoding is reading them against the fields of each
instruction's own word. -/

namespace Sys2Proof.Machine

/-! ### Fields -/

/-- A word is its fields (R61). -/
theorem cmdWord_ext {cw cw' : CmdWord} (hop : opField cw = opField cw') (hwf : wfField cw = wfField cw')
    (hrsv : rsvField cw = rsvField cw') : cw = cw' := by
  have hop := congrArg BitVec.toNat hop
  have hwf := congrArg BitVec.toNat hwf
  have hrsv := congrArg BitVec.toNat hrsv
  rw [opField_toNat, opField_toNat] at hop
  rw [wfField_toNat, wfField_toNat] at hwf
  rw [rsvField_toNat, rsvField_toNat] at hrsv
  apply BitVec.eq_of_toNat_eq
  omega

theorem opField_and (a b : CmdWord) : opField (a &&& b) = opField a &&& opField b := BitVec.extractLsb'_and

theorem wfField_and (a b : CmdWord) : wfField (a &&& b) = wfField a &&& wfField b := BitVec.extractLsb'_and

theorem rsvField_and (a b : CmdWord) : rsvField (a &&& b) = rsvField a &&& rsvField b := BitVec.extractLsb'_and

/-- The codes up to 5 are those of the six waveforms (R65). -/
theorem exists_code_eq {c : BitVec 3} (h : c.toNat ≤ 5) : ∃ kind : Waveform, kind.code = c := by
  have hsome : ∀ c : BitVec 3, c.toNat ≤ 5 → (Waveform.ofCode c).isSome = true := by decide
  obtain ⟨kind, hkind⟩ := Option.isSome_iff_exists.1 (hsome c h)
  exact ⟨kind, code_of_ofCode hkind⟩

/-! ### The decoder and the encoder (R62, R64) -/

open Laws.WordFields (opcodeOf waveformBits)

/-- Every instruction's word has the fields of R61 and R63. -/
theorem encodeWord_fields : ∀ i, Laws.WordFields.Statement i
  | .construct sr => Laws.WordFields.construct sr
  | .setWaveform kind => Laws.WordFields.setWaveform kind
  | .setHarmonics amplitudes => Laws.WordFields.setHarmonics amplitudes
  | .noteOn frequency => Laws.WordFields.noteOn frequency
  | .noteOff => Laws.WordFields.noteOff
  | .setDutyCycle value => Laws.WordFields.setDutyCycle value
  | .process len => Laws.WordFields.process len
  | .getPulseWaveformData => Laws.WordFields.getPulseWaveformData

theorem operandsFrom_encode (i : Instr) : operandsFrom (encode i) i := by
  cases i with
  | setWaveform kind =>
    obtain ⟨-, hwf, -⟩ := encodeWord_fields (.setWaveform kind)
    rw [operandsFrom, ← wfField_toNat]
    exact congrArg BitVec.toNat hwf.symm
  | construct _ | setHarmonics _ | noteOn _ | setDutyCycle _ | process _ => rfl
  | noteOff | getPulseWaveformData => trivial

theorem plainCommand_eq_ok {cw : CmdWord} {i j : Instr} : plainCommand cw j = .ok i ↔ wfField cw = 0 ∧ j = i := by
  rw [plainCommand]
  split <;> simp_all

theorem waveformCommand_eq_ok {cw : CmdWord} {i : Instr} :
    waveformCommand cw = .ok i ↔ ∃ kind : Waveform, wfField cw = kind.code ∧ .setWaveform kind = i := by
  constructor
  · intro h
    obtain ⟨kind, hkind, rfl⟩ := waveformCommand_ok h
    exact ⟨kind, (code_of_ofCode hkind).symm, rfl⟩
  · rintro ⟨kind, hkind, rfl⟩
    rw [waveformCommand, hkind, ofCode_code]

/-- `Decode` of R64 said once: the instructions a command decodes to are those whose word has the command word's
fields and whose operands are the port's. -/
theorem decode_eq_ok_iff {c : Command} {i : Instr} :
    decode c = .ok i ↔ (opField c.cw).toNat = opcodeOf i ∧ wfField c.cw = waveformBits i ∧
      rsvField c.cw = 0 ∧ operandsFrom c i := by
  constructor
  · intro h
    have ho := decode_operandsFrom h
    unfold decode at h
    split at h
    · cases h
    · rename_i hrsv
      rw [not_not] at hrsv
      split at h
      case h_2 hop =>
        obtain ⟨kind, hwf, rfl⟩ := waveformCommand_eq_ok.1 h
        exact ⟨hop, hwf, hrsv, ho⟩
      case h_9 => cases h
      all_goals
        rename_i hop
        obtain ⟨hwf, rfl⟩ := plainCommand_eq_ok.1 h
        exact ⟨hop, hwf, hrsv, ho⟩
  · rintro ⟨hop, hwf, hrsv, ho⟩
    rw [decode, if_neg (not_not.2 hrsv), hop]
    cases i with
    | setWaveform kind => exact waveformCommand_eq_ok.2 ⟨kind, hwf, rfl⟩
    | construct _ | setHarmonics _ | noteOn _ | setDutyCycle _ | process _ =>
      exact plainCommand_eq_ok.2 ⟨hwf, by rw [ho]⟩
    | noteOff | getPulseWaveformData => exact plainCommand_eq_ok.2 ⟨hwf, rfl⟩

theorem decode_encode (i : Instr) : decode (encode i) = .ok i := by
  obtain ⟨hop, hwf, hrsv⟩ := encodeWord_fields i
  exact decode_eq_ok_iff.2 ⟨hop, hwf, hrsv, operandsFrom_encode i⟩

/-- A word that decodes to an instruction has the three fields of that instruction's word (R63). -/
theorem cw_eq_encodeWord {c : Command} {i : Instr} (h : decode c = .ok i) : c.cw = encodeWord i := by
  obtain ⟨hop, hwf, hrsv, -⟩ := decode_eq_ok_iff.1 h
  obtain ⟨hop', hwf', hrsv'⟩ := encodeWord_fields i
  exact cmdWord_ext (BitVec.eq_of_toNat_eq (hop.trans hop'.symm)) (hwf.trans hwf'.symm) (hrsv.trans hrsv'.symm)

/-- Settles O1: both directions read the three fields of a word against those of the instruction's own word. -/
theorem decodeAndEncodeAgree : Obligations.DecodeAndEncodeAgree :=
  ⟨decode_encode, fun _ _ h => ⟨cw_eq_encodeWord h, decode_operandsFrom h⟩⟩

/-- Settles O4: the legal words are encodings, written out; the others are refused on the first field that is wrong. -/
theorem writtenWordsDecode : Obligations.WrittenWordsDecode :=
  ⟨decode_encode (.construct _), decode_encode (.setWaveform .sine), decode_encode (.setWaveform .square),
    decode_encode (.setWaveform .sawtooth), decode_encode (.setWaveform .triangle),
    decode_encode (.setWaveform .additive), decode_encode (.setWaveform .pulse), decode_encode (.setHarmonics _),
    decode_encode (.noteOn _), decode_encode .noteOff, decode_encode (.setDutyCycle _), decode_encode (.process _),
    decode_encode .getPulseWaveformData, by decide⟩

/-! ### The match and mask table (R63) -/

/-- What the eight rows have in common: the word of a row is its opcode alone, and its mask leaves out the waveform
field of `set_waveform` and nothing else. -/
theorem opcodeTable_fields : ∀ r ∈ opcodeTable,
    (opField r.mask = BitVec.allOnes 8 ∧
        wfField r.mask = (if r.mnemonic = "set_waveform" then 0 else BitVec.allOnes 3) ∧
        rsvField r.mask = BitVec.allOnes 21) ∧
      wfField r.pattern = 0 ∧ rsvField r.pattern = 0 := by decide

theorem row_eq_of_opField : ∀ r ∈ opcodeTable, ∀ r' ∈ opcodeTable,
    opField r.pattern = opField r'.pattern → r = r' := by decide

/-- A row accepts the words of its opcode with `RSV` zero and, but for `set_waveform`, `WF` zero. -/
theorem accepts_iff {r : OpcodeRow} (hr : r ∈ opcodeTable) (cw : CmdWord) :
    r.accepts cw = true ↔ opField cw = opField r.pattern ∧
      (r.mnemonic = "set_waveform" ∨ wfField cw = 0) ∧ rsvField cw = 0 := by
  obtain ⟨⟨hop, hwf, hrsv⟩, hpwf, hprsv⟩ := opcodeTable_fields r hr
  have hword : r.accepts cw = true ↔ opField (cw &&& r.mask) = opField r.pattern ∧
      wfField (cw &&& r.mask) = wfField r.pattern ∧ rsvField (cw &&& r.mask) = rsvField r.pattern := by
    rw [OpcodeRow.accepts, beq_iff_eq]
    exact ⟨fun h => by rw [h]; exact ⟨rfl, rfl, rfl⟩, fun ⟨h₁, h₂, h₃⟩ => cmdWord_ext h₁ h₂ h₃⟩
  rw [hword, opField_and, wfField_and, rsvField_and, hop, hwf, hrsv, hpwf, hprsv, BitVec.and_allOnes,
    BitVec.and_allOnes]
  by_cases hname : r.mnemonic = "set_waveform"
  · simp [hname]
  · rw [if_neg hname, BitVec.and_allOnes]
    simp [hname]

/-- Every instruction has a row: its mnemonic and its opcode. -/
theorem exists_row (i : Instr) : ∃ r ∈ opcodeTable, r.mnemonic = mnemonicOf i ∧
    (opField r.pattern).toNat = opcodeOf i := by
  cases i <;> simp only [mnemonicOf, opcodeOf] <;> decide

/-- Every row has its instruction, with the operands of the port (R62). -/
theorem exists_instr_of_row {r : OpcodeRow} (hr : r ∈ opcodeTable) {c : Command}
    (hwf : r.mnemonic = "set_waveform" ∨ wfField c.cw = 0)
    (hcode : r.mnemonic = "set_waveform" → (wfField c.cw).toNat ≤ 5) :
    ∃ i, mnemonicOf i = r.mnemonic ∧ opcodeOf i = (opField r.pattern).toNat ∧ waveformBits i = wfField c.cw ∧
      operandsFrom c i := by
  have hplain : r.mnemonic ≠ "set_waveform" → 0 = wfField c.cw := fun hne => (hwf.resolve_left hne).symm
  simp only [opcodeTable, List.mem_cons, List.not_mem_nil, or_false] at hr
  rcases hr with rfl | rfl | rfl | rfl | rfl | rfl | rfl | rfl
  · exact ⟨.construct c.arg, rfl, rfl, hplain (by decide), rfl⟩
  · obtain ⟨kind, hkind⟩ := exists_code_eq (hcode rfl)
    exact ⟨.setWaveform kind, rfl, rfl, hkind, by rw [operandsFrom, hkind, wfField_toNat]⟩
  · exact ⟨.setHarmonics c.seq, rfl, rfl, hplain (by decide), rfl⟩
  · exact ⟨.noteOn c.arg, rfl, rfl, hplain (by decide), rfl⟩
  · exact ⟨.noteOff, rfl, rfl, hplain (by decide), trivial⟩
  · exact ⟨.setDutyCycle c.arg, rfl, rfl, hplain (by decide), rfl⟩
  · exact ⟨.process c.len, rfl, rfl, hplain (by decide), rfl⟩
  · exact ⟨.getPulseWaveformData, rfl, rfl, hplain (by decide), trivial⟩

/-- Settles O3: a row and its instruction have one opcode, and no two rows do. -/
theorem opcodeTableDecidesDecoding : Obligations.OpcodeTableDecidesDecoding := by
  refine ⟨rfl, fun c => ⟨fun i h => ?_, fun r hr hacc hcode => ?_⟩⟩
  · obtain ⟨hop, hwf, hrsv, -⟩ := decode_eq_ok_iff.1 h
    obtain ⟨r, hr, hname, hrow⟩ := exists_row i
    have hopr : opField c.cw = opField r.pattern := BitVec.eq_of_toNat_eq (hop.trans hrow.symm)
    have hplain : r.mnemonic = "set_waveform" ∨ wfField c.cw = 0 := by
      rw [hname, hwf]
      cases i <;> simp [mnemonicOf, waveformBits]
    refine ⟨r, hr, (accepts_iff hr _).2 ⟨hopr, hplain, hrsv⟩, hname, fun r' hr' hacc' => ?_⟩
    exact row_eq_of_opField r' hr' r hr (((accepts_iff hr' _).1 hacc').1.symm.trans hopr)
  · obtain ⟨hop, hwf, hrsv⟩ := (accepts_iff hr _).1 hacc
    rw [← wfField_toNat] at hcode
    obtain ⟨i, hname, hopi, hwfi, ho⟩ := exists_instr_of_row hr hwf hcode
    exact ⟨i, decode_eq_ok_iff.2 ⟨by rw [hop, hopi], hwfi.symm, hrsv, ho⟩, hname⟩

end Sys2Proof.Machine
end

section
/-! Rounding to nearest, ties to even (R81): no value of FMT is nearer than the rounded one, and a tie goes to the even
significand. -/

namespace Sys2Proof.Machine

variable {f : Fmt} {n d : Nat}

/-- No whole number is nearer to `n / d` than the rounded one, which is even where another is as near. -/
theorem roundToEven_nearest (hd : 0 < d) (c : Nat) :
    |(roundToEven n d * d : Int) - n| ≤ |(c * d : Int) - n| ∧
      (|(roundToEven n d * d : Int) - n| = |(c * d : Int) - n| → c ≠ roundToEven n d → roundToEven n d % 2 = 0) := by
  have hdm : ((n / d : Nat) : Int) * d + (n % d : Nat) = n := by exact_mod_cast Nat.div_add_mod' n d
  have hr : n % d < d := Nat.mod_lt n hd
  have hmul {a b : Nat} (h : a ≤ b) : (a : Int) * d ≤ b * d := by exact_mod_cast Nat.mul_le_mul_right d h
  -- `c` on either side of the quotient, beside it or further off
  have hbelow : c ≤ n / d → _ := hmul
  have hbelow' : c + 1 ≤ n / d → _ := hmul
  have habove : n / d + 1 ≤ c → _ := hmul
  have habove' : n / d + 2 ≤ c → _ := hmul
  simp only [Nat.cast_add, Nat.cast_one, Nat.cast_ofNat, Int.add_mul] at hbelow' habove habove'
  rw [Int.abs_eq_natAbs, Int.abs_eq_natAbs]
  unfold roundToEven
  dsimp only
  split_ifs with hup
  · rw [Nat.cast_add, Int.add_mul]
    omega
  · omega

/-- From a significand's place on, every value is a whole number of those places. -/
theorem dvd_bitsMagnitude {m e : Nat} (h : 2 ^ f.fracBits * 2 ^ e ≤ bitsMagnitude f m) :
    2 ^ e ∣ bitsMagnitude f m := by
  obtain ⟨h1, -⟩ := fmt_layout f
  have hf : m % 2 ^ f.fracBits < 2 ^ f.fracBits := Nat.mod_lt _ h1
  rw [bitsMagnitude] at h ⊢
  split_ifs at h ⊢ with he
  · have := Nat.le_mul_of_pos_right (2 ^ f.fracBits) (Nat.two_pow_pos e)
    omega
  · refine (pow_dvd_pow 2 ?_).mul_left _
    by_contra hlt
    have hpow : 2 * 2 ^ (m / 2 ^ f.fracBits - 1) ≤ 2 ^ e := by
      rw [← pow_succ']
      exact Nat.pow_le_pow_right (by decide) (by omega)
    have hbig := Nat.mul_le_mul_left (2 ^ f.fracBits) hpow
    have hsmall := Nat.mul_lt_mul_of_pos_right hf (Nat.two_pow_pos (m / 2 ^ f.fracBits - 1))
    linarith

/-- The bound itself is a tie, and goes up to the even significand: evaluated in each of the two formats. -/
theorem roundBits_overflowBound (f : Fmt) : roundBits f (overflowBound f) 1 = infBits f := by
  cases f <;> decide +kernel

theorem two_dvd_pow_fracBits (f : Fmt) : 2 ∣ 2 ^ f.fracBits := dvd_pow_self 2 (by cases f <;> decide)

/-- A finite rounding is the significand nearest in the binade of the exact value. -/
theorem roundBits_significand (hd : 0 < d) (hfin : roundBits f n d < infBits f) :
    ∃ k, roundBits f n d = k * 2 ^ f.fracBits + roundToEven n (d * 2 ^ k) ∧
      bitsMagnitude f (roundBits f n d) = roundToEven n (d * 2 ^ k) * 2 ^ k ∧
      (k = 0 ∨ 2 ^ f.fracBits * (d * 2 ^ k) ≤ n) := by
  obtain ⟨k, hk⟩ : ∃ k, k = Nat.log2 (n / d) - f.fracBits := ⟨_, rfl⟩
  obtain ⟨hub, hlb⟩ := roundBits_binade hd hk
  have hbits : roundBits f n d = k * 2 ^ f.fracBits + roundToEven n (d * 2 ^ k) := by
    have hmin : roundBits f n d = min (k * 2 ^ f.fracBits + roundToEven n (d * 2 ^ k)) (infBits f) := by
      rw [roundBits, ← hk]
    omega
  have hlow : k = 0 ∨ 2 ^ f.fracBits * (d * 2 ^ k) ≤ n := k.eq_zero_or_pos.imp_right hlb
  refine ⟨k, hbits, ?_, hlow⟩
  have hle : roundToEven n (d * 2 ^ k) ≤ 2 ^ (f.fracBits + 1) := roundToEven_le (by positivity) hub.le
  rw [hbits]
  rcases hle.lt_or_eq with hlt | hcarry
  · exact bitsMagnitude_binade hlt (hlow.imp_right (le_roundToEven (by positivity)))
  · rw [hcarry, show k * 2 ^ f.fracBits + 2 ^ (f.fracBits + 1) = (k + 1) * 2 ^ f.fracBits + 2 ^ f.fracBits by ring,
      bitsMagnitude_binade (Nat.pow_lt_pow_right (by decide) (by omega)) (.inr le_rfl)]
    ring

/-- No magnitude of FMT is nearer to `n / d` than the rounded one, which is even where another is as near. -/
theorem roundBits_nearest (hd : 0 < d) (hfin : roundBits f n d < infBits f) (m : Nat) :
    |(bitsMagnitude f (roundBits f n d) * d : Int) - n| ≤ |(bitsMagnitude f m * d : Int) - n| ∧
      (|(bitsMagnitude f (roundBits f n d) * d : Int) - n| = |(bitsMagnitude f m * d : Int) - n| →
        bitsMagnitude f m ≠ bitsMagnitude f (roundBits f n d) → roundBits f n d % 2 = 0) := by
  obtain ⟨k, hbits, hmag, hlow⟩ := roundBits_significand hd hfin
  have hd' : 0 < d * 2 ^ k := by positivity
  have hplace (c : Nat) : ((c * 2 ^ k : Nat) : Int) * d = c * (d * 2 ^ k : Nat) := by push_cast; ring
  rw [hmag, hplace]
  by_cases hm : k = 0 ∨ 2 ^ f.fracBits * 2 ^ k ≤ bitsMagnitude f m
  · have hdvd : 2 ^ k ∣ bitsMagnitude f m := by
      rcases hm with rfl | hge
      · exact one_dvd _
      · exact dvd_bitsMagnitude hge
    obtain ⟨c, hc⟩ := exists_eq_mul_left_of_dvd hdvd
    obtain ⟨hle, htie⟩ := roundToEven_nearest (n := n) hd' c
    rw [hc, hplace]
    refine ⟨hle, fun heq hne => ?_⟩
    have heven := htie heq fun h => hne (by rw [h])
    have hfrac : 2 ∣ k * 2 ^ f.fracBits := (two_dvd_pow_fracBits f).mul_left k
    omega
  · rw [not_or, not_le] at hm
    obtain ⟨hk, hlt⟩ := hm
    have hn : 2 ^ f.fracBits * (d * 2 ^ k) ≤ n := hlow.resolve_left hk
    have hmd : bitsMagnitude f m * d < 2 ^ f.fracBits * (d * 2 ^ k) := by
      calc bitsMagnitude f m * d < 2 ^ f.fracBits * 2 ^ k * d := Nat.mul_lt_mul_of_pos_right hlt hd
        _ = 2 ^ f.fracBits * (d * 2 ^ k) := by ring
    obtain ⟨hle, -⟩ := roundToEven_nearest (n := n) hd' (2 ^ f.fracBits)
    have hstrict : |(roundToEven n (d * 2 ^ k) * (d * 2 ^ k : Nat) : Int) - n| <
        |(bitsMagnitude f m * d : Int) - n| := by
      rw [← Nat.cast_mul, Int.abs_eq_natAbs, Int.abs_eq_natAbs] at hle ⊢
      omega
    exact ⟨hstrict.le, fun heq => absurd heq hstrict.ne⟩

/-- As `roundBits_nearest`, against the values of either sign. -/
theorem roundBits_nearest_signed (hd : 0 < d) (hfin : roundBits f n d < infBits f) {m : Nat} {v : Int}
    (hv : v.natAbs = bitsMagnitude f m) :
    |(bitsMagnitude f (roundBits f n d) * d : Int) - n| ≤ |v * d - n| ∧
      (|(bitsMagnitude f (roundBits f n d) * d : Int) - n| = |v * d - n| →
        v ≠ bitsMagnitude f (roundBits f n d) → roundBits f n d % 2 = 0) := by
  obtain ⟨hle, htie⟩ := roundBits_nearest hd hfin m
  rcases Int.natAbs_eq v with hpos | hneg
  · rw [hpos, hv]
    exact ⟨hle, fun heq hne => htie heq (by exact_mod_cast hne)⟩
  · obtain ⟨hzero, -⟩ := roundBits_nearest hd hfin 0
    have hM : 0 ≤ (bitsMagnitude f m : Int) * d := by positivity
    have hsum : |v * d - n| = bitsMagnitude f m * d + n := by
      rw [hneg, hv, Int.neg_mul, Int.abs_eq_natAbs]
      omega
    rw [show bitsMagnitude f 0 = 0 by simp [bitsMagnitude]] at hzero
    rw [hsum]
    simp only [Int.abs_eq_natAbs] at hle htie hzero ⊢
    refine ⟨by omega, fun heq hne => htie (by omega) fun h => hne ?_⟩
    have hmul : (bitsMagnitude f m : Int) * d = 0 := by omega
    have hm : bitsMagnitude f m = 0 := by
      rcases mul_eq_zero.1 hmul with h0 | h0 <;> omega
    omega

/-- A rounding is finite unless it runs into the bits of an infinity. -/
theorem roundTo_isFinite_iff (f : Fmt) (neg : Bool) (n d : Nat) :
    isFinite f (roundTo f neg n d) = true ↔ roundBits f n d < infBits f := by
  refine ⟨fun h => lt_of_le_of_ne (roundBits_le f n d) fun hinf => ?_, roundTo_isFinite⟩
  rw [roundTo, hinf] at h
  exact absurd (infOf_isInf f neg) (by simp [infOf, not_isInf_of_isFinite h])

/-- R81: a rounding overflows from the overflow bound on. -/
theorem roundBits_lt_infBits_iff (hd : 0 < d) : roundBits f n d < infBits f ↔ n < overflowBound f * d := by
  refine ⟨fun hlt => ?_, roundBits_lt_infBits hd⟩
  by_contra hge
  have hmono := roundBits_mono (f := f) one_pos hd (n := overflowBound f) (n' := n) (by omega)
  rw [roundBits_overflowBound] at hmono
  omega

/-- A sign taken out of the distance from a signed value. -/
theorem abs_signed_sub {s : Int} (hs : s.natAbs = 1) (v d n : Int) : |v * d - s * n| = |s * v * d - n| := by
  obtain rfl | rfl := Int.natAbs_eq_iff.1 hs
  · simp
  · rw [← abs_neg]
    ring_nf

/-- `roundTo` is the one rounding of R81. -/
theorem roundTo_roundedOnce (f : Fmt) (neg : Bool) (n : Nat) (hd : 0 < d) :
    roundedOnce f ((if neg then -1 else 1) * n) d neg (roundTo f neg n d) := by
  obtain ⟨s, hsign⟩ : ∃ s : Int, s = if neg then -1 else 1 := ⟨_, rfl⟩
  have hs : s.natAbs = 1 := by subst hsign; cases neg <;> rfl
  have hself : s * scaled f (roundTo f neg n d) = bitsMagnitude f (roundBits f n d) := by
    rw [scaled_roundTo, hsign]
    cases neg <;> simp
  have hfinite := roundTo_isFinite_iff f neg n d
  have hlt := roundBits_lt_infBits_iff (f := f) (n := n) hd
  rw [← hsign]
  refine ⟨?_, fun hinf => ?_, fun hfin w _ => ?_⟩
  · rw [abs_mul, Int.abs_eq_natAbs s, hs, Nat.cast_one, one_mul, Nat.abs_cast, Nat.abs_cast, ← Bool.not_eq_true,
      hfinite, hlt, not_lt]
    exact_mod_cast Iff.rfl
  · have hnot : ¬ roundBits f n d < infBits f := by simp [← hfinite, hinf]
    rw [infOf, roundTo, le_antisymm (roundBits_le f n d) (not_lt.1 hnot)]
  · have hv : (s * scaled f w).natAbs = bitsMagnitude f (w.toNat % 2 ^ (f.fracBits + f.expBits)) := by
      rw [Int.natAbs_mul, hs, one_mul, natAbs_scaled, magnitude_eq_bits]
    obtain ⟨hle, htie⟩ := roundBits_nearest_signed hd (hfinite.1 hfin) hv
    rw [abs_signed_sub hs, abs_signed_sub hs, hself]
    refine ⟨hle, fun heq hne => ?_⟩
    rw [roundTo, packBits_fracField (roundBits_lt f n d), Nat.mod_mod_of_dvd _ (two_dvd_pow_fracBits f)]
    refine htie heq fun h => hne (mul_left_cancel₀ (a := s) ?_ (h.trans hself.symm))
    rintro rfl
    cases hs

end Sys2Proof.Machine
end

section
/-! The assembler (R67, R68, R70): what a line stands for, and the value of its literals. -/

namespace Sys2Proof.Machine

/-- Every line but `.word` assembles to its command's encoding (R67). -/
theorem assemble_eq_encode {f : Fmt} {l : AsmLine} {i : Instr} (h : instrOfLine f l = some i) :
    assemble f l = encode i := by
  cases l with
  | word _ _ _ _ => cases h
  | setWaveform kind =>
    obtain rfl := Option.some.inj h
    cases kind <;> rfl
  | construct _ | setHarmonics _ | noteOn _ | noteOff | setDutyCycle _ | process _ | getPulseWaveformData =>
    obtain rfl := Option.some.inj h
    rfl

/-- A decimal literal is its exact value rounded once (R68). -/
theorem litValue_decimal_roundedOnce (f : Fmt) (neg : Bool) (digits : Nat) (e : Int) :
    roundedOnce f ((if neg then -1 else 1) * (digits * 10 ^ e.toNat * 2 ^ scaleOf f)) (10 ^ (-e).toNat) neg
      (litValue f (.decimal neg digits e)) := by
  have h := roundTo_roundedOnce f neg (digits * 10 ^ e.toNat * 2 ^ scaleOf f) (d := 10 ^ (-e).toNat) (by positivity)
  push_cast at h
  exact h

/-- Settles O5: a line's literals are rounded by `roundTo`, its command is its encoding, and the thirteen examples are
read by the model's own reader. -/
theorem assemblyLinesEncode : Obligations.AssemblyLinesEncode := by
  refine ⟨fun f => ⟨fun l i h => ?_, fun _ _ _ _ => rfl,
    fun _ _ _ _ => ⟨rfl, rfl, rfl, rfl, rfl, rfl, rfl, rfl⟩, litValue_decimal_roundedOnce f,
    fun neg n w => ⟨rfl, rfl, rfl, ?_, clip_of_fits⟩⟩, by decide⟩
  · exact ⟨assemble_eq_encode h, by rw [assemble_eq_encode h, decode_encode]⟩
  · obtain ⟨-, -, hquiet⟩ := quietNaN_spec f (Config.literalNan n)
    exact hquiet

end Sys2Proof.Machine
end

section
/-! The fields of a format and what they mean (R80), and the comparisons of the values they stand for (R84). -/

namespace Sys2Proof.Machine

/-! ### The fields as bits of the word -/

theorem signBit_eq_getLsbD (f : Fmt) (w : Word) : signBit f w = w.getLsbD (f.fracBits + f.expBits) := by
  rw [signBit, ← BitVec.testBit_toNat, Nat.testBit_eq_decide_div_mod_eq]

theorem expField_eq_extractLsb' (f : Fmt) (w : Word) :
    expField f w = (w.extractLsb' f.fracBits f.expBits).toNat := by
  rw [BitVec.extractLsb'_toNat, Nat.shiftRight_eq_div_pow, expField]

theorem fracField_eq_extractLsb' (f : Fmt) (w : Word) : fracField f w = (w.extractLsb' 0 f.fracBits).toNat := by
  rw [BitVec.extractLsb'_toNat, Nat.shiftRight_zero, fracField]

/-- A value of binary32 leaves the upper half of its container zero (log 2). -/
theorem fits_binary32_iff (w : Word) : Fmt.fits .binary32 w = true ↔ w.extractLsb' 32 32 = 0 := by
  have hw := w.isLt
  have hzero : (0 : BitVec 32).toNat = 0 := rfl
  rw [Fmt.fits, decide_eq_true_eq, ← BitVec.toNat_inj, BitVec.extractLsb'_toNat, Nat.shiftRight_eq_div_pow,
    hzero, Fmt.width]
  omega

/-! ### What the fields mean -/

theorem isNaN_iff (f : Fmt) (w : Word) : isNaN f w = true ↔ expField f w = expMax f ∧ fracField f w ≠ 0 := by
  simp [isNaN]

theorem isInf_iff (f : Fmt) (w : Word) : isInf f w = true ↔ expField f w = expMax f ∧ fracField f w = 0 := by
  simp [isInf]

theorem scaled_eq_zero_iff (f : Fmt) (w : Word) : scaled f w = 0 ↔ isZero f w = true := by
  rw [← Int.natAbs_eq_zero, natAbs_scaled, magnitude_eq_zero_iff]

theorem isZero_iff (f : Fmt) (w : Word) : isZero f w = true ↔ isFinite f w = true ∧ scaled f w = 0 := by
  rw [scaled_eq_zero_iff]
  exact ⟨fun h => ⟨isFinite_of_isZero h, h⟩, And.right⟩

theorem scaled_eq_sign_mul (f : Fmt) (w : Word) :
    scaled f w = (if signBit f w then -1 else 1) * (magnitude f w : Int) := by
  rw [scaled]
  split <;> simp

theorem magnitude_cast (f : Fmt) (w : Word) :
    (magnitude f w : Int) = if expField f w = 0 then (fracField f w : Int)
      else (2 ^ f.fracBits + fracField f w) * 2 ^ (expField f w - 1) := by
  rw [magnitude]
  split
  · rfl
  · push_cast
    rw [add_comm]

theorem zeroOf_signBit (f : Fmt) (neg : Bool) : signBit f (zeroOf f neg) = neg := packBits_signBit (by positivity)

theorem isFinite_posZero (f : Fmt) : isFinite f posZero = true := by cases f <;> rfl

theorem scaled_posZero (f : Fmt) : scaled f posZero = 0 := by
  rw [scaled_eq_zero_iff, ← zeroOf_false f]
  exact zeroOf_isZero f false

/-- Settles O44: the fields are the bits of R80's table, and the model's kinds of data and its `scaled` are read off
them. -/
theorem fieldsOfEachFormat : Obligations.FieldsOfEachFormat := by
  refine ⟨fun w => ?_, rfl, rfl, fun f w neg => ?_⟩
  · exact ⟨signBit_eq_getLsbD .binary32 w, expField_eq_extractLsb' .binary32 w, fracField_eq_extractLsb' .binary32 w,
      signBit_eq_getLsbD .binary64 w, expField_eq_extractLsb' .binary64 w, fracField_eq_extractLsb' .binary64 w,
      fits_binary32_iff w, decide_eq_true w.isLt⟩
  · exact ⟨isNaN_iff f w, isInf_iff f w, isFinite_iff_expField f w, isZero_iff f w,
      fun _ => by rw [scaled_eq_sign_mul, magnitude_cast], scaled_oneC f,
      ⟨zeroOf_isZero f neg, zeroOf_signBit f neg, zeroOf_false f⟩,
      infOf_isInf f neg, infOf_signBit f neg, infOf_fits f neg⟩

/-! ### Comparisons -/

variable {f : Fmt} {a b : Word}

theorem comparisons_of_isNaN (h : isNaN f a = true ∨ isNaN f b = true) :
    flt f a b = false ∧ fgt f a b = false ∧ feq f a b = false := by
  have hord : ordered f a b = false := by rcases h with h | h <;> simp [ordered, h]
  simp [flt, fgt, feq, hord]

theorem comparisons_of_not_isNaN (ha : isNaN f a = false) (hb : isNaN f b = false) :
    flt f a b = decide (scaled f a < scaled f b) ∧ fgt f a b = decide (scaled f b < scaled f a) ∧
      feq f a b = decide (scaled f a = scaled f b) := by
  have hord : ordered f a b = true := by simp [ordered, ha, hb]
  simp [flt, fgt, feq, hord]

theorem flt_of_isFinite (ha : isFinite f a = true) (hb : isFinite f b = true) :
    flt f a b = decide (scaled f a < scaled f b) :=
  (comparisons_of_not_isNaN (not_isNaN_of_isFinite ha) (not_isNaN_of_isFinite hb)).1

theorem fgt_eq_flt (f : Fmt) (a b : Word) : fgt f a b = flt f b a := by
  rw [fgt, flt, ordered, ordered, Bool.and_comm (!isNaN f a)]

theorem fgt_of_isFinite (ha : isFinite f a = true) (hb : isFinite f b = true) :
    fgt f a b = decide (scaled f b < scaled f a) := by
  rw [fgt_eq_flt, flt_of_isFinite hb ha]

theorem bitsMagnitude_strictMono {m m' : Nat} (h : m < m') (hm' : m' ≤ infBits f) :
    bitsMagnitude f m < bitsMagnitude f m' := by
  refine lt_of_le_of_ne (bitsMagnitude_mono h.le hm') fun heq => h.ne ?_
  rw [← roundBits_exact (f := f) one_pos (h.le.trans hm'), heq, roundBits_exact one_pos hm']

theorem infOf_not_isNaN (f : Fmt) (neg : Bool) : isNaN f (infOf f neg) = false := not_isNaN_of_isInf (infOf_isInf f neg)

theorem scaled_infOf (f : Fmt) (neg : Bool) :
    scaled f (infOf f neg) = if neg then -(bitsMagnitude f (infBits f) : Int) else bitsMagnitude f (infBits f) := by
  rw [scaled, infOf_signBit, infOf, magnitude_packBits (infBits_lt f)]

/-- The magnitude an infinity's fields would stand for is above every finite value's. -/
theorem abs_scaled_lt_infinity (ha : isFinite f a = true) : |scaled f a| < bitsMagnitude f (infBits f) := by
  rw [Int.abs_eq_natAbs, natAbs_scaled, magnitude_eq_bits]
  exact_mod_cast bitsMagnitude_strictMono ((isFinite_iff_bits_lt f a).1 ha) le_rfl

theorem flt_posInf (ha : isFinite f a = true) : flt f a (infOf f false) = true := by
  obtain ⟨hlt, -⟩ := comparisons_of_not_isNaN (not_isNaN_of_isFinite ha) (infOf_not_isNaN f false)
  rw [hlt, scaled_infOf, decide_eq_true_eq]
  exact (abs_lt.1 (abs_scaled_lt_infinity ha)).2

theorem flt_negInf (ha : isFinite f a = true) : flt f (infOf f true) a = true := by
  obtain ⟨hlt, -⟩ := comparisons_of_not_isNaN (infOf_not_isNaN f true) (not_isNaN_of_isFinite ha)
  rw [hlt, scaled_infOf, decide_eq_true_eq]
  exact (abs_lt.1 (abs_scaled_lt_infinity ha)).1

theorem flt_infinities (f : Fmt) : flt f (infOf f true) (infOf f false) = true := by
  obtain ⟨hlt, -⟩ := comparisons_of_not_isNaN (infOf_not_isNaN f true) (infOf_not_isNaN f false)
  have hpos : (0 : Int) < bitsMagnitude f (infBits f) :=
    (abs_nonneg _).trans_lt (abs_scaled_lt_infinity (isFinite_oneC f))
  rw [hlt, scaled_infOf, scaled_infOf, decide_eq_true_eq]
  exact (neg_lt_zero.2 hpos).trans hpos

theorem fgt_eq_not_or (ha : isNaN f a = false) (hb : isNaN f b = false) :
    fgt f a b = !(flt f a b || feq f a b) := by
  obtain ⟨hlt, hgt, heq⟩ := comparisons_of_not_isNaN ha hb
  rw [hlt, hgt, heq, ← Bool.decide_or, ← decide_not, decide_eq_decide, ← le_iff_lt_or_eq, not_le]

theorem flt_and_feq (f : Fmt) (a b : Word) : (flt f a b && feq f a b) = false := by
  by_cases heq : scaled f a = scaled f b
  · simp [flt, heq]
  · simp [feq, heq]

theorem feq_of_isZero (ha : isZero f a = true) (hb : isZero f b = true) : feq f a b = true := by
  rw [feq_of_isFinite (isFinite_of_isZero ha) (isFinite_of_isZero hb), (scaled_eq_zero_iff f a).2 ha,
    (scaled_eq_zero_iff f b).2 hb]
  rfl

/-- Settles O49: but for NaNs the comparisons are those of `scaled`, where the infinities lie beyond every finite
value. -/
theorem comparisonsAreQuiet : Obligations.ComparisonsAreQuiet := by
  intro f a b
  refine ⟨comparisons_of_isNaN,
    fun ha hb => ⟨flt_of_isFinite ha hb, fgt_of_isFinite ha hb, feq_of_isFinite ha hb⟩,
    fun ha => ⟨flt_posInf ha, ?_⟩, flt_infinities f, fun ha => ?_, fgt_eq_flt f a b, fgt_eq_not_or, flt_and_feq f a b,
    feq_of_isZero (zeroOf_isZero f false) (zeroOf_isZero f true)⟩
  · rw [fgt_eq_flt]
    exact flt_negInf ha
  · obtain ⟨-, -, heq⟩ := comparisons_of_not_isNaN ha ha
    rw [heq]
    exact decide_eq_true rfl

end Sys2Proof.Machine
end

section
/-! The four operations (R81, R82): one rounding of the exact result, the special cases, and the NaNs and zeros they
give. -/

namespace Sys2Proof.Machine

variable {f : Fmt} {k : DrawSite} {a b : Word}

/-! ### One rounding of the exact result (R81) -/

section Rounding

variable {num den : Int} {neg : Bool} {r : Word}

/-- The sign matters of an overflow only. -/
theorem roundedOnce_of_isFinite (h : roundedOnce f num den neg r) (hfin : isFinite f r = true) (neg' : Bool) :
    roundedOnce f num den neg' r := by
  obtain ⟨hover, -, hnear⟩ := h
  exact ⟨hover, fun hinf => absurd hinf (by simp [hfin]), hnear⟩

/-- A quotient's sign may stand in either of its parts. -/
theorem roundedOnce_neg_neg (h : roundedOnce f num den neg r) : roundedOnce f (-num) (-den) neg r := by
  have hdist (v : Int) : |v * -den - -num| = |v * den - num| := by
    rw [← abs_neg]
    congr 1
    ring
  simpa only [roundedOnce, abs_neg, hdist] using h

end Rounding

theorem roundTo_zero (f : Fmt) (neg : Bool) : roundTo f neg 0 1 = zeroOf f neg := by
  simp [roundTo, roundBits, roundToEven, zeroOf]

theorem addFinite_roundedOnce (f : Fmt) (a b : Word) :
    roundedOnce f (scaled f a + scaled f b) 1 (decide (scaled f a + scaled f b < 0)) (addFinite f a b) := by
  unfold addFinite
  generalize scaled f a + scaled f b = z
  dsimp only
  split_ifs with hz
  · subst hz
    have hfin : isFinite f (zeroOf f (signBit f a && signBit f b)) = true := isFinite_of_isZero (zeroOf_isZero _ _)
    have hround := roundTo_roundedOnce f (signBit f a && signBit f b) 0 one_pos
    rw [roundTo_zero, Nat.cast_zero, mul_zero] at hround
    exact roundedOnce_of_isFinite hround hfin _
  · have hsign : (if decide (z < 0) then -1 else 1) * (z.natAbs : Int) = z := by
      split_ifs with hneg <;> rw [decide_eq_true_eq] at hneg <;> omega
    have hround := roundTo_roundedOnce f (decide (z < 0)) z.natAbs one_pos
    rwa [hsign] at hround

theorem fadd_roundedOnce (ha : isFinite f a = true) (hb : isFinite f b = true) :
    roundedOnce f (scaled f a + scaled f b) 1 (decide (scaled f a + scaled f b < 0)) (fadd f k a b) := by
  rw [fadd_finite ha hb]
  exact addFinite_roundedOnce f a b

theorem fsub_roundedOnce (ha : isFinite f a = true) (hb : isFinite f b = true) :
    roundedOnce f (scaled f a - scaled f b) 1 (decide (scaled f a < scaled f b)) (fsub f k a b) := by
  have hround := fadd_roundedOnce (k := k) ha (b := fneg f b) (by rwa [isFinite_fneg])
  rw [scaled_fneg, ← sub_eq_add_neg] at hround
  rw [fsub]
  simpa only [sub_neg] using hround

theorem fmul_roundedOnce (ha : isFinite f a = true) (hb : isFinite f b = true) :
    roundedOnce f (scaled f a * scaled f b) (2 ^ scaleOf f) (signBit f a != signBit f b) (fmul f k a b) := by
  have hnum : scaled f a * scaled f b =
      (if signBit f a != signBit f b then -1 else 1) * ((magnitude f a * magnitude f b : Nat) : Int) := by
    rw [scaled_eq_sign_mul, scaled_eq_sign_mul]
    cases signBit f a <;> cases signBit f b <;> simp
  have hround := roundTo_roundedOnce f (signBit f a != signBit f b) (magnitude f a * magnitude f b)
    (Nat.two_pow_pos (scaleOf f))
  rw [Nat.cast_pow] at hround
  rwa [fmul_finite ha hb, hnum]

theorem fdiv_roundedOnce (ha : isFinite f a = true) (hb : isFinite f b = true) (hz : isZero f b = false) :
    roundedOnce f (scaled f a * 2 ^ scaleOf f) (scaled f b) (signBit f a != signBit f b) (fdiv f k a b) := by
  have hden : 0 < magnitude f b := by
    rw [Nat.pos_iff_ne_zero, ne_eq, magnitude_eq_zero_iff, hz]
    decide
  have hround := roundTo_roundedOnce f (signBit f a != signBit f b) (magnitude f a * 2 ^ scaleOf f) hden
  rw [fdiv_finite ha hb hz, scaled_eq_sign_mul f a, scaled_eq_sign_mul f b]
  push_cast at hround
  cases hsb : signBit f b with
  | false =>
    rw [hsb] at hround
    simpa [mul_assoc] using hround
  | true =>
    rw [hsb] at hround
    have hneg := roundedOnce_neg_neg hround
    cases hsa : signBit f a <;> simpa [hsa] using hneg

/-- Settles O45: each operation is `roundTo` of its exact result, and `roundTo` is the one rounding of R81. -/
theorem arithmeticRoundsToNearestEven : Obligations.ArithmeticRoundsToNearestEven := fun _ _ _ _ ha hb =>
  ⟨fadd_roundedOnce ha hb, fsub_roundedOnce ha hb, fmul_roundedOnce ha hb, fdiv_roundedOnce ha hb⟩

/-! ### Infinities and zeros as operands (R81) -/

theorem not_isFinite_of_isInf (h : isInf f a = true) : isFinite f a = false := by
  simp_all [isInf, isFinite]

theorem not_isZero_of_isInf (h : isInf f a = true) : isZero f a = false := by
  cases hz : isZero f a with
  | false => rfl
  | true => exact absurd (isFinite_of_isZero hz) (by simp [not_isFinite_of_isInf h])

theorem isInf_fneg (f : Fmt) (a : Word) : isInf f (fneg f a) = isInf f a := by
  simp [isInf, fneg_fields]

theorem fsub_isNaN (h : isNaN f a = true ∨ isNaN f b = true) : isNaN f (fsub f k a b) = true :=
  fadd_isNaN (by rwa [isNaN_fneg])

theorem fmul_isNaN (h : isNaN f a = true ∨ isNaN f b = true) : isNaN f (fmul f k a b) = true := by
  rw [fmul_nan h]
  exact drawNaN_isNaN _ _

theorem fdiv_isNaN (h : isNaN f a = true ∨ isNaN f b = true) : isNaN f (fdiv f k a b) = true := by
  rw [fdiv_nan h]
  exact drawNaN_isNaN _ _

theorem fadd_isInf_isInf (ha : isInf f a = true) (hb : isInf f b = true) :
    fadd f k a b = if signBit f a != signBit f b then drawNaN f k else infOf f (signBit f a) := by
  simp [fadd, not_isNaN_of_isInf ha, not_isNaN_of_isInf hb, ha, hb]

theorem isNaN_fadd_isInf_isInf (ha : isInf f a = true) (hb : isInf f b = true) :
    isNaN f (fadd f k a b) = (signBit f a != signBit f b) := by
  rw [fadd_isInf_isInf ha hb]
  cases signBit f a != signBit f b with
  | true => exact drawNaN_isNaN f k
  | false => exact infOf_not_isNaN f _

theorem isNaN_fsub_isInf_isInf (ha : isInf f a = true) (hb : isInf f b = true) :
    isNaN f (fsub f k a b) = (signBit f a == signBit f b) := by
  rw [fsub, isNaN_fadd_isInf_isInf ha (by rwa [isInf_fneg]), signBit_fneg]
  cases signBit f a <;> cases signBit f b <;> rfl

theorem fadd_isInf_left (ha : isInf f a = true) (hb : isFinite f b = true) :
    fadd f k a b = infOf f (signBit f a) := by
  simp [fadd, not_isNaN_of_isInf ha, not_isNaN_of_isFinite hb, ha, not_isInf_of_isFinite hb]

theorem fadd_isInf_right (ha : isFinite f a = true) (hb : isInf f b = true) :
    fadd f k a b = infOf f (signBit f b) := by
  simp [fadd, not_isNaN_of_isFinite ha, not_isNaN_of_isInf hb, hb, not_isInf_of_isFinite ha]

theorem fmul_isInf_right (ha : isFinite f a = true) (hb : isInf f b = true) :
    fmul f k a b = if isZero f a then drawNaN f k else infOf f (signBit f a != signBit f b) := by
  simp [fmul, not_isNaN_of_isFinite ha, not_isNaN_of_isInf hb, hb, not_isZero_of_isInf hb]

theorem fmul_isInf_left (ha : isInf f a = true) (hb : isFinite f b = true) :
    fmul f k a b = if isZero f b then drawNaN f k else infOf f (signBit f a != signBit f b) := by
  simp [fmul, not_isNaN_of_isInf ha, not_isNaN_of_isFinite hb, ha, not_isZero_of_isInf ha]

theorem fdiv_isInf_isInf (ha : isInf f a = true) (hb : isInf f b = true) : fdiv f k a b = drawNaN f k := by
  simp [fdiv, not_isNaN_of_isInf ha, not_isNaN_of_isInf hb, ha, hb]

theorem fdiv_isInf_right (ha : isFinite f a = true) (hb : isInf f b = true) :
    fdiv f k a b = zeroOf f (signBit f a != signBit f b) := by
  simp [fdiv, not_isNaN_of_isFinite ha, not_isInf_of_isFinite ha, not_isNaN_of_isInf hb, hb]

theorem fdiv_isInf_left (ha : isInf f a = true) (hb : isFinite f b = true) :
    fdiv f k a b = infOf f (signBit f a != signBit f b) := by
  simp [fdiv, not_isNaN_of_isInf ha, not_isNaN_of_isFinite hb, ha, not_isInf_of_isFinite hb]

/-- A finite value by a zero. -/
theorem fdiv_isZero_right (ha : isFinite f a = true) (hb : isZero f b = true) :
    fdiv f k a b = if isZero f a then drawNaN f k else infOf f (signBit f a != signBit f b) := by
  have hfin := isFinite_of_isZero hb
  simp [fdiv, not_isNaN_of_isFinite ha, not_isInf_of_isFinite ha, not_isNaN_of_isFinite hfin,
    not_isInf_of_isFinite hfin, hb]

theorem fmul_isZero_isInf (ha : isZero f a = true) (hb : isInf f b = true) :
    isNaN f (fmul f k a b) = true ∧ isNaN f (fmul f k b a) = true := by
  have hfin := isFinite_of_isZero ha
  rw [fmul_isInf_right hfin hb, fmul_isInf_left hb hfin, if_pos ha, if_pos ha]
  exact ⟨drawNaN_isNaN f k, drawNaN_isNaN f k⟩

/-- Settles O46: one lemma for each pair of kinds of operand, either way round. -/
theorem arithmeticSpecialCases : Obligations.ArithmeticSpecialCases := by
  intro f k x y
  refine ⟨fun h => ⟨fadd_isNaN h, fsub_isNaN h, fmul_isNaN h, fdiv_isNaN h⟩, fun hx hx0 hy => ?_, fun hx hy => ?_,
    fun hx hy => ⟨?_, isNaN_fadd_isInf_isInf hx hy, isNaN_fsub_isInf_isInf hx hy⟩, fmul_isZero_isInf,
    fun hx hy => ⟨fadd_isInf_right hx hy, fadd_isInf_left hy hx, fdiv_isInf_right hx hy, ?_, fun hx0 => ?_⟩⟩
  · rw [fdiv_isZero_right hx hy, hx0]
    rfl
  · rw [fdiv_isZero_right (isFinite_of_isZero hx) hy, if_pos hx]
    exact drawNaN_isNaN f k
  · rw [fdiv_isInf_isInf hx hy]
    exact drawNaN_isNaN f k
  · rw [fdiv_isInf_left hy hx, bne_comm]
  · rw [fmul_isInf_right hx hy, hx0]
    rfl

/-! ### NaNs and zeros as results (R82) -/

/-- If the datum is a NaN, it is a quiet one. -/
def NaNIsQuiet (f : Fmt) (r : Word) : Prop := isNaN f r = true → isQuietNaN f r = true

theorem nanIsQuiet_drawNaN (f : Fmt) (k : DrawSite) : NaNIsQuiet f (drawNaN f k) := fun _ => drawNaN_isQuietNaN f k

theorem nanIsQuiet_of_not_isNaN (h : isNaN f a = false) : NaNIsQuiet f a := fun hnan => absurd hnan (by simp [h])

theorem nanIsQuiet_ite {c : Prop} [Decidable c] (ha : NaNIsQuiet f a) (hb : NaNIsQuiet f b) :
    NaNIsQuiet f (if c then a else b) := by
  split
  · exact ha
  · exact hb

theorem nanIsQuiet_infOf (f : Fmt) (neg : Bool) : NaNIsQuiet f (infOf f neg) :=
  nanIsQuiet_of_not_isNaN (infOf_not_isNaN f neg)

theorem nanIsQuiet_zeroOf (f : Fmt) (neg : Bool) : NaNIsQuiet f (zeroOf f neg) :=
  nanIsQuiet_of_not_isNaN (packBits_not_isNaN (Nat.zero_le _))

theorem nanIsQuiet_roundTo (f : Fmt) (neg : Bool) (n d : Nat) : NaNIsQuiet f (roundTo f neg n d) :=
  nanIsQuiet_of_not_isNaN (roundTo_not_isNaN f neg n d)

theorem nanIsQuiet_fadd (f : Fmt) (k : DrawSite) (a b : Word) : NaNIsQuiet f (fadd f k a b) := by
  rcases fadd_cases f k a b with h | ⟨-, h⟩ | ⟨-, h⟩ | ⟨-, -, h⟩ <;> rw [h]
  · exact nanIsQuiet_drawNaN f k
  · exact nanIsQuiet_infOf f _
  · exact nanIsQuiet_infOf f _
  · exact nanIsQuiet_of_not_isNaN (addFinite_not_isNaN f a b)

theorem nanIsQuiet_fmul (f : Fmt) (k : DrawSite) (a b : Word) : NaNIsQuiet f (fmul f k a b) := by
  have draw := nanIsQuiet_drawNaN f k
  exact nanIsQuiet_ite draw (nanIsQuiet_ite (nanIsQuiet_ite draw (nanIsQuiet_infOf f _)) (nanIsQuiet_roundTo f _ _ _))

theorem nanIsQuiet_fdiv (f : Fmt) (k : DrawSite) (a b : Word) : NaNIsQuiet f (fdiv f k a b) := by
  have draw := nanIsQuiet_drawNaN f k
  have drawOrInf {c : Prop} [Decidable c] (neg : Bool) := nanIsQuiet_ite (c := c) draw (nanIsQuiet_infOf f neg)
  exact nanIsQuiet_ite draw (nanIsQuiet_ite (drawOrInf _)
    (nanIsQuiet_ite (nanIsQuiet_zeroOf f _) (nanIsQuiet_ite (drawOrInf _) (nanIsQuiet_roundTo f _ _ _))))

theorem nanIsQuiet_ffloor (f : Fmt) (k : DrawSite) (a : Word) : NaNIsQuiet f (ffloor f k a) :=
  nanIsQuiet_ite (nanIsQuiet_drawNaN f k) (nanIsQuiet_ite (nanIsQuiet_infOf f _) (nanIsQuiet_roundTo f _ _ _))

theorem nanIsQuiet_wrap (f : Fmt) (k : DrawSite) (a : Word) : NaNIsQuiet f (wrap f k a) := by
  cases ha : isFinite f a with
  | false =>
    rw [wrap_not_finite ha]
    exact nanIsQuiet_drawNaN f _
  | true =>
    obtain ⟨hfin, -⟩ := (inUnit_iff f _).1 (wrap_inUnit ha)
    exact nanIsQuiet_of_not_isNaN (not_isNaN_of_isFinite hfin)

/-- An exact sum of zero is `+0.0` unless both operands are negative. -/
theorem fadd_exact_zero (ha : isFinite f a = true) (hb : isFinite f b = true) (h : scaled f a + scaled f b = 0) :
    fadd f k a b = zeroOf f (signBit f a && signBit f b) := by
  rw [fadd_finite ha hb, addFinite, h, if_pos rfl]

theorem fadd_fneg_self (ha : isFinite f a = true) : fadd f k a (fneg f a) = posZero := by
  rw [fadd_exact_zero ha (by rwa [isFinite_fneg]) (by rw [scaled_fneg, add_neg_cancel]), signBit_fneg,
    Bool.and_not_self, zeroOf_false]

theorem fadd_zeroOf_zeroOf (f : Fmt) (k : DrawSite) (neg neg' : Bool) :
    fadd f k (zeroOf f neg) (zeroOf f neg') = zeroOf f (neg && neg') := by
  obtain ⟨hfin, hzero⟩ := (isZero_iff f _).1 (zeroOf_isZero f neg)
  obtain ⟨hfin', hzero'⟩ := (isZero_iff f _).1 (zeroOf_isZero f neg')
  rw [fadd_exact_zero hfin hfin' (by rw [hzero, hzero', add_zero]), zeroOf_signBit, zeroOf_signBit]

theorem fmul_signBit (ha : isFinite f a = true) (hb : isFinite f b = true) :
    signBit f (fmul f k a b) = (signBit f a != signBit f b) := by
  rw [fmul_finite ha hb, roundTo_signBit]

theorem fdiv_signBit (ha : isFinite f a = true) (hb : isFinite f b = true) (hz : isZero f b = false) :
    signBit f (fdiv f k a b) = (signBit f a != signBit f b) := by
  rw [fdiv_finite ha hb hz, roundTo_signBit]

/-- Settles O47: the only NaN an operation makes is a drawn one, and exact zeros and roundings have the sign they are
packed with. -/
theorem nanAndZeroResults : Obligations.NaNAndZeroResults := by
  intro f k x y
  refine ⟨?_, fun hx => ⟨fadd_fneg_self hx, fadd_fneg_self hx⟩, (fadd_zeroOf_zeroOf f k _ _).trans (zeroOf_false f),
    fadd_zeroOf_zeroOf f k _ _, fun hx hy => ⟨fmul_signBit hx hy, fdiv_signBit hx hy⟩⟩
  simp only [List.forall_mem_cons]
  exact ⟨nanIsQuiet_fadd f k x y, nanIsQuiet_fadd f k x (fneg f y), nanIsQuiet_fmul f k x y, nanIsQuiet_fdiv f k x y,
    nanIsQuiet_ffloor f k x, nanIsQuiet_wrap f k x, List.forall_mem_nil _⟩

end Sys2Proof.Machine
end

section
/-! The floor, the absolute value, whole numbers, the sine and the wrap (R83, R85, R86, R89, R90). -/

namespace Sys2Proof.Machine

variable {f : Fmt} {k : DrawSite} {a b : Word}

/-! ### Floor and absolute value (R83) -/

theorem infOf_signBit_self (hfit : f.fits a = true) (ha : isInf f a = true) : infOf f (signBit f a) = a := by
  obtain ⟨hexp, hfrac⟩ := (isInf_iff f a).1 ha
  have hself := packBits_self hfit
  rwa [toNat_mod_fields, hexp, hfrac, Nat.add_zero] at hself

theorem zeroOf_signBit_self (hfit : f.fits a = true) (ha : isZero f a = true) : zeroOf f (signBit f a) = a := by
  have hself := roundTo_self one_pos hfit (isFinite_of_isZero ha)
  rwa [(magnitude_eq_zero_iff f a).2 ha, Nat.zero_mul, roundTo_zero] at hself

theorem ffloor_isZero (hfit : f.fits a = true) (ha : isZero f a = true) : ffloor f k a = a := by
  rw [ffloor_finite (isFinite_of_isZero ha), (scaled_eq_zero_iff f a).2 ha, Int.zero_ediv, Int.zero_mul,
    Int.natAbs_zero, roundTo_zero, zeroOf_signBit_self hfit ha]

theorem ffloor_isInf (hfit : f.fits a = true) (ha : isInf f a = true) : ffloor f k a = a := by
  have hdef : ffloor f k a = infOf f (signBit f a) := by simp [ffloor, not_isNaN_of_isInf ha, ha]
  rw [hdef, infOf_signBit_self hfit ha]

theorem ffloor_isNaN (ha : isNaN f a = true) : isNaN f (ffloor f k a) = true := by
  have hdef : ffloor f k a = drawNaN f k := by simp [ffloor, ha]
  rw [hdef]
  exact drawNaN_isNaN f k

/-- The floor is the whole number at or below a finite value and above all but the last unit of it. -/
theorem ffloor_greatest (ha : isFinite f a = true) :
    (2 ^ scaleOf f : Int) ∣ scaled f (ffloor f k a) ∧ scaled f (ffloor f k a) ≤ scaled f a ∧
      scaled f a < scaled f (ffloor f k a) + 2 ^ scaleOf f := by
  have hU : (0 : Int) < 2 ^ scaleOf f := by positivity
  have hlt := Int.lt_ediv_add_one_mul_self (scaled f a) hU
  rw [Int.add_mul, Int.one_mul] at hlt
  rw [scaled_ffloor ha]
  exact ⟨dvd_mul_left _ _, Int.ediv_mul_le _ hU.ne', hlt⟩

theorem fabs_signBit (f : Fmt) (a : Word) : signBit f (fabs f a) = false := by
  have hmask : (~~~signMask f).getLsbD (f.fracBits + f.expBits) = false := by cases f <;> decide
  rw [signBit_eq_getLsbD, fabs, BitVec.getLsbD_and, hmask, Bool.and_false]

theorem magnitude_fabs (f : Fmt) (a : Word) : magnitude f (fabs f a) = magnitude f a := by
  simp [magnitude, fabs_fields]

theorem scaled_fabs (f : Fmt) (a : Word) : scaled f (fabs f a) = |scaled f a| := by
  rw [scaled_eq_magnitude (fabs_signBit f a), magnitude_fabs, Int.abs_eq_natAbs, natAbs_scaled]

/-- Settles O48: the floor's exact value is the quotient by `1.0` rounded down, and `fabs` masks the sign bit. -/
theorem floorAndAbsAreExact : Obligations.FloorAndAbsAreExact := fun f _ a hfit =>
  ⟨fun ha => ⟨ffloor_isFinite ha, ffloor_greatest ha⟩, fun h => h.elim (ffloor_isZero hfit) (ffloor_isInf hfit),
    fun ha => ⟨ffloor_isNaN ha, by rwa [isNaN_fabs]⟩, fun _ => scaled_fabs f a, fabs_signBit f a, fabs_fields f a⟩

/-! ### Whole numbers (R85) -/

/-- The whole numbers up to `2 ^ (fracBits + 1)` are far below the overflow bound. -/
theorem whole_lt_overflowBound {n : Nat} (hn : n ≤ 2 ^ (f.fracBits + 1)) :
    n * 2 ^ scaleOf f < overflowBound f := by
  obtain ⟨-, hexp⟩ := infBits_eq_binade f
  have hpow : 2 * 2 ^ scaleOf f ≤ 2 ^ (expMax f - 2) := by
    rw [← pow_succ']
    exact Nat.pow_le_pow_right (by decide) (by omega)
  have hsig : n < 2 * (2 ^ (f.fracBits + 1) - 1) + 1 := by
    have := Nat.pow_le_pow_right (n := 2) (by decide) (Nat.le_add_left 1 f.fracBits)
    omega
  have hlt : n * (2 * 2 ^ scaleOf f) < 2 * overflowBound f := by
    calc n * (2 * 2 ^ scaleOf f) < (2 * (2 ^ (f.fracBits + 1) - 1) + 1) * (2 * 2 ^ scaleOf f) :=
          Nat.mul_lt_mul_of_pos_right hsig (by positivity)
      _ ≤ (2 * (2 ^ (f.fracBits + 1) - 1) + 1) * 2 ^ (expMax f - 2) := Nat.mul_le_mul_left _ hpow
      _ = 2 * overflowBound f := (two_mul_overflowBound f).symm
  linarith

/-- Up to `2 ^ (fracBits + 1)` a whole number has few enough significant bits, that bound having one only. -/
theorem toF_exact {n : Nat} (hn : n ≤ 2 ^ (f.fracBits + 1)) :
    isFinite f (toF f n) = true ∧ scaled f (toF f n) = n * 2 ^ scaleOf f := by
  have hfin : roundBits f (n * 2 ^ scaleOf f) 1 < infBits f :=
    roundBits_lt_infBits one_pos (by rw [mul_one]; exact whole_lt_overflowBound hn)
  have hexact : bitsMagnitude f (roundBits f (n * 2 ^ scaleOf f) 1) = n * 2 ^ scaleOf f := by
    rcases hn.lt_or_eq with hlt | rfl
    · exact bitsMagnitude_roundBits hlt hfin
    · rw [← pow_add, ← Nat.one_mul (2 ^ _)] at hfin ⊢
      exact bitsMagnitude_roundBits (Nat.one_lt_two_pow (by omega)) hfin
  refine ⟨roundTo_isFinite hfin, ?_⟩
  rw [toF, scaled_roundTo, hexact]
  simp

theorem toF_roundedOnce (f : Fmt) (n : Nat) : roundedOnce f (n * 2 ^ scaleOf f) 1 false (toF f n) := by
  have hround := roundTo_roundedOnce f false (n * 2 ^ scaleOf f) one_pos
  push_cast at hround
  rw [one_mul] at hround
  exact hround

/-- Settles O50: `toF` is `roundTo` of the exact value, and `2 ^ 24` and `2 ^ 53` are `2 ^ (fracBits + 1)`. -/
theorem wholeNumbersConvertExactly : Obligations.WholeNumbersConvertExactly := by
  refine fun f n => ⟨toF_roundedOnce f n, fun hn => toF_exact ?_⟩
  cases f <;> exact hn

/-! ### The sine (R86) -/

theorem sinF_isZero (ha : isZero f a = true) : sinF f a = a := by
  have hfin := isFinite_of_isZero ha
  simp [sinF, not_isNaN_of_isFinite hfin, not_isInf_of_isFinite hfin, ha]

theorem sinF_not_finite (h : isNaN f a = true ∨ isInf f a = true) : isNaN f (sinF f a) = true := by
  have hdef : sinF f a = someNaN f (f.clip (Config.sinRaw f a)) := by
    rcases h with h | h <;> simp [sinF, h]
  rw [hdef]
  exact someNaN_isNaN f _

theorem inBipolar_iff (f : Fmt) (w : Word) :
    inBipolar f w = true ↔ isFinite f w = true ∧ magnitude f w ≤ magnitude f (oneC f) := by
  simp [inBipolar]

theorem inBipolar_of_isZero (ha : isZero f a = true) : inBipolar f a = true := by
  rw [inBipolar_iff, (magnitude_eq_zero_iff f a).2 ha]
  exact ⟨isFinite_of_isZero ha, Nat.zero_le _⟩

/-- Properties 4 and 5 of R86, as the model holds a sine to them. -/
theorem sineAllowed_iff (f : Fmt) (x y : Word) :
    sineAllowed f x y = true ↔ inBipolar f y = true ∧
      ¬ (isZero f y = true ∧ signBit f y = true ∧ signBit f x = false ∧ scaled f x ≤ scaled f (tauC f)) := by
  simp only [sineAllowed, inBipolar, Bool.and_eq_true, Bool.not_eq_true', decide_eq_true_eq, and_assoc,
    ← Bool.not_eq_true]

theorem sinF_inBipolar (ha : isFinite f a = true) : inBipolar f (sinF f a) = true := by
  rcases sinF_cases f a with ⟨hnan | hinf, -⟩ | ⟨hzero, h⟩ | ⟨-, -, h | ⟨hallowed, -⟩⟩
  · exact absurd hnan (by simp [not_isNaN_of_isFinite ha])
  · exact absurd hinf (by simp [not_isInf_of_isFinite ha])
  · rw [h]
    exact inBipolar_of_isZero hzero
  · rw [h, ← zeroOf_false f]
    exact inBipolar_of_isZero (zeroOf_isZero f false)
  · exact ((sineAllowed_iff f _ _).1 hallowed).1

theorem signBit_of_scaled_pos (h : 0 < scaled f a) : signBit f a = false := by
  cases hs : signBit f a with
  | false => rfl
  | true =>
    rw [scaled, hs, if_pos rfl] at h
    omega

theorem sinF_ne_negZero (ha : isFinite f a = true) (hpos : 0 < scaled f a) (htau : scaled f a ≤ scaled f (tauC f)) :
    sinF f a ≠ zeroOf f true := by
  intro heq
  rcases sinF_cases f a with ⟨hnan | hinf, -⟩ | ⟨hzero, -⟩ | ⟨-, -, h | ⟨hallowed, -⟩⟩
  · exact absurd hnan (by simp [not_isNaN_of_isFinite ha])
  · exact absurd hinf (by simp [not_isInf_of_isFinite ha])
  · exact hpos.ne' ((scaled_eq_zero_iff f a).2 hzero)
  · have hsign := congrArg (signBit f) (heq.symm.trans h)
    rw [← zeroOf_false f, zeroOf_signBit, zeroOf_signBit] at hsign
    exact absurd hsign (by decide)
  · obtain ⟨-, hnot⟩ := (sineAllowed_iff f _ _).1 hallowed
    rw [heq] at hnot
    exact hnot ⟨zeroOf_isZero f true, zeroOf_signBit f true, signBit_of_scaled_pos hpos, htau⟩

theorem isFinite_tauC (f : Fmt) : isFinite f (tauC f) = true := by cases f <;> rfl

/-- Settles O51: whatever the opaque sine answers, `sinF` gives only what `sinF_cases` lists. -/
theorem sineHasItsFiveProperties : Obligations.SineHasItsFiveProperties := by
  intro f x
  refine ⟨sinF_not_finite, sinF_isZero (zeroOf_isZero f false), sinF_isZero (zeroOf_isZero f true), sinF_inBipolar,
    fun hx hpos htau => ?_⟩
  rw [fgt_of_isFinite hx (isFinite_posZero f), decide_eq_true_eq, scaled_posZero] at hpos
  rw [fgt_of_isFinite hx (isFinite_tauC f), decide_eq_false_iff_not, not_lt] at htau
  exact sinF_ne_negZero hx hpos htau

/-! ### The wrap (R89, R90) -/

/-- R89's value; the sites matter to NaNs only. -/
theorem wrap_eq_fold (ha : isFinite f a = true) (k' : DrawSite) :
    wrap f k a =
      if feq f (fsub f k' a (ffloor f k' a)) (oneC f) then posZero else fsub f k' a (ffloor f k' a) := by
  rw [wrap_finite ha, fsub_ffloor ha, fsub_ffloor ha]

theorem wrap_isZero (ha : isZero f a = true) : wrap f k a = posZero := by
  have hfin := isFinite_of_isZero ha
  rw [wrap_finite hfin, fsub_ffloor hfin, (scaled_eq_zero_iff f a).2 ha, Int.zero_emod, if_pos rfl, ite_self]

/-- Settles O52: the difference inside `wrap` is the rounded remainder by `1.0`. -/
theorem wrapLandsInUnit : Obligations.WrapLandsInUnit := by
  refine fun f k s => ⟨fun hs => ⟨wrap_inUnit hs, wrap_eq_fold hs⟩, wrap_of_inUnit, wrap_isZero (zeroOf_isZero f true),
    fun hs => ?_⟩
  rw [wrap_not_finite hs]
  exact drawNaN_isNaN f _

/-- A sum that is exactly the remainder by `1.0` is rounded as the difference inside `wrap` is. -/
theorem fadd_eq_fsub_ffloor (k' : DrawSite) (ha : isFinite f a = true) (hb : isFinite f b = true)
    (hrem : scaled f a + scaled f b = scaled f a % 2 ^ scaleOf f) (hsign : (signBit f a && signBit f b) = false) :
    fadd f k a b = fsub f k' a (ffloor f k' a) := by
  have hnonneg : 0 ≤ scaled f a % 2 ^ scaleOf f := Int.emod_nonneg _ (by positivity)
  rw [fsub_ffloor ha, fadd_finite ha hb, addFinite, hrem, hsign, zeroOf_false, decide_eq_false hnonneg.not_gt]

/-- Between `1.0` and `2.0` the last place is that of `1.0`, so the difference from `1.0` is a value of FMT. -/
theorem bitsMagnitude_roundBits_sub_one (hge : 2 ^ scaleOf f ≤ magnitude f a)
    (hlt : magnitude f a < 2 * 2 ^ scaleOf f) :
    bitsMagnitude f (roundBits f (magnitude f a - 2 ^ scaleOf f) 1) = magnitude f a - 2 ^ scaleOf f := by
  obtain ⟨-, -, -, hle, -⟩ := oneC_layout f
  have hone : 2 ^ f.fracBits * 2 ^ (scaleOf f - f.fracBits) = 2 ^ scaleOf f := by
    rw [← pow_add, Nat.add_sub_cancel' hle]
  have hdvd : 2 ^ (scaleOf f - f.fracBits) ∣ magnitude f a := by
    rw [magnitude_eq_bits] at hge ⊢
    exact dvd_bitsMagnitude (hone.trans_le hge)
  obtain ⟨c, hc⟩ := exists_eq_mul_left_of_dvd (Nat.dvd_sub hdvd (pow_dvd_pow 2 (Nat.sub_le _ _)))
  have hcsig : c < 2 ^ f.fracBits := by
    refine Nat.lt_of_mul_lt_mul_right (a := 2 ^ (scaleOf f - f.fracBits)) ?_
    rw [← hc, hone]
    omega
  have hfin := (roundBits_le_one (f := f) (n := magnitude f a - 2 ^ scaleOf f) (by omega)).1
  rw [hc] at hfin ⊢
  exact bitsMagnitude_roundBits (hcsig.trans (Nat.pow_lt_pow_right (by decide) (by omega))) hfin

/-- Where the remainder by `1.0` is a value of FMT, `wrap` is that value and there is nothing to fold. -/
theorem wrap_of_exact (k' : DrawSite) (ha : isFinite f a = true)
    (hexact : bitsMagnitude f (roundBits f (scaled f a % 2 ^ scaleOf f).natAbs 1) =
      (scaled f a % 2 ^ scaleOf f).natAbs) :
    wrap f k a = fsub f k' a (ffloor f k' a) ∧ scaled f (wrap f k a) = scaled f a % 2 ^ scaleOf f := by
  have hU : (0 : Int) < 2 ^ scaleOf f := by positivity
  have hvalue : scaled f (fsub f k' a (ffloor f k' a)) = scaled f a % 2 ^ scaleOf f := by
    rw [fsub_ffloor ha]
    split_ifs with hz
    · rw [scaled_posZero, hz]
    · rw [scaled_roundTo, hexact, if_neg Bool.false_ne_true, Int.natCast_natAbs,
        abs_of_nonneg (Int.emod_nonneg _ hU.ne')]
  have hfold : feq f (fsub f k' a (ffloor f k' a)) (oneC f) = false := by
    rw [feq, hvalue, scaled_oneC, decide_eq_false (Int.emod_lt_of_pos _ hU).ne, Bool.and_false]
  have hwrap : wrap f k a = fsub f k' a (ffloor f k' a) := by
    rw [wrap_eq_fold ha k', hfold, if_neg Bool.false_ne_true]
  exact ⟨hwrap, by rw [hwrap, hvalue]⟩

/-- R90 (3): one cycle is taken off exactly. -/
theorem wrap_of_one_le (k' : DrawSite) (ha : isFinite f a = true) (hge : 2 ^ scaleOf f ≤ scaled f a)
    (hlt : scaled f a < 2 * 2 ^ scaleOf f) :
    wrap f k a = fsub f k' a (oneC f) ∧ scaled f (wrap f k a) = scaled f a - 2 ^ scaleOf f := by
  have hU : (0 : Int) < 2 ^ scaleOf f := by positivity
  have hs : signBit f a = false := signBit_of_scaled_pos (hU.trans_le hge)
  have hrem : scaled f a % 2 ^ scaleOf f = scaled f a - 2 ^ scaleOf f := by
    rw [← Int.sub_emod_right, Int.emod_eq_of_lt (by omega) (by omega)]
  have hsub : fsub f k' a (oneC f) = fsub f k' a (ffloor f k' a) :=
    fadd_eq_fsub_ffloor k' ha (by rw [isFinite_fneg, isFinite_oneC])
      (by rw [scaled_fneg, scaled_oneC, hrem, sub_eq_add_neg]) (by rw [hs, Bool.false_and])
  have hmag : scaled f a = magnitude f a := scaled_eq_magnitude hs
  have hgeNat : 2 ^ scaleOf f ≤ magnitude f a := by exact_mod_cast hmag ▸ hge
  have hltNat : magnitude f a < 2 * 2 ^ scaleOf f := by exact_mod_cast hmag ▸ hlt
  have hnat : (scaled f a % 2 ^ scaleOf f).natAbs = magnitude f a - 2 ^ scaleOf f := by
    rw [hrem]
    zify [hgeNat]
    rw [hmag, abs_of_nonneg (by omega)]
  obtain ⟨hwrap, hvalue⟩ := wrap_of_exact (k := k) k' ha (by rw [hnat, bitsMagnitude_roundBits_sub_one hgeNat hltNat])
  exact ⟨hwrap.trans hsub.symm, hvalue.trans hrem⟩

/-- R90 (4): one cycle is added, and a rounded `1.0` folded. -/
theorem wrap_of_neg (k' : DrawSite) (ha : isFinite f a = true) (hge : -2 ^ scaleOf f ≤ scaled f a)
    (hlt : scaled f a < 0) :
    wrap f k a = if feq f (fadd f k' a (oneC f)) (oneC f) then posZero else fadd f k' a (oneC f) := by
  have hrem : scaled f a % 2 ^ scaleOf f = scaled f a + 2 ^ scaleOf f := by
    rw [← Int.add_emod_right, Int.emod_eq_of_lt (by omega) (by omega)]
  obtain ⟨-, hsign, -⟩ := oneC_layout f
  rw [fadd_eq_fsub_ffloor k' ha (isFinite_oneC f) (by rw [scaled_oneC, hrem]) (by rw [hsign, Bool.and_false])]
  exact wrap_eq_fold ha k'

theorem minusOneC_eq_fneg (f : Fmt) : minusOneC f = fneg f (oneC f) := by cases f <;> rfl

theorem twoC_layout (f : Fmt) :
    isFinite f (twoC f) = true ∧ fracField f (twoC f) = 0 ∧ signBit f (twoC f) = false ∧
      expField f (twoC f) = expField f (oneC f) + 1 := by
  cases f <;> decide

/-- One binade above `1.0`. -/
theorem scaled_twoC (f : Fmt) : scaled f (twoC f) = 2 * 2 ^ scaleOf f := by
  obtain ⟨hfracOne, hsignOne, hexpOne, -, -⟩ := oneC_layout f
  obtain ⟨-, hfrac, hsign, hexp⟩ := twoC_layout f
  have hone := magnitude_oneC f
  rw [magnitude, hfracOne, hexpOne, if_neg (by omega), Nat.add_sub_cancel, Nat.zero_add] at hone
  rw [scaled_eq_magnitude hsign, magnitude, hfrac, hexp, hexpOne, if_neg (by omega), Nat.add_sub_cancel, Nat.zero_add,
    pow_succ, ← mul_assoc, hone]
  push_cast
  ring

/-- Settles O53: in either range the sum is the remainder by `1.0`, which above `1.0` is a value of FMT. -/
theorem wrapAddsOrTakesOneCycle : Obligations.WrapAddsOrTakesOneCycle := by
  intro f k k' s hs
  have hone := isFinite_oneC f
  have hminus : isFinite f (minusOneC f) = true := by rw [minusOneC_eq_fneg, isFinite_fneg, hone]
  obtain ⟨htwo, -⟩ := twoC_layout f
  rw [flt_of_isFinite hs hone, flt_of_isFinite hs htwo, flt_of_isFinite hs hminus,
    flt_of_isFinite hs (isFinite_posZero f),
    scaled_oneC, scaled_twoC, minusOneC_eq_fneg, scaled_fneg, scaled_oneC, scaled_posZero]
  simp only [decide_eq_false_iff_not, decide_eq_true_eq, not_lt]
  exact ⟨wrap_of_one_le k' hs, wrap_of_neg k' hs⟩

end Sys2Proof.Machine
end

section
/-! The mutators (R101 to R105): each instruction's word, the state it leaves when it completes, and the fault it raises
otherwise. Which of these a mutator does is `exec_completes`, `exec_unconstructed` and `exec_overCapacity`; what it
writes is its row of `completed`. -/

namespace Sys2Proof.Machine

/-- R101: the word is the opcode with the waveform's code above it. -/
theorem encodeWord_setWaveform (kind : Waveform) :
    encodeWord (.setWaveform kind) = 0x00000002 ||| (kind.code.setWidth 32 <<< 8) := by
  cases kind <;> decide

/-- Settles O14: the word is computed for each kind; `set_waveform` has no fault but NOT_CONSTRUCTED. -/
theorem setWaveformResult : Obligations.SetWaveformResult := fun kind _ =>
  ⟨encodeWord_setWaveform kind, fun hs => exec_completes hs rfl, fun hs => exec_unconstructed hs rfl⟩

/-- Settles O18: `set_duty_cycle` does not look at its operand, and has no fault but NOT_CONSTRUCTED. -/
theorem setDutyCycleResult : Obligations.SetDutyCycleResult := fun _ _ =>
  ⟨rfl, fun hs => exec_completes hs rfl, fun hs => exec_unconstructed hs rfl⟩

/-! ### The harmonic store (R102) -/

/-- An instruction above its bound faults and does nothing else. -/
theorem exec_overCapacity {i : Instr} {s : State} (hs : s.constructed = true)
    (hi : overCapacity s.params i = true) : exec i s = .next (s.raise .capacityExceeded) := by
  have hnot : ¬ isConstruct i = true := fun hcon => by simp [overCapacity_of_isConstruct _ hcon] at hi
  rw [exec_eq, if_neg hnot, hi, Bool.not_true, guarded_overCapacity hs]

theorem overCapacity_setHarmonics (p : Params) (amplitudes : List Word) :
    overCapacity p (.setHarmonics amplitudes) = !withinBound p.hCap amplitudes.length := rfl

theorem withinBound_none (n : Nat) : withinBound none n = true := rfl

theorem withinBound_some (c n : Nat) : withinBound (some c) n = decide (n ≤ c) := rfl

/-- Settles O15: the bound H_CAP decides between the whole list and the fault. -/
theorem setHarmonicsResult : Obligations.SetHarmonicsResult := by
  intro amplitudes s
  refine ⟨rfl, fun hs hfits => ?_, fun hs hover => ?_, fun hs => exec_unconstructed hs rfl, fun hcap => ?_,
    fun h hcap => ?_, State.setHarm_hlen s amplitudes⟩
  · exact exec_completes hs (by rw [overCapacity_setHarmonics, hfits, Bool.not_true])
  · exact exec_overCapacity hs (by rw [overCapacity_setHarmonics, hover, Bool.not_false])
  · rw [hcap, withinBound_none]
  · rw [hcap, withinBound_some]

/-! ### The notes (R103, R104) -/

theorem isZero_posZero (f : Fmt) : isZero f posZero = true := by
  rw [← zeroOf_false f]
  exact zeroOf_isZero f false

/-- R23: a zero of either sign in FREQUENCY is the sentinel. -/
theorem silent_of_isZero_frequency {s : State} (h : isZero s.fmt s.frequency = true) : s.silent = true :=
  feq_of_isZero h (isZero_posZero s.fmt)

/-- Settles O16: a completed `note_on` writes its operand and `+0.0`; the equality that tests for silence holds of both
zeros. -/
theorem noteOnResult : Obligations.NoteOnResult := fun v s =>
  ⟨rfl, fun hs => exec_completes hs rfl, fun hs => exec_unconstructed hs rfl,
    silent_of_isZero_frequency (s := (s.setFrequency v).setPhase posZero)⟩

theorem exec_noteOff {s : State} (h : s.constructed = true) :
    exec .noteOff s = .next ((s.setFrequency posZero).answer []) := exec_completes h rfl

/-- R120: whatever a `process` of a silent block answers, it leaves PHASE where it was. -/
theorem exec_process_phase_of_silent {s t : State} {len : Nat} (hsilent : s.silent = true)
    (h : exec (.process len) s = .next t) : t.phase = s.phase := by
  rcases exec_cases h with ⟨code, rfl⟩ | ⟨-, rfl⟩
  · rfl
  · rw [completed_process_silent hsilent]
    rfl

/-- Settles O17: `note_off` makes the block silent without writing PHASE, and a silent block's `process` does not write
it either, over L_MAX or not. -/
theorem noteOffResult : Obligations.NoteOffResult := by
  refine fun s => ⟨rfl, exec_noteOff, fun hs => exec_unconstructed hs rfl, fun len hs => ?_⟩
  have hsilent : ((s.setFrequency posZero).answer []).silent = true :=
    silent_of_isZero_frequency (isZero_posZero s.fmt)
  obtain ⟨u, hu⟩ := exec_next (.process len) ((s.setFrequency posZero).answer [])
  have hphase := exec_process_phase_of_silent hsilent hu
  exact ⟨_, u, exec_noteOff hs, hu, hphase⟩

end Sys2Proof.Machine
end

section
/-! What `process` answers (R120 to R122, R128, R129): the run of sample steps is `samplesOf` and `phaseAfter`, and two
runs in a row are one. -/

namespace Sys2Proof.Machine

/-! ### The run of sample steps -/

/-- The state inside a `process` issued in `s`, before sample `j`; `sampleRun_atSample` ties it to the run. -/
def State.atSample (s : State) (j : Nat) : State := { s with phase := phaseAfter s j, inc := s.increment, j := j }

theorem loadLatches_eq_atSample (s : State) : s.loadLatches s.increment = s.atSample 0 := rfl

theorem atSample_advance (s : State) (j : Nat) :
    (s.atSample j).advance (s.atSample j).nextPhase = s.atSample (j + 1) := rfl

theorem atSample_sampleValue (s : State) (j : Nat) :
    (s.atSample j).sampleValue =
      waveValue s.fmt ((drawsOfSample s j).sub 0) s.waveform (phaseAfter s j) s.dutyCycle s.harm := rfl

theorem samplesOf_succ (s : State) (n : Nat) : samplesOf s (n + 1) = samplesOf s n ++ [(s.atSample n).sampleValue] := by
  rw [samplesOf, List.range_succ, List.map_append]
  rfl

/-- R121: the run of `n` samples is R121's samples, and leaves the state before sample `n`. -/
theorem sampleRun_atSample (s : State) (n : Nat) : sampleRun n (s.atSample 0) = (samplesOf s n, s.atSample n) := by
  induction n with
  | zero => rfl
  | succ n ih => rw [sampleRun_add, ih, samplesOf_succ, sampleRun_succ, sampleRun_zero, atSample_advance]

/-- R120: what a sounding `process` leaves. -/
theorem completed_process_eq_atSample {s : State} (h : s.silent = false) (len : Nat) :
    completed (.process len) s = (s.atSample len).releaseLatches.answer (samplesOf s len) := by
  rw [completed_process_sounding h, loadLatches_eq_atSample, sampleRun_atSample]

theorem atSample_registers (s : State) (j : Nat) :
    (s.atSample j).registers = { s.registers with phase := phaseAfter s j } := rfl

/-- Settles O23: the silence path answers zeros and releases the latches, which are no registers. -/
theorem silenceLeavesEveryRegister : Obligations.SilenceLeavesEveryRegister := by
  intro len s hcon hlen hsilent
  have hdone := completed_process_silent (s := s) hsilent len
  exact ⟨_, exec_completes hcon (overCapacity_process hlen), by rw [hdone]; rfl, by rw [hdone]; rfl⟩

theorem overCapacity_process_eq (p : Params) (len : Nat) :
    overCapacity p (.process len) = !withinBound p.lMax len := rfl

/-- Settles O22: the two faults are R183's checks, the silence path is O23's, and the sounding path is
`completed_process_eq_atSample`. -/
theorem processResult : Obligations.ProcessResult := by
  refine ⟨fun _ _ _ _ _ => ⟨rfl, rfl, rfl, rfl, rfl, rfl⟩, fun len s => ⟨rfl, ⟨_, rfl⟩, rfl, fun hmax => ?_,
    fun m hmax => ?_, fun hcon => exec_unconstructed hcon rfl, fun hcon hlen => ?_, fun hcon hlen hsilent => ?_,
    fun hcon hlen hsilent => ?_⟩⟩
  · rw [hmax, withinBound_none]
  · rw [hmax, withinBound_some]
  · exact exec_overCapacity hcon (by rw [overCapacity_process_eq, hlen, Bool.not_false])
  · have hexec := exec_completes hcon (overCapacity_process hlen)
    rw [completed_process_silent hsilent] at hexec
    exact ⟨_, hexec, rfl, rfl, rfl, rfl⟩
  · have hexec := exec_completes hcon (overCapacity_process hlen)
    rw [completed_process_eq_atSample hsilent] at hexec
    exact ⟨_, hexec, atSample_registers s len, rfl, rfl, rfl⟩

/-! ### Pulse is Square (R127, R131) -/

theorem phaseAfter_setWaveform (w : Waveform) (s : State) (n : Nat) :
    phaseAfter (s.setWaveform w) n = phaseAfter s n := by
  induction n with
  | zero => rfl
  | succ n ih =>
    rw [phaseAfter, ih]
    rfl

theorem pulseValue_eq_squareValue (f : Fmt) (p d : Word) : pulseValue f p d = squareValue f p d := rfl

theorem samplesOf_pulse_eq_square (s : State) (n : Nat) :
    samplesOf (s.setWaveform .pulse) n = samplesOf (s.setWaveform .square) n := by
  have hsample (j : Nat) : ((s.setWaveform .pulse).atSample j).sampleValue =
      ((s.setWaveform .square).atSample j).sampleValue := by
    rw [atSample_sampleValue, atSample_sampleValue, phaseAfter_setWaveform, phaseAfter_setWaveform]
    exact pulseValue_eq_squareValue _ _ _
  exact List.map_congr_left fun j _ => hsample j

theorem completed_process_pulse_eq_square (len : Nat) (s : State) :
    (completed (.process len) (s.setWaveform .pulse)).response =
        (completed (.process len) (s.setWaveform .square)).response ∧
      (completed (.process len) (s.setWaveform .pulse)).phase =
        (completed (.process len) (s.setWaveform .square)).phase := by
  have hsilent (w : Waveform) : (s.setWaveform w).silent = s.silent := rfl
  cases h : s.silent with
  | true =>
    rw [completed_process_silent ((hsilent _).trans h), completed_process_silent ((hsilent _).trans h)]
    exact ⟨rfl, rfl⟩
  | false =>
    rw [completed_process_eq_atSample ((hsilent _).trans h), completed_process_eq_atSample ((hsilent _).trans h),
      samplesOf_pulse_eq_square]
    exact ⟨rfl, (phaseAfter_setWaveform _ s len).trans (phaseAfter_setWaveform _ s len).symm⟩

/-- Settles O32: WAVEFORM moves neither the checks nor PHASE, and the two waveforms select one function. -/
theorem pulseEqualsSquare : Obligations.PulseEqualsSquare := by
  refine ⟨pulseValue_eq_squareValue, fun len s => ?_⟩
  obtain ⟨t, ht⟩ := exec_next (.process len) (s.setWaveform .pulse)
  obtain ⟨u, hu, hcase⟩ := exec_pair ht (u := s.setWaveform .square) rfl rfl
  refine ⟨t, u, ht, hu, ?_⟩
  rcases hcase with ⟨code, rfl, rfl⟩ | ⟨rfl, rfl⟩
  · exact ⟨rfl, rfl⟩
  · exact completed_process_pulse_eq_square len s

/-! ### Two blocks are one (R128) -/

theorem not_isFinite_of_isNaN {f : Fmt} {a : Word} (h : isNaN f a = true) : isFinite f a = false := by
  cases hfin : isFinite f a with
  | false => rfl
  | true => exact absurd h (by simp [not_isNaN_of_isFinite hfin])

theorem wrap_sameDatum {f : Fmt} {k k' : DrawSite} {a a' : Word} (ha : sameDatum f a a') :
    sameDatum f (wrap f k a) (wrap f k' a') := by
  rcases ha with rfl | ⟨h, h'⟩
  · cases hfin : isFinite f a with
    | false =>
      rw [wrap_not_finite hfin, wrap_not_finite hfin]
      exact drawNaN_sameDatum f _ _
    | true => exact .inl (by rw [wrap_eq_fold hfin k, wrap_eq_fold hfin k])
  · rw [wrap_not_finite (not_isFinite_of_isNaN h), wrap_not_finite (not_isFinite_of_isNaN h')]
    exact drawNaN_sameDatum f _ _

/-- The registers a later `process` reads, and the parameters, are those of the sounding `process` at sample `a`. -/
def ContinuesAt (s : State) (a : Nat) (t : State) : Prop :=
  t.registers = { s.registers with phase := phaseAfter s a } ∧ t.params = s.params

section
variable {s t : State} {a : Nat}

theorem continuesAt_increment (h : ContinuesAt s a t) : sameDatum s.fmt t.increment s.increment := by
  obtain ⟨hregs, hparams⟩ := h
  rw [State.increment, show t.fmt = s.fmt from congrArg Params.fmt hparams,
    show t.frequency = s.frequency from congrArg Registers.frequency hregs,
    show t.sampleRate = s.sampleRate from congrArg Registers.sampleRate hregs]
  exact fdiv_sameDatum (sameDatum_refl _ _) (sameDatum_refl _ _)

theorem continuesAt_silent (h : ContinuesAt s a t) : t.silent = s.silent := by
  obtain ⟨hregs, hparams⟩ := h
  rw [State.silent, State.silent, show t.fmt = s.fmt from congrArg Params.fmt hparams,
    show t.frequency = s.frequency from congrArg Registers.frequency hregs]

/-- R128: the phases go on from where the first block left PHASE. -/
theorem continuesAt_phaseAfter (h : ContinuesAt s a t) (j : Nat) :
    sameDatum s.fmt (phaseAfter t j) (phaseAfter s (a + j)) := by
  have hfmt : t.fmt = s.fmt := congrArg Params.fmt h.2
  induction j with
  | zero => exact .inl (congrArg Registers.phase h.1)
  | succ j ih =>
    rw [phaseAfter, ← Nat.add_assoc, phaseAfter, hfmt]
    exact wrap_sameDatum (fadd_sameDatum ih (continuesAt_increment h))

theorem continuesAt_sampleValue (h : ContinuesAt s a t) (j : Nat) :
    sameDatum s.fmt (t.atSample j).sampleValue (s.atSample (a + j)).sampleValue := by
  have hphase := continuesAt_phaseAfter h j
  obtain ⟨hregs, hparams⟩ := h
  rw [atSample_sampleValue, atSample_sampleValue, show t.fmt = s.fmt from congrArg Params.fmt hparams,
    show t.waveform = s.waveform from congrArg Registers.waveform hregs,
    show t.dutyCycle = s.dutyCycle from congrArg Registers.dutyCycle hregs,
    show t.harm = s.harm from congrArg Registers.harm hregs]
  exact waveValue_sameDatum _ hphase

end

theorem sameData_refl (f : Fmt) (as : List Word) : sameData f as as :=
  List.forall₂_same.2 fun a _ => sameDatum_refl f a

theorem samplesOf_add (s : State) (a b : Nat) :
    samplesOf s (a + b) = samplesOf s a ++ (List.range b).map fun j => (s.atSample (a + j)).sampleValue := by
  rw [samplesOf, List.range_add, List.map_append, List.map_map]
  rfl

theorem continuesAt_samplesOf {s t : State} {a : Nat} (h : ContinuesAt s a t) (b : Nat) :
    sameData s.fmt (samplesOf s a ++ samplesOf t b) (samplesOf s (a + b)) := by
  rw [samplesOf_add]
  refine List.rel_append (sameData_refl _ _) ?_
  rw [samplesOf, List.forall₂_map_left_iff, List.forall₂_map_right_iff]
  exact List.forall₂_same.2 fun j _ => continuesAt_sampleValue h j

theorem withinBound_mono {bound : Option Nat} {m n : Nat} (hmn : m ≤ n) (h : withinBound bound n = true) :
    withinBound bound m = true := by
  cases bound with
  | none => rfl
  | some c =>
    rw [withinBound_some, decide_eq_true_eq] at h ⊢
    exact hmn.trans h

/-- R128, said of the completed commands. -/
theorem completed_process_add (a b : Nat) (s : State) :
    ∃ as bs cs,
      (completed (.process a) s).response = some { status := .ok, data := as } ∧
      (completed (.process b) (completed (.process a) s)).response = some { status := .ok, data := bs } ∧
      (completed (.process (a + b)) s).response = some { status := .ok, data := cs } ∧
      sameData s.fmt (as ++ bs) cs ∧
      sameDatum s.fmt (completed (.process b) (completed (.process a) s)).phase
        (completed (.process (a + b)) s).phase := by
  cases h : s.silent with
  | true =>
    have h' : (s.releaseLatches.answer (List.replicate a posZero)).silent = true := h
    rw [completed_process_silent h, completed_process_silent h, completed_process_silent h']
    refine ⟨_, _, _, rfl, rfl, rfl, ?_, .inl rfl⟩
    rw [List.replicate_append_replicate]
    exact sameData_refl _ _
  | false =>
    have hcont : ContinuesAt s a ((s.atSample a).releaseLatches.answer (samplesOf s a)) := ⟨rfl, rfl⟩
    rw [completed_process_eq_atSample h, completed_process_eq_atSample h,
      completed_process_eq_atSample ((continuesAt_silent hcont).trans h)]
    exact ⟨_, _, _, rfl, rfl, rfl, continuesAt_samplesOf hcont b, continuesAt_phaseAfter hcont b⟩

/-- Settles O24: the second block's increment is the first's, up to which NaN it is, so its phases go on from where the
first left PHASE. -/
theorem phaseContinuesAcrossBlocks : Obligations.PhaseContinuesAcrossBlocks := by
  intro a b s hcon hlen
  obtain ⟨as, bs, cs, has, hbs, hcs, hdata, hphase⟩ := completed_process_add a b s
  have hparams : (completed (.process a) s).params = s.params := by
    obtain ⟨_, _, _, _, _, hframe, -⟩ := completed_process_frame a s
    rw [hframe]
  have hlenA := withinBound_mono (Nat.le_add_right a b) hlen
  have hlenB := withinBound_mono (Nat.le_add_left b a) hlen
  have hexecB := exec_completes (completed_constructed (.process a) hcon)
    (by rw [hparams]; exact overCapacity_process hlenB)
  exact ⟨_, _, _, as, bs, cs, exec_completes hcon (overCapacity_process hlenA), has, hexecB, hbs,
    exec_completes hcon (overCapacity_process hlen), hcs, hdata, hphase⟩

end Sys2Proof.Machine
end

section
/-! The increment (R81, R120, R130): where it is finite, and what it does to PHASE where it is not. -/

namespace Sys2Proof.Machine

variable {f : Fmt} {k : DrawSite} {a b : Word}

/-! ### Results that are not finite -/

theorem drawNaN_not_isFinite (f : Fmt) (k : DrawSite) : isFinite f (drawNaN f k) = false :=
  not_isFinite_of_isNaN (drawNaN_isNaN f k)

theorem infOf_not_isFinite (f : Fmt) (neg : Bool) : isFinite f (infOf f neg) = false :=
  not_isFinite_of_isInf (infOf_isInf f neg)

/-- A sum with an infinity or a NaN is an infinity or a NaN. -/
theorem fadd_not_isFinite (hb : isFinite f b = false) : isFinite f (fadd f k a b) = false := by
  rcases fadd_cases f k a b with h | ⟨-, h⟩ | ⟨-, h⟩ | ⟨-, hfin, -⟩
  · rw [h]
    exact drawNaN_not_isFinite f k
  · rw [h]
    exact infOf_not_isFinite f _
  · rw [h]
    exact infOf_not_isFinite f _
  · exact absurd hfin (by simp [hb])

/-- A quotient of an infinity or a NaN is an infinity or a NaN. -/
theorem fdiv_not_isFinite_left (ha : isFinite f a = false) : isFinite f (fdiv f k a b) = false := by
  rcases kind_cases f a with hnan | hinf | hfin
  · exact not_isFinite_of_isNaN (fdiv_isNaN (.inl hnan))
  · rcases kind_cases f b with hnan | hinf' | hfin
    · exact not_isFinite_of_isNaN (fdiv_isNaN (.inr hnan))
    · rw [fdiv_isInf_isInf hinf hinf']
      exact drawNaN_not_isFinite f k
    · rw [fdiv_isInf_left hinf hfin]
      exact infOf_not_isFinite f _
  · exact absurd hfin (by simp [ha])

/-- A quotient by a zero is an infinity or a NaN. -/
theorem fdiv_isZero_not_isFinite (hb : isZero f b = true) : isFinite f (fdiv f k a b) = false := by
  cases hfin : isFinite f a with
  | false => exact fdiv_not_isFinite_left hfin
  | true =>
    rw [fdiv_isZero_right hfin hb]
    split
    · exact drawNaN_not_isFinite f k
    · exact infOf_not_isFinite f _

/-! ### The increment -/

/-- R120: a SAMPLE_RATE that is a zero or a NaN, or a FREQUENCY that is not finite. -/
theorem increment_not_isFinite {s : State} (h : isZero s.fmt s.sampleRate = true ∨
    isNaN s.fmt s.sampleRate = true ∨ isFinite s.fmt s.frequency = false) : isFinite s.fmt s.increment = false := by
  rcases h with hzero | hnan | hfreq
  · exact fdiv_isZero_not_isFinite hzero
  · exact not_isFinite_of_isNaN (fdiv_isNaN (.inr hnan))
  · exact fdiv_not_isFinite_left hfreq

/-- R130: one sample step of a non-finite increment makes PHASE a NaN, whatever it was. -/
theorem phaseAfter_isNaN {s : State} (hinc : isFinite s.fmt s.increment = false) (n : Nat) :
    isNaN s.fmt (phaseAfter s (n + 1)) = true := by
  rw [phaseAfter, wrap_not_finite (fadd_not_isFinite hinc)]
  exact drawNaN_isNaN _ _

/-- Settles O27: the last sample step adds the increment and wraps a sum that is not finite. -/
theorem nonFiniteIncrementMakesPhaseNaN : Obligations.NonFiniteIncrementMakesPhaseNaN := by
  refine ⟨fun s _ h => increment_not_isFinite h, fun len s hcon hlen hsilent hinc => ?_⟩
  have hexec := exec_completes hcon (overCapacity_process hlen)
  rw [completed_process_eq_atSample hsilent] at hexec
  exact ⟨_, hexec, phaseAfter_isNaN hinc len⟩

theorem magnitude_lt_overflowBound (ha : isFinite f a = true) : magnitude f a < overflowBound f := by
  have hle := magnitude_le_largest ha
  have hpos : 0 < 2 ^ (expMax f - 3) := by positivity
  rw [overflowBound]
  omega

/-- A divisor of magnitude at least `1.0` does not take a finite value past the overflow bound. -/
theorem fdiv_isFinite (ha : isFinite f a = true) (hb : isFinite f b = true) (hone : 2 ^ scaleOf f ≤ magnitude f b) :
    isFinite f (fdiv f k a b) = true := by
  have hpos : 0 < magnitude f b := lt_of_lt_of_le (by positivity) hone
  have hzero : isZero f b = false := by
    rw [← Bool.not_eq_true, ← magnitude_eq_zero_iff]
    omega
  have hlt : magnitude f a * 2 ^ scaleOf f < overflowBound f * magnitude f b :=
    Nat.mul_lt_mul_of_lt_of_le (magnitude_lt_overflowBound ha) hone hpos
  rw [fdiv_finite ha hb hzero]
  exact roundTo_isFinite (roundBits_lt_infBits hpos hlt)

/-- Settles O29: a rate of at least `1.0` is a divisor of magnitude at least `1.0`. -/
theorem audioRatesGiveFiniteIncrement : Obligations.AudioRatesGiveFiniteIncrement := by
  intro s hfreq hrate hone
  rw [flt_of_isFinite hrate (isFinite_oneC s.fmt), scaled_oneC, decide_eq_false_iff_not, not_lt] at hone
  have hsign : signBit s.fmt s.sampleRate = false :=
    signBit_of_scaled_pos (lt_of_lt_of_le (by positivity) hone)
  rw [scaled_eq_magnitude hsign] at hone
  exact fdiv_isFinite hfreq hrate (by exact_mod_cast hone)

end Sys2Proof.Machine
end

section
/-! Additive at the edges (R151 to R155): a NaN phase, a list without a positive entry, and the work of a sample. -/

namespace Sys2Proof.Machine

variable {f : Fmt} {k : DrawSite} {p v : Word}

/-! ### A NaN phase (R130) -/

theorem harmonicTerm_isNaN (hp : isNaN f p = true) (i : Nat) (h : Word) :
    isNaN f (harmonicTerm f k p i h) = true :=
  fmul_isNaN (.inl (sinF_isNaN (fmul_isNaN (.inl (fmul_isNaN (.inr hp))))))

/-- Once the sum is a NaN it stays one. -/
theorem harmonicSumFrom_isNaN_of_value (harm : List Word) (i : Nat) (hv : isNaN f v = true) :
    isNaN f (harmonicSumFrom f k p i v harm) = true := by
  induction harm generalizing i v with
  | nil => exact hv
  | cons h rest ih =>
    rw [harmonicSumFrom]
    apply ih
    split
    · exact fadd_isNaN (.inl hv)
    · exact hv

theorem harmonicSumFrom_isNaN (hp : isNaN f p = true) {harm : List Word} (hpos : ∃ h ∈ harm, fgt f h posZero = true)
    (i : Nat) (v : Word) : isNaN f (harmonicSumFrom f k p i v harm) = true := by
  induction harm generalizing i v with
  | nil => simp at hpos
  | cons h rest ih =>
    rw [harmonicSumFrom]
    cases hh : fgt f h posZero with
    | true =>
      rw [if_pos rfl]
      exact harmonicSumFrom_isNaN_of_value rest _ (fadd_isNaN (.inr (harmonicTerm_isNaN hp i h)))
    | false =>
      obtain ⟨h', hmem, hgt⟩ := hpos
      rcases List.mem_cons.1 hmem with rfl | hmem
      · exact absurd hgt (by simp [hh])
      · exact ih ⟨h', hmem, hgt⟩ _ _

theorem normalize_isNaN (hv : isNaN f v = true) (total : Word) : isNaN f (normalize f k v total) = true := by
  unfold normalize
  split
  · exact fdiv_isNaN (.inl hv)
  · exact hv

/-! ### No positive entry (R155) -/

/-- Not above zero: a value that is a NaN or stands at zero or below. -/
theorem fgt_posZero_eq_false_iff (f : Fmt) (a : Word) :
    fgt f a posZero = false ↔ isNaN f a = true ∨ scaled f a ≤ 0 := by
  cases ha : isNaN f a with
  | true => simp [comparisons_of_isNaN (b := posZero) (.inl ha)]
  | false =>
    obtain ⟨-, hgt, -⟩ := comparisons_of_not_isNaN ha (not_isNaN_of_isFinite (isFinite_posZero f))
    simp [hgt, scaled_posZero]

theorem scaled_packBits_neg_nonpos {m : Nat} (h : m < 2 ^ (f.fracBits + f.expBits)) :
    scaled f (packBits f true m) ≤ 0 := by
  rw [scaled, packBits_signBit h]
  simp

theorem signBit_of_isInf_of_nonpos {a : Word} (ha : isInf f a = true) (h : scaled f a ≤ 0) : signBit f a = true := by
  by_contra hs
  rw [scaled_eq_magnitude (by simpa using hs)] at h
  have hzero := (magnitude_eq_zero_iff f a).1 (by omega)
  exact absurd hzero (by simp [not_isZero_of_isInf ha])

/-- A sum of two values at zero or below is at zero or below. -/
theorem scaled_addFinite_nonpos {a b : Word} (h : scaled f a + scaled f b ≤ 0) : scaled f (addFinite f a b) ≤ 0 := by
  unfold addFinite
  generalize scaled f a + scaled f b = z at h
  dsimp only
  split
  · exact ((scaled_eq_zero_iff f _).2 (zeroOf_isZero f _)).le
  · rw [decide_eq_true (by omega)]
    exact scaled_packBits_neg_nonpos (roundBits_lt f _ _)

theorem fadd_not_positive {a b : Word} (ha : fgt f a posZero = false) (hb : fgt f b posZero = false) :
    fgt f (fadd f k a b) posZero = false := by
  rw [fgt_posZero_eq_false_iff] at ha hb ⊢
  rcases ha with ha | ha
  · exact .inl (fadd_isNaN (.inl ha))
  rcases hb with hb | hb
  · exact .inl (fadd_isNaN (.inr hb))
  rcases fadd_cases f k a b with h | ⟨hinf, h⟩ | ⟨hinf, h⟩ | ⟨-, -, h⟩
  · exact .inl (by rw [h]; exact drawNaN_isNaN f k)
  · rw [h, signBit_of_isInf_of_nonpos hinf ha]
    exact .inr (scaled_packBits_neg_nonpos (infBits_lt f))
  · rw [h, signBit_of_isInf_of_nonpos hinf hb]
    exact .inr (scaled_packBits_neg_nonpos (infBits_lt f))
  · rw [h]
    exact .inr (scaled_addFinite_nonpos (by omega))

theorem amplitudeTotalFrom_not_positive {harm : List Word} (hharm : ∀ h ∈ harm, fgt f h posZero = false) (i : Nat)
    (hv : fgt f v posZero = false) : fgt f (amplitudeTotalFrom f k i v harm) posZero = false := by
  induction harm generalizing i v with
  | nil => exact hv
  | cons h rest ih =>
    rw [List.forall_mem_cons] at hharm
    exact ih hharm.2 _ (fadd_not_positive hv hharm.1)

theorem harmonicSumFrom_of_no_positive {harm : List Word} (hharm : ∀ h ∈ harm, fgt f h posZero = false) (i : Nat)
    (v : Word) : harmonicSumFrom f k p i v harm = v := by
  induction harm generalizing i v with
  | nil => rfl
  | cons h rest ih =>
    rw [List.forall_mem_cons] at hharm
    rw [harmonicSumFrom, hharm.1, if_neg Bool.false_ne_true]
    exact ih hharm.2 _ _

theorem fgt_oneC_of_not_positive {a : Word} (h : fgt f a posZero = false) : fgt f a (oneC f) = false := by
  rcases (fgt_posZero_eq_false_iff f a).1 h with hnan | hle
  · exact (comparisons_of_isNaN (.inl hnan)).2.1
  · have hone : (0 : Int) < 2 ^ scaleOf f := by positivity
    rw [fgt, scaled_oneC, decide_eq_false (by omega), Bool.and_false]

/-- R155: the sum is `+0.0` and the total is not above `1.0`, so nothing is divided. -/
theorem additiveValue_of_no_positive {harm : List Word} (hharm : ∀ h ∈ harm, fgt f h posZero = false) :
    additiveValue f k p harm = posZero := by
  have hzero : fgt f posZero posZero = false := (fgt_posZero_eq_false_iff f _).2 (.inr (scaled_posZero f).le)
  have htotal := amplitudeTotalFrom_not_positive (k := k.sub 1) hharm 0 hzero
  rw [additiveValue, normalize, amplitudeTotal, fgt_oneC_of_not_positive htotal, if_neg Bool.false_ne_true]
  exact harmonicSumFrom_of_no_positive hharm 0 posZero

/-! ### A NaN phase, in every waveform (R130) -/

theorem sineValue_isNaN (hp : isNaN f p = true) : isNaN f (sineValue f k p) = true :=
  sinF_isNaN (fmul_isNaN (.inr hp))

theorem sawtoothValue_isNaN (hp : isNaN f p = true) : isNaN f (sawtoothValue f k p) = true :=
  fsub_isNaN (.inl (fmul_isNaN (.inr (fsub_isNaN (.inl hp)))))

theorem triangleValue_isNaN (hp : isNaN f p = true) : isNaN f (triangleValue f k p) = true :=
  fsub_isNaN (.inl (fmul_isNaN (.inr (by rw [isNaN_fabs]; exact fsub_isNaN (.inl hp)))))

theorem squareValue_of_flt {d : Word} (h : flt f p d = true) : squareValue f p d = oneC f := by
  rw [squareValue, h, if_pos rfl]

theorem squareValue_of_not_flt {d : Word} (h : flt f p d = false) : squareValue f p d = minusOneC f := by
  rw [squareValue, h, if_neg Bool.false_ne_true]

theorem squareValue_of_isNaN {d : Word} (h : isNaN f p = true ∨ isNaN f d = true) :
    squareValue f p d = minusOneC f := squareValue_of_not_flt (comparisons_of_isNaN h).1

/-- Settles O28: every operation passes a NaN on, a comparison with one is false, and Additive takes no term where no
entry is positive. -/
theorem naNPhaseOutputs : Obligations.NaNPhaseOutputs := fun _ _ _ _ _ hp =>
  ⟨sineValue_isNaN hp, sawtoothValue_isNaN hp, triangleValue_isNaN hp, squareValue_of_isNaN (.inl hp),
    squareValue_of_isNaN (.inl hp), fun hpos => normalize_isNaN (harmonicSumFrom_isNaN hp hpos 0 posZero) _,
    additiveValue_of_no_positive⟩

/-! ### The work of a sample (R154) -/

/-- The counted loop of R151 from any entry, value and count on. -/
theorem harmonicSumCounted_eq (f : Fmt) (k : DrawSite) (p : Word) (harm : List Word) (i : Nat) (v : Word) (n : Nat) :
    harmonicSumCounted f k p i v n harm = (harmonicSumFrom f k p i v harm, n + sineEvaluations f harm) := by
  induction harm generalizing i v n with
  | nil => rfl
  | cons h rest ih =>
    rw [harmonicSumCounted, harmonicSumFrom, sineEvaluations, List.countP_cons]
    cases fgt f h posZero with
    | true => simp only [if_true, ih, sineEvaluations, Nat.add_assoc, Nat.add_comm 1]
    | false => simp only [Bool.false_eq_true, if_false, ih, sineEvaluations, Nat.add_zero]

/-- The counted loop of R152 from any entry, total and count on. -/
theorem amplitudeTotalCounted_eq (f : Fmt) (k : DrawSite) (harm : List Word) (i : Nat) (v : Word) (n : Nat) :
    amplitudeTotalCounted f k i v n harm = (amplitudeTotalFrom f k i v harm, n + harm.length) := by
  induction harm generalizing i v n with
  | nil => rfl
  | cons h rest ih =>
    rw [amplitudeTotalCounted, amplitudeTotalFrom, ih, List.length_cons, Nat.add_assoc, Nat.add_comm 1]

/-- Settles O41: each loop with its count carries the loop without, and adds to the count what an entry costs. -/
theorem additiveWorkIsBounded : Obligations.AdditiveWorkIsBounded := by
  refine fun f k p harm => ⟨?_, List.countP_eq_length_filter, List.countP_le_length, ?_⟩
  · rw [harmonicSumCounted_eq, Nat.zero_add, harmonicSum]
  · rw [amplitudeTotalCounted_eq, Nat.zero_add, amplitudeTotal]

end Sys2Proof.Machine
end

section
/-! Exact arithmetic (R81, R83): where the exact result is a value of FMT the rounding changes nothing, and below one
it stays below it. -/

namespace Sys2Proof.Machine

variable {f : Fmt} {k : DrawSite} {a b c : Word} {m n : Nat}

/-! ### Values of FMT -/

/-- `n` smallest subnormals are a finite value of FMT. -/
def Representable (f : Fmt) (n : Nat) : Prop := roundBits f n 1 < infBits f ∧ bitsMagnitude f (roundBits f n 1) = n

theorem representable_magnitude (ha : isFinite f a = true) : Representable f (magnitude f a) := by
  have hbits := (isFinite_iff_bits_lt f a).1 ha
  have hexact := roundBits_exact (f := f) one_pos hbits.le
  rw [mul_one, ← magnitude_eq_bits] at hexact
  exact ⟨by rwa [hexact], by rw [hexact, ← magnitude_eq_bits]⟩

theorem representable_of_significand {q e : Nat} (hq : q < 2 ^ (f.fracBits + 1)) (h : q * 2 ^ e < overflowBound f) :
    Representable f (q * 2 ^ e) := by
  have hfin := roundBits_lt_infBits one_pos (by rwa [mul_one])
  exact ⟨hfin, bitsMagnitude_roundBits hq hfin⟩

theorem exists_significand (f : Fmt) (a : Word) :
    ∃ q e, q < 2 ^ (f.fracBits + 1) ∧ magnitude f a = q * 2 ^ e := by
  have hfrac : fracField f a < 2 ^ f.fracBits := Nat.mod_lt _ (by positivity)
  rw [pow_succ]
  by_cases hexp : expField f a = 0
  · exact ⟨fracField f a, 0, by omega, by rw [magnitude, if_pos hexp, pow_zero, mul_one]⟩
  · exact ⟨fracField f a + 2 ^ f.fracBits, expField f a - 1, by omega, by rw [magnitude, if_neg hexp]⟩

theorem representable_two_pow_mul {i : Nat} (h : 2 ^ i * magnitude f a < overflowBound f) :
    Representable f (2 ^ i * magnitude f a) := by
  obtain ⟨q, e, hq, hmag⟩ := exists_significand f a
  have hshift : 2 ^ i * magnitude f a = q * 2 ^ (e + i) := by
    rw [hmag, pow_add]
    ring
  rw [hshift] at h ⊢
  exact representable_of_significand hq h

/-- What stays at or below a value of FMT is rounded to a value at or below it. -/
theorem bitsMagnitude_roundBits_le (hm : Representable f m) (h : n ≤ m) :
    roundBits f n 1 < infBits f ∧ bitsMagnitude f (roundBits f n 1) ≤ m := by
  obtain ⟨hfin, hmag⟩ := hm
  have hround : roundBits f n 1 ≤ roundBits f m 1 := roundBits_mono one_pos one_pos (by omega)
  exact ⟨hround.trans_lt hfin, (bitsMagnitude_mono hround hfin.le).trans hmag.le⟩

/-- A common factor of numerator and denominator does not matter to a rounding. -/
theorem roundBits_mul_right {d : Nat} (hd : 0 < d) (n : Nat) : roundBits f (n * d) d = roundBits f n 1 :=
  le_antisymm (roundBits_mono hd one_pos (by omega)) (roundBits_mono one_pos hd (by omega))

theorem signBit_of_scaled_ne_zero (h : scaled f a ≠ 0) : signBit f a = decide (scaled f a < 0) := by
  rw [scaled] at h ⊢
  cases hs : signBit f a with
  | true =>
    rw [hs, if_pos rfl] at h
    rw [if_pos rfl, eq_comm, decide_eq_true_eq]
    omega
  | false =>
    rw [if_neg Bool.false_ne_true, eq_comm, decide_eq_false_iff_not]
    omega

/-- A value of FMT other than a zero is known by its exact value. -/
theorem eq_of_scaled_eq (ha : f.fits a = true) (hb : f.fits b = true) (hfa : isFinite f a = true)
    (hfb : isFinite f b = true) (h : scaled f a = scaled f b) (hne : scaled f b ≠ 0) : a = b := by
  have hmag : magnitude f a = magnitude f b := by rw [← natAbs_scaled, ← natAbs_scaled, h]
  have hsign : signBit f a = signBit f b := by
    rw [signBit_of_scaled_ne_zero (h ▸ hne), signBit_of_scaled_ne_zero hne, h]
  rw [← roundTo_self one_pos ha hfa, ← roundTo_self one_pos hb hfb, hmag, hsign]

/-! ### The operations -/

theorem fadd_le (ha : isFinite f a = true) (hb : isFinite f b = true) (hm : Representable f m)
    (h : (scaled f a + scaled f b).natAbs ≤ m) :
    isFinite f (fadd f k a b) = true ∧ magnitude f (fadd f k a b) ≤ m := by
  obtain ⟨hfin, hle⟩ := bitsMagnitude_roundBits_le hm h
  rw [fadd_finite ha hb]
  unfold addFinite
  dsimp only
  split
  · have hzero := zeroOf_isZero f (signBit f a && signBit f b)
    rw [(magnitude_eq_zero_iff f _).2 hzero]
    exact ⟨isFinite_of_isZero hzero, Nat.zero_le m⟩
  · rw [magnitude_roundTo]
    exact ⟨roundTo_isFinite hfin, hle⟩

/-- A sum that is a value of FMT is that value. -/
theorem scaled_fadd (ha : isFinite f a = true) (hb : isFinite f b = true)
    (h : Representable f (scaled f a + scaled f b).natAbs) :
    scaled f (fadd f k a b) = scaled f a + scaled f b := by
  rw [fadd_finite ha hb]
  unfold addFinite
  generalize scaled f a + scaled f b = z at h
  dsimp only
  split
  · rename_i hz
    rw [hz, scaled_eq_zero_iff]
    exact zeroOf_isZero f _
  · rw [scaled_roundTo, h.2]
    split <;> rename_i hneg <;> rw [decide_eq_true_eq] at hneg <;> omega

theorem magnitude_fmul (ha : isFinite f a = true) (hb : isFinite f b = true) (hn : Representable f n)
    (h : magnitude f a * magnitude f b = n * 2 ^ scaleOf f) :
    isFinite f (fmul f k a b) = true ∧ magnitude f (fmul f k a b) = n := by
  have hround : roundBits f (magnitude f a * magnitude f b) (2 ^ scaleOf f) = roundBits f n 1 := by
    rw [h, roundBits_mul_right (by positivity)]
  rw [fmul_finite ha hb]
  exact ⟨roundTo_isFinite (hround ▸ hn.1), by rw [magnitude_roundTo, hround, hn.2]⟩

/-- A product that is a value of FMT is that value, bit for bit. -/
theorem fmul_eq_of_magnitude (ha : isFinite f a = true) (hb : isFinite f b = true) (hc : isFinite f c = true)
    (hfit : f.fits c = true) (hsign : (signBit f a != signBit f b) = signBit f c)
    (h : magnitude f a * magnitude f b = magnitude f c * 2 ^ scaleOf f) : fmul f k a b = c := by
  rw [fmul_finite ha hb, hsign, h, roundTo_self (by positivity) hfit hc]

/-- A product by a power of two below the overflow bound is exact. -/
theorem magnitude_fmul_two_pow {i : Nat} (ha : isFinite f a = true) (hb : isFinite f b = true)
    (hpow : magnitude f a = 2 ^ i * 2 ^ scaleOf f) (hlt : 2 ^ i * magnitude f b < overflowBound f) :
    isFinite f (fmul f k a b) = true ∧ magnitude f (fmul f k a b) = 2 ^ i * magnitude f b := by
  refine magnitude_fmul ha hb (representable_two_pow_mul hlt) ?_
  rw [hpow]
  ring

theorem magnitude_fdiv (ha : isFinite f a = true) (hb : isFinite f b = true) (hz : isZero f b = false)
    (hn : Representable f n) (h : magnitude f a * 2 ^ scaleOf f = n * magnitude f b) :
    isFinite f (fdiv f k a b) = true ∧ magnitude f (fdiv f k a b) = n := by
  have hpos : 0 < magnitude f b := by
    rw [Nat.pos_iff_ne_zero, ne_eq, magnitude_eq_zero_iff, hz]
    decide
  have hround : roundBits f (magnitude f a * 2 ^ scaleOf f) (magnitude f b) = roundBits f n 1 := by
    rw [h, roundBits_mul_right hpos]
  rw [fdiv_finite ha hb hz]
  exact ⟨roundTo_isFinite (hround ▸ hn.1), by rw [magnitude_roundTo, hround, hn.2]⟩

/-! ### The site of an operation on finite values -/

theorem fadd_site (k' : DrawSite) (ha : isFinite f a = true) (hb : isFinite f b = true) :
    fadd f k a b = fadd f k' a b := by rw [fadd_finite ha hb, fadd_finite ha hb]

theorem fsub_site (k' : DrawSite) (ha : isFinite f a = true) (hb : isFinite f b = true) :
    fsub f k a b = fsub f k' a b := fadd_site k' ha (by rwa [isFinite_fneg])

theorem fmul_site (k' : DrawSite) (ha : isFinite f a = true) (hb : isFinite f b = true) :
    fmul f k a b = fmul f k' a b := by rw [fmul_finite ha hb, fmul_finite ha hb]

/-! ### The constants (R87) -/

/-- A normal value whose fraction is zero is a power of two. -/
theorem magnitude_of_fracField_zero {e : Nat} (hfrac : fracField f a = 0) (hexp : expField f a = e + 1) :
    magnitude f a = 2 ^ (f.fracBits + e) := by
  rw [magnitude, hfrac, hexp, if_neg (by omega), Nat.zero_add, Nat.add_sub_cancel, pow_add]

/-- Half, two and four stand one binade below `1.0`, one above and two above. -/
theorem powers_layout (f : Fmt) :
    (isFinite f (halfC f) = true ∧ signBit f (halfC f) = false ∧ fracField f (halfC f) = 0 ∧
      expField f (halfC f) = scaleOf f - f.fracBits - 1 + 1) ∧
    (fracField f (twoC f) = 0 ∧ expField f (twoC f) = scaleOf f - f.fracBits + 1 + 1) ∧
    (isFinite f (fourC f) = true ∧ signBit f (fourC f) = false ∧ isZero f (fourC f) = false ∧
      fracField f (fourC f) = 0 ∧ expField f (fourC f) = scaleOf f - f.fracBits + 2 + 1) ∧
    f.fracBits + 2 ≤ scaleOf f := by
  cases f <;> decide

theorem isFinite_halfC (f : Fmt) : isFinite f (halfC f) = true := (powers_layout f).1.1

theorem isFinite_fourC (f : Fmt) : isFinite f (fourC f) = true := (powers_layout f).2.2.1.1

/-- A quarter of `1.0`, in smallest subnormals: the corners of the waveforms are whole multiples of it. -/
def quarter (f : Fmt) : Nat := 2 ^ (scaleOf f - 2)

theorem two_pow_scaleOf (f : Fmt) : 2 ^ scaleOf f = 4 * quarter f := by
  obtain ⟨-, -, -, hscale⟩ := powers_layout f
  rw [quarter, show scaleOf f = scaleOf f - 2 + 2 by omega, pow_add]
  simp [mul_comm]

theorem magnitude_halfC (f : Fmt) : magnitude f (halfC f) = 2 * quarter f := by
  obtain ⟨⟨-, -, hfrac, hexp⟩, -, -, hscale⟩ := powers_layout f
  rw [magnitude_of_fracField_zero hfrac hexp, quarter, ← pow_succ']
  congr 1
  omega

theorem scaled_halfC (f : Fmt) : scaled f (halfC f) = 2 * quarter f := by
  obtain ⟨⟨-, hsign, -, -⟩, -⟩ := powers_layout f
  rw [scaled_eq_magnitude hsign, magnitude_halfC]
  push_cast
  rfl

theorem magnitude_twoC (f : Fmt) : magnitude f (twoC f) = 2 ^ 1 * 2 ^ scaleOf f := by
  obtain ⟨-, ⟨hfrac, hexp⟩, -, hscale⟩ := powers_layout f
  rw [magnitude_of_fracField_zero hfrac hexp, ← pow_add]
  congr 1
  omega

theorem magnitude_fourC (f : Fmt) : magnitude f (fourC f) = 2 ^ 2 * 2 ^ scaleOf f := by
  obtain ⟨-, -, ⟨-, -, -, hfrac, hexp⟩, hscale⟩ := powers_layout f
  rw [magnitude_of_fracField_zero hfrac hexp, ← pow_add]
  congr 1
  omega

theorem two_mul_one_lt_overflowBound (f : Fmt) : 2 * 2 ^ scaleOf f < overflowBound f := by
  have htwo : 2 ≤ 2 ^ (f.fracBits + 1) := Nat.le_self_pow (by omega) 2
  exact whole_lt_overflowBound htwo

theorem representable_quarters (f : Fmt) (hn : n ≤ 4) : Representable f (n * quarter f) := by
  have hbound := two_mul_one_lt_overflowBound f
  have hle : n * quarter f ≤ 4 * quarter f := Nat.mul_le_mul_right _ hn
  have hsig : 4 < 2 ^ (f.fracBits + 1) := by cases f <;> decide
  refine representable_of_significand (by omega) ?_
  rw [two_pow_scaleOf] at hbound
  rw [quarter] at hle hbound
  omega

end Sys2Proof.Machine
end

section
/-! The closed-form waveforms (R123 to R127): Square, Sawtooth, Triangle and Sine on `[+0.0, 1.0)`, at their corners,
and over a whole `process`. -/

namespace Sys2Proof.Machine

variable {f : Fmt} {k : DrawSite} {p y : Word}

/-! ### Square (R124) -/

theorem scaled_of_inUnit (hp : inUnit f p = true) : 0 ≤ scaled f p ∧ scaled f p < 2 ^ scaleOf f := by
  obtain ⟨-, hsign, hlt⟩ := (inUnit_iff f p).1 hp
  rw [magnitude_oneC] at hlt
  rw [scaled_eq_magnitude hsign]
  exact ⟨Int.natCast_nonneg _, by exact_mod_cast hlt⟩

theorem flt_self (f : Fmt) (a : Word) : flt f a a = false := by simp [flt]

/-- No phase is below a duty cycle that is not above zero. -/
theorem flt_of_not_positive {d : Word} (hp : inUnit f p = true) (hd : fgt f d posZero = false) : flt f p d = false := by
  obtain ⟨hge, -⟩ := scaled_of_inUnit hp
  rcases (fgt_posZero_eq_false_iff f d).1 hd with hnan | hle
  · exact (comparisons_of_isNaN (.inr hnan)).1
  · rw [flt, decide_eq_false (by omega), Bool.and_false]

/-- Every phase is below a duty cycle of `1.0` or more. -/
theorem flt_of_one_le {d : Word} (hp : inUnit f p = true) (hd : isNaN f d = false) (hone : flt f d (oneC f) = false) :
    flt f p d = true := by
  obtain ⟨hfin, -⟩ := (inUnit_iff f p).1 hp
  obtain ⟨-, hlt⟩ := scaled_of_inUnit hp
  have hone' := (comparisons_of_not_isNaN hd (not_isNaN_of_isFinite (isFinite_oneC f))).1
  rw [hone, scaled_oneC, eq_comm, decide_eq_false_iff_not] at hone'
  rw [(comparisons_of_not_isNaN (not_isNaN_of_isFinite hfin) hd).1, decide_eq_true_eq]
  omega

/-- Settles O31: the comparison decides, and the unit interval lies between the duty cycles of the two last clauses. -/
theorem squareOutput : Obligations.SquareOutput := fun f p _ =>
  ⟨squareValue_of_flt, squareValue_of_not_flt, squareValue_of_not_flt (flt_self f p), squareValue_of_isNaN,
    fun hp hd => squareValue_of_not_flt (flt_of_not_positive hp hd),
    fun hp hd hone => squareValue_of_flt (flt_of_one_le hp hd hone)⟩

/-! ### One taken off (R125, R126) -/

theorem isFinite_fneg_oneC (f : Fmt) : isFinite f (fneg f (oneC f)) = true := by rw [isFinite_fneg, isFinite_oneC]

theorem scaled_add_fneg_oneC (hs : signBit f y = false) :
    scaled f y + scaled f (fneg f (oneC f)) = magnitude f y - 4 * quarter f := by
  have hone : (2 : Int) ^ scaleOf f = 4 * quarter f := by exact_mod_cast two_pow_scaleOf f
  rw [scaled_eq_magnitude hs, scaled_fneg, scaled_oneC, hone, sub_eq_add_neg]

/-- From `[0, 2]` one takes to `[-1, 1]`. -/
theorem fsub_oneC_inBipolar (hfin : isFinite f y = true) (hs : signBit f y = false)
    (hle : magnitude f y ≤ 8 * quarter f) : inBipolar f (fsub f k y (oneC f)) = true := by
  have hone := magnitude_oneC f
  rw [two_pow_scaleOf] at hone
  rw [inBipolar_iff, fsub]
  refine fadd_le hfin (isFinite_fneg_oneC f) (representable_magnitude (isFinite_oneC f)) ?_
  rw [scaled_add_fneg_oneC hs, hone]
  omega

/-- Where the exact difference is a value of FMT other than a zero, it is that value. -/
theorem fsub_oneC_eq {r : Word} (hfin : isFinite f y = true) (hs : signBit f y = false) (hfit : f.fits r = true)
    (hr : isFinite f r = true) (hne : scaled f r ≠ 0) (h : (magnitude f y - 4 * quarter f : Int) = scaled f r) :
    fsub f k y (oneC f) = r := by
  have hsum := (scaled_add_fneg_oneC hs).trans h
  have hrep : Representable f (scaled f y + scaled f (fneg f (oneC f))).natAbs := by
    rw [hsum, natAbs_scaled]
    exact representable_magnitude hr
  have hfinite := (fadd_le (k := k) hfin (isFinite_fneg_oneC f) hrep le_rfl).1
  exact eq_of_scaled_eq (fsub_fits f k y _) hfit hfinite hr
    ((scaled_fadd hfin (isFinite_fneg_oneC f) hrep).trans hsum) hne

theorem isFinite_minusOneC (f : Fmt) : isFinite f (minusOneC f) = true := by
  rw [minusOneC_eq_fneg, isFinite_fneg, isFinite_oneC]

theorem scaled_oneC_quarters (f : Fmt) :
    scaled f (oneC f) = 4 * quarter f ∧ scaled f (minusOneC f) = -(4 * quarter f) ∧ 0 < quarter f := by
  have hone : scaled f (oneC f) = 4 * quarter f := by
    rw [scaled_oneC]
    exact_mod_cast two_pow_scaleOf f
  exact ⟨hone, by rw [minusOneC_eq_fneg, scaled_fneg, hone], Nat.two_pow_pos _⟩

theorem fsub_oneC_of_zero (hfin : isFinite f y = true) (hs : signBit f y = false) (h : magnitude f y = 0) :
    fsub f k y (oneC f) = minusOneC f := by
  obtain ⟨-, hminus, hpos⟩ := scaled_oneC_quarters f
  exact fsub_oneC_eq hfin hs (minusOneC_fits f) (isFinite_minusOneC f) (by omega) (by omega)

theorem fsub_oneC_of_two (hfin : isFinite f y = true) (hs : signBit f y = false) (h : magnitude f y = 8 * quarter f) :
    fsub f k y (oneC f) = oneC f := by
  obtain ⟨hone, -, hpos⟩ := scaled_oneC_quarters f
  exact fsub_oneC_eq hfin hs (oneC_fits f) (isFinite_oneC f) (by omega) (by omega)

theorem fsub_oneC_of_one (hfin : isFinite f y = true) (hs : signBit f y = false) (h : magnitude f y = 4 * quarter f) :
    fsub f k y (oneC f) = posZero := by
  rw [fsub, fadd_exact_zero hfin (isFinite_fneg_oneC f) (by rw [scaled_add_fneg_oneC hs]; omega), hs, Bool.false_and,
    zeroOf_false]

/-! ### Sawtooth (R125) -/

/-- R125: the floor is kept in the formula, but on `[+0.0, 1.0)` it is `+0.0`. -/
theorem ffloor_inUnit (hp : inUnit f p = true) : ffloor f k p = posZero := by
  obtain ⟨hfin, hsign, -⟩ := (inUnit_iff f p).1 hp
  obtain ⟨hge, hlt⟩ := scaled_of_inUnit hp
  rw [ffloor_finite hfin, hsign, Int.ediv_eq_zero_of_lt hge hlt, Int.zero_mul, Int.natAbs_zero, roundTo_zero,
    zeroOf_false]

/-- A phase less its floor is the phase, but for bits above FMT's width. -/
theorem fsub_ffloor_inUnit {k' : DrawSite} (hp : inUnit f p = true) :
    isFinite f (fsub f k p (ffloor f k' p)) = true ∧ signBit f (fsub f k p (ffloor f k' p)) = false ∧
      magnitude f (fsub f k p (ffloor f k' p)) = magnitude f p := by
  obtain ⟨hfin, -⟩ := (inUnit_iff f p).1 hp
  obtain ⟨hge, hlt⟩ := scaled_of_inUnit hp
  obtain ⟨hround, hmag⟩ := representable_magnitude hfin
  rw [fsub_ffloor hfin, Int.emod_eq_of_lt hge hlt, natAbs_scaled]
  split
  · rename_i hz
    rw [← zeroOf_false f, (magnitude_eq_zero_iff f p).2 ((scaled_eq_zero_iff f p).1 hz)]
    exact ⟨isFinite_of_isZero (zeroOf_isZero f false), zeroOf_signBit f false,
      (magnitude_eq_zero_iff f _).2 (zeroOf_isZero f false)⟩
  · exact ⟨roundTo_isFinite hround, roundTo_signBit f _ _ _, by rw [magnitude_roundTo, hmag]⟩

theorem fsub_ffloor_self {k' : DrawSite} (hfit : f.fits p = true) (hp : inUnit f p = true) :
    fsub f k p (ffloor f k' p) = p := by
  obtain ⟨hfin, hsign, -⟩ := (inUnit_iff f p).1 hp
  obtain ⟨hge, hlt⟩ := scaled_of_inUnit hp
  rw [fsub_ffloor hfin, Int.emod_eq_of_lt hge hlt, roundTo_scaled_self hfit hfin hsign]

/-- What Sawtooth takes one off: twice the phase, exactly. -/
theorem exists_sawtooth_double (k : DrawSite) (hp : inUnit f p = true) :
    ∃ y, sawtoothValue f k p = fsub f (k.sub 3) y (oneC f) ∧ isFinite f y = true ∧ signBit f y = false ∧
      magnitude f y = 2 * magnitude f p := by
  obtain ⟨-, -, hlt⟩ := (inUnit_iff f p).1 hp
  obtain ⟨htwo, -, hsignTwo, -⟩ := twoC_layout f
  obtain ⟨hfin, hsign, hmag⟩ := fsub_ffloor_inUnit (k := k.sub 1) (k' := k.sub 0) hp
  have hbound := two_mul_one_lt_overflowBound f
  rw [magnitude_oneC] at hlt
  obtain ⟨hfinY, hmagY⟩ := magnitude_fmul_two_pow (k := k.sub 2) htwo hfin (magnitude_twoC f) (by rw [hmag]; omega)
  exact ⟨_, rfl, hfinY, by rw [fmul_signBit htwo hfin, hsign, hsignTwo]; rfl, by rw [hmagY, hmag, pow_one]⟩

theorem sawtoothValue_inBipolar (hp : inUnit f p = true) : inBipolar f (sawtoothValue f k p) = true := by
  obtain ⟨y, hvalue, hfin, hsign, hmag⟩ := exists_sawtooth_double k hp
  obtain ⟨-, -, hlt⟩ := (inUnit_iff f p).1 hp
  rw [magnitude_oneC, two_pow_scaleOf] at hlt
  rw [hvalue]
  exact fsub_oneC_inBipolar hfin hsign (by omega)

/-- From below two, one takes below one: at or below zero, or by a difference that is exact. -/
theorem scaled_fsub_oneC_lt (hfin : isFinite f y = true) (hs : signBit f y = false)
    (hlt : magnitude f y < 2 * 2 ^ scaleOf f) : scaled f (fsub f k y (oneC f)) < 2 ^ scaleOf f := by
  have hsum := scaled_add_fneg_oneC hs
  have hone : (2 : Int) ^ scaleOf f = 4 * quarter f := by exact_mod_cast two_pow_scaleOf f
  have hpos : (0 : Int) < 2 ^ scaleOf f := by positivity
  rcases Nat.lt_or_ge (magnitude f y) (2 ^ scaleOf f) with hbelow | hge
  · rw [two_pow_scaleOf] at hbelow
    rw [fsub, fadd_finite hfin (isFinite_fneg_oneC f)]
    exact (scaled_addFinite_nonpos (by omega)).trans_lt hpos
  · have hexact := bitsMagnitude_roundBits_sub_one hge hlt
    have hrep : Representable f (magnitude f y - 2 ^ scaleOf f) := ⟨(roundBits_le_one (by omega)).1, hexact⟩
    rw [two_pow_scaleOf] at hrep hge hlt
    have hdiff : (magnitude f y - 4 * quarter f : Int) = (magnitude f y - 4 * quarter f : Nat) := by omega
    rw [fsub, scaled_fadd hfin (isFinite_fneg_oneC f) (by rwa [hsum, hdiff, Int.natAbs_natCast]), hsum, hone]
    omega

theorem flt_sawtoothValue_oneC (hp : inUnit f p = true) : flt f (sawtoothValue f k p) (oneC f) = true := by
  obtain ⟨y, hvalue, hfin, hsign, hmag⟩ := exists_sawtooth_double k hp
  obtain ⟨-, -, hlt⟩ := (inUnit_iff f p).1 hp
  obtain ⟨hfinite, -⟩ := (inBipolar_iff f _).1 (sawtoothValue_inBipolar (k := k) hp)
  rw [magnitude_oneC] at hlt
  rw [flt_of_isFinite hfinite (isFinite_oneC f), scaled_oneC, decide_eq_true_eq, hvalue]
  exact scaled_fsub_oneC_lt hfin hsign (by omega)

/-- On `[+0.0, 1.0)` the floor drops out of the formula, and no operation draws. -/
theorem sawtoothValue_eq (k' : DrawSite) (hfit : f.fits p = true) (hp : inUnit f p = true) :
    sawtoothValue f k p = fsub f k' (fmul f k' (twoC f) p) (oneC f) := by
  obtain ⟨hfin, -, hlt⟩ := (inUnit_iff f p).1 hp
  obtain ⟨htwo, -⟩ := twoC_layout f
  have hbound := two_mul_one_lt_overflowBound f
  rw [magnitude_oneC] at hlt
  have hfinY := (magnitude_fmul_two_pow (k := k') htwo hfin (magnitude_twoC f) (by omega)).1
  rw [sawtoothValue, fsub_ffloor_self hfit hp, fmul_site k' htwo hfin, fsub_site k' hfinY (isFinite_oneC f)]

theorem halfC_inUnit (f : Fmt) : inUnit f (halfC f) = true := by
  obtain ⟨⟨hfin, hsign, -, -⟩, -⟩ := powers_layout f
  obtain ⟨-, -, hpos⟩ := scaled_oneC_quarters f
  rw [inUnit_iff, magnitude_halfC, magnitude_oneC, two_pow_scaleOf]
  exact ⟨hfin, hsign, by omega⟩

theorem magnitude_posZero (f : Fmt) : magnitude f posZero = 0 := (magnitude_eq_zero_iff f _).2 (isZero_posZero f)

theorem sawtoothValue_posZero (f : Fmt) (k : DrawSite) : sawtoothValue f k posZero = minusOneC f := by
  obtain ⟨y, hvalue, hfin, hsign, hmag⟩ := exists_sawtooth_double k (posZero_inUnit f)
  rw [hvalue, fsub_oneC_of_zero hfin hsign (by rw [hmag, magnitude_posZero])]

theorem sawtoothValue_halfC (f : Fmt) (k : DrawSite) : sawtoothValue f k (halfC f) = posZero := by
  obtain ⟨y, hvalue, hfin, hsign, hmag⟩ := exists_sawtooth_double k (halfC_inUnit f)
  rw [magnitude_halfC] at hmag
  rw [hvalue, fsub_oneC_of_one hfin hsign (by omega)]

/-- Settles O33: on `[+0.0, 1.0)` Sawtooth takes one off twice the phase, and both are known exactly. -/
theorem sawtoothOutput : Obligations.SawtoothOutput := fun f k k' =>
  ⟨fun _ => ⟨_, _, _, _, rfl⟩,
    fun _ hfit hp => ⟨ffloor_inUnit hp, sawtoothValue_eq k' hfit hp, sawtoothValue_inBipolar hp,
      flt_sawtoothValue_oneC hp⟩,
    sawtoothValue_posZero f k, sawtoothValue_halfC f k, fun _ => sawtoothValue_isNaN⟩

/-! ### Triangle (R126) -/

theorem isFinite_fneg_halfC (f : Fmt) : isFinite f (fneg f (halfC f)) = true := by rw [isFinite_fneg, isFinite_halfC]

theorem scaled_add_fneg_halfC (f : Fmt) (p : Word) :
    scaled f p + scaled f (fneg f (halfC f)) = scaled f p - 2 * quarter f := by
  rw [scaled_fneg, scaled_halfC, sub_eq_add_neg]

theorem isFinite_fabs (f : Fmt) (a : Word) : isFinite f (fabs f a) = isFinite f a := by
  simp [isFinite, fabs_fields]

/-- The distance of a phase from `0.5` is no more than what bounds the exact one. -/
theorem fsub_halfC_le {n : Nat} (hn : n ≤ 4) (hfin : isFinite f p = true)
    (hle : (scaled f p - 2 * quarter f).natAbs ≤ n * quarter f) :
    isFinite f (fsub f k p (halfC f)) = true ∧ magnitude f (fsub f k p (halfC f)) ≤ n * quarter f := by
  rw [← scaled_add_fneg_halfC] at hle
  exact fadd_le hfin (isFinite_fneg_halfC f) (representable_quarters f hn) hle

/-- The distance from `0.5` is exact at the corners. -/
theorem magnitude_fsub_halfC {n : Nat} (hn : n ≤ 4) (hfin : isFinite f p = true)
    (h : (scaled f p - 2 * quarter f).natAbs = n * quarter f) :
    magnitude f (fsub f k p (halfC f)) = n * quarter f := by
  have hrep : Representable f (scaled f p + scaled f (fneg f (halfC f))).natAbs := by
    rw [scaled_add_fneg_halfC, h]
    exact representable_quarters f hn
  rw [← natAbs_scaled, fsub, scaled_fadd hfin (isFinite_fneg_halfC f) hrep, scaled_add_fneg_halfC, h]

/-- Four times a distance of at most `0.5` is exact. -/
theorem fourfold_distance {x : Word} (hfin : isFinite f x = true) (hle : magnitude f x ≤ 2 * quarter f) :
    isFinite f (fmul f k (fourC f) (fabs f x)) = true ∧ signBit f (fmul f k (fourC f) (fabs f x)) = false ∧
      magnitude f (fmul f k (fourC f) (fabs f x)) = 4 * magnitude f x := by
  obtain ⟨-, -, ⟨hfour, hsignFour, -⟩, -⟩ := powers_layout f
  have habs : isFinite f (fabs f x) = true := by rwa [isFinite_fabs]
  have hbound := two_mul_one_lt_overflowBound f
  rw [two_pow_scaleOf] at hbound
  obtain ⟨hfinY, hmagY⟩ := magnitude_fmul_two_pow (k := k) hfour habs (magnitude_fourC f)
    (by rw [magnitude_fabs]; omega)
  exact ⟨hfinY, by rw [fmul_signBit hfour habs, hsignFour, fabs_signBit]; rfl, by rw [hmagY, magnitude_fabs]; rfl⟩

theorem distance_of_inUnit (hp : inUnit f p = true) : (scaled f p - 2 * quarter f).natAbs ≤ 2 * quarter f := by
  obtain ⟨hge, hlt⟩ := scaled_of_inUnit hp
  have hone : (2 : Int) ^ scaleOf f = 4 * quarter f := by exact_mod_cast two_pow_scaleOf f
  omega

theorem triangleValue_inBipolar (hp : inUnit f p = true) : inBipolar f (triangleValue f k p) = true := by
  obtain ⟨hfin, -⟩ := (inUnit_iff f p).1 hp
  obtain ⟨hfinX, hmagX⟩ := fsub_halfC_le (k := k.sub 0) (by omega) hfin (distance_of_inUnit hp)
  obtain ⟨hfinY, hsign, hmagY⟩ := fourfold_distance (k := k.sub 1) hfinX hmagX
  exact fsub_oneC_inBipolar hfinY hsign (by omega)

/-- On `[+0.0, 1.0)` every operation of the formula is on finite values, so none draws. -/
theorem triangleValue_eq (k' : DrawSite) (hp : inUnit f p = true) :
    triangleValue f k p = fsub f k' (fmul f k' (fourC f) (fabs f (fsub f k' p (halfC f)))) (oneC f) := by
  obtain ⟨hfin, -⟩ := (inUnit_iff f p).1 hp
  obtain ⟨hfinX, hmagX⟩ := fsub_halfC_le (k := k') (by omega) hfin (distance_of_inUnit hp)
  obtain ⟨hfinY, -⟩ := fourfold_distance (k := k') hfinX hmagX
  rw [triangleValue, fsub_site k' hfin (isFinite_halfC f), fmul_site k' (isFinite_fourC f) (by rwa [isFinite_fabs]),
    fsub_site k' hfinY (isFinite_oneC f)]

/-- What Triangle takes one off at a corner, `n` quarters from `0.5`. -/
theorem exists_triangle_corner {n : Nat} (k : DrawSite) (hn : n ≤ 2) (hfin : isFinite f p = true)
    (h : (scaled f p - 2 * quarter f).natAbs = n * quarter f) :
    ∃ y, triangleValue f k p = fsub f (k.sub 2) y (oneC f) ∧ isFinite f y = true ∧ signBit f y = false ∧
      magnitude f y = 4 * (n * quarter f) := by
  have hle : n * quarter f ≤ 2 * quarter f := Nat.mul_le_mul_right _ hn
  obtain ⟨hfinX, -⟩ := fsub_halfC_le (k := k.sub 0) (n := n) (by omega) hfin h.le
  have hmagX := magnitude_fsub_halfC (k := k.sub 0) (n := n) (by omega) hfin h
  obtain ⟨hfinY, hsign, hmagY⟩ := fourfold_distance (k := k.sub 1) hfinX (by omega)
  exact ⟨_, rfl, hfinY, hsign, by rw [hmagY, hmagX]⟩

theorem triangleValue_two_quarters (hfin : isFinite f p = true)
    (h : (scaled f p - 2 * quarter f).natAbs = 2 * quarter f) : triangleValue f k p = oneC f := by
  obtain ⟨y, hvalue, hfinY, hsign, hmag⟩ := exists_triangle_corner k (n := 2) (by omega) hfin h
  rw [hvalue, fsub_oneC_of_two hfinY hsign (by omega)]

theorem triangleValue_one_quarter (hfin : isFinite f p = true)
    (h : (scaled f p - 2 * quarter f).natAbs = quarter f) : triangleValue f k p = posZero := by
  obtain ⟨y, hvalue, hfinY, hsign, hmag⟩ := exists_triangle_corner k (n := 1) (by omega) hfin (by omega)
  rw [hvalue, fsub_oneC_of_one hfinY hsign (by omega)]

theorem triangleValue_no_quarter (hfin : isFinite f p = true) (h : scaled f p = 2 * quarter f) :
    triangleValue f k p = minusOneC f := by
  obtain ⟨y, hvalue, hfinY, hsign, hmag⟩ := exists_triangle_corner k (n := 0) (by omega) hfin (by omega)
  rw [hvalue, fsub_oneC_of_zero hfinY hsign (by omega)]

/-- R126's corner `0.25`. -/
theorem fdiv_oneC_fourC (f : Fmt) (k : DrawSite) : isFinite f (fdiv f k (oneC f) (fourC f)) = true ∧
    scaled f (fdiv f k (oneC f) (fourC f)) = quarter f := by
  obtain ⟨-, -, ⟨hfour, hsignFour, hzero, -, -⟩, -⟩ := powers_layout f
  have hrep : Representable f (quarter f) := by
    rw [← Nat.one_mul (quarter f)]
    exact representable_quarters f (by omega)
  have hquotient : magnitude f (oneC f) * 2 ^ scaleOf f = quarter f * magnitude f (fourC f) := by
    rw [magnitude_oneC, magnitude_fourC, two_pow_scaleOf]
    ring
  obtain ⟨hfin, hmag⟩ := magnitude_fdiv (k := k) (isFinite_oneC f) hfour hzero hrep hquotient
  have hsign : signBit f (fdiv f k (oneC f) (fourC f)) = false := by
    rw [fdiv_signBit (isFinite_oneC f) hfour hzero, (oneC_layout f).2.1, hsignFour]
    rfl
  exact ⟨hfin, by rw [scaled_eq_magnitude hsign, hmag]⟩

/-- R126's corner `0.75`. -/
theorem fsub_oneC_quarter (f : Fmt) (k : DrawSite) :
    isFinite f (fsub f k (oneC f) (fdiv f k (oneC f) (fourC f))) = true ∧
      scaled f (fsub f k (oneC f) (fdiv f k (oneC f) (fourC f))) = 3 * quarter f := by
  obtain ⟨hfin, hquarter⟩ := fdiv_oneC_fourC f k
  obtain ⟨hone, -, -⟩ := scaled_oneC_quarters f
  have hneg : isFinite f (fneg f (fdiv f k (oneC f) (fourC f))) = true := by rwa [isFinite_fneg]
  have hsum : scaled f (oneC f) + scaled f (fneg f (fdiv f k (oneC f) (fourC f))) = (3 * quarter f : Nat) := by
    rw [scaled_fneg, hquarter, hone]
    omega
  have hrep : Representable f (scaled f (oneC f) + scaled f (fneg f (fdiv f k (oneC f) (fourC f)))).natAbs := by
    rw [hsum, Int.natAbs_natCast]
    exact representable_quarters f (by omega)
  have hexact := (scaled_fadd (k := k) (isFinite_oneC f) hneg hrep).trans hsum
  push_cast at hexact
  exact ⟨(fadd_le (isFinite_oneC f) hneg hrep le_rfl).1, hexact⟩

/-- Settles O34: on `[+0.0, 1.0)` the distance from `0.5` is at most `0.5`, four times it is exact, and the corners are
whole quarters of `1.0`. -/
theorem triangleOutput : Obligations.TriangleOutput := by
  intro f k
  obtain ⟨hfinQuarter, hquarter⟩ := fdiv_oneC_fourC f k
  obtain ⟨hfinThree, hthree⟩ := fsub_oneC_quarter f k
  have hzero := scaled_posZero f
  exact ⟨fun _ => ⟨_, _, _, rfl⟩, fun k' _ => triangleValue_eq k', fun _ => triangleValue_inBipolar,
    triangleValue_two_quarters (isFinite_posZero f) (by omega), triangleValue_one_quarter hfinQuarter (by omega),
    triangleValue_no_quarter (isFinite_halfC f) (scaled_halfC f), triangleValue_one_quarter hfinThree (by omega),
    fun _ => triangleValue_isNaN⟩

/-! ### Sine (R87, R123) -/

/-- TAU_F stands one binade above PI_F, with the same fraction. -/
theorem piC_layout (f : Fmt) :
    isFinite f (piC f) = true ∧ signBit f (piC f) = false ∧ signBit f (tauC f) = false ∧
      fracField f (tauC f) = fracField f (piC f) ∧ expField f (tauC f) = expField f (piC f) + 1 ∧
        expField f (piC f) = scaleOf f - f.fracBits + 1 + 1 := by
  cases f <;> decide

/-- The significand of PI_F. -/
def piSignificand (f : Fmt) : Nat := fracField f (piC f) + 2 ^ f.fracBits

theorem magnitude_piC (f : Fmt) : magnitude f (piC f) = 2 * piSignificand f * 2 ^ (scaleOf f - f.fracBits) := by
  obtain ⟨-, -, -, -, -, hexp⟩ := piC_layout f
  rw [magnitude, hexp, if_neg (by omega), Nat.add_sub_cancel, piSignificand]
  ring

theorem magnitude_tauC (f : Fmt) : magnitude f (tauC f) = 2 * magnitude f (piC f) := by
  obtain ⟨-, -, -, hfrac, hexpTau, hexp⟩ := piC_layout f
  rw [magnitude, magnitude, hfrac, hexpTau, hexp, if_neg (by omega), if_neg (by omega)]
  simp only [Nat.add_sub_cancel]
  ring

theorem scaled_tauC (f : Fmt) : scaled f (tauC f) = 2 * scaled f (piC f) := by
  obtain ⟨-, hsign, hsignTau, -⟩ := piC_layout f
  rw [scaled_eq_magnitude hsign, scaled_eq_magnitude hsignTau, magnitude_tauC]
  push_cast
  rfl

/-- Twice the significand of PI_F is within one of `π` in units of half its last place: twenty decimals of `π` tell. -/
theorem abs_piSignificand_sub_pi (f : Fmt) : |(2 * piSignificand f : ℝ) - Real.pi * 2 ^ f.fracBits| < 1 := by
  have hlow := Real.pi_gt_d20
  have hhigh := Real.pi_lt_d20
  rw [abs_lt]
  cases f with
  | binary32 =>
    have hsig : piSignificand .binary32 = 13176795 := by decide
    rw [hsig, Fmt.fracBits]
    constructor <;> norm_num at hlow hhigh ⊢ <;> linarith
  | binary64 =>
    have hsig : piSignificand .binary64 = 7074237752028440 := by decide
    rw [hsig, Fmt.fracBits]
    constructor <;> norm_num at hlow hhigh ⊢ <;> linarith

theorem abs_scaled_piC_sub_pi (f : Fmt) :
    |(scaled f (piC f) : ℝ) - Real.pi * 2 ^ scaleOf f| < 2 ^ (scaleOf f - f.fracBits) := by
  obtain ⟨-, hsign, -⟩ := piC_layout f
  obtain ⟨-, -, -, hle, -⟩ := oneC_layout f
  have hunit : (0 : ℝ) < 2 ^ (scaleOf f - f.fracBits) := by positivity
  have hscale : (2 : ℝ) ^ scaleOf f = 2 ^ f.fracBits * 2 ^ (scaleOf f - f.fracBits) := by
    rw [← pow_add, Nat.add_sub_cancel' hle]
  have hfactor : (scaled f (piC f) : ℝ) - Real.pi * 2 ^ scaleOf f =
      (2 * piSignificand f - Real.pi * 2 ^ f.fracBits) * 2 ^ (scaleOf f - f.fracBits) := by
    rw [scaled_eq_magnitude hsign, magnitude_piC, hscale]
    push_cast
    ring
  rw [hfactor, abs_mul, abs_of_pos hunit]
  exact mul_lt_of_lt_one_left hunit (abs_piSignificand_sub_pi f)

theorem fmul_twoC_piC (f : Fmt) (k : DrawSite) : fmul f k (twoC f) (piC f) = tauC f := by
  obtain ⟨htwo, -, hsignTwo, -⟩ := twoC_layout f
  obtain ⟨hpi, hsign, hsignTau, -⟩ := piC_layout f
  refine fmul_eq_of_magnitude htwo hpi (isFinite_tauC f) (tauC_fits f) (by rw [hsignTwo, hsign, hsignTau]; rfl) ?_
  rw [magnitude_twoC, magnitude_tauC]
  ring

theorem fmul_tauC_halfC (f : Fmt) (k : DrawSite) : fmul f k (tauC f) (halfC f) = piC f := by
  obtain ⟨⟨hhalf, hsignHalf, -⟩, -⟩ := powers_layout f
  obtain ⟨hpi, hsign, hsignTau, -⟩ := piC_layout f
  refine fmul_eq_of_magnitude (isFinite_tauC f) hhalf hpi (piC_fits f) (by rw [hsignHalf, hsign, hsignTau]; rfl) ?_
  rw [magnitude_tauC, magnitude_halfC, two_pow_scaleOf]
  ring

theorem sineValue_posZero (f : Fmt) (k : DrawSite) : sineValue f k posZero = posZero := by
  obtain ⟨-, -, hsignTau, -⟩ := piC_layout f
  have hsign : signBit f posZero = false := by rw [← zeroOf_false f, zeroOf_signBit]
  have hmul : fmul f (k.sub 0) (tauC f) posZero = posZero := fmul_eq_of_magnitude (isFinite_tauC f) (isFinite_posZero f)
    (isFinite_posZero f) (posZero_fits f) (by rw [hsignTau, hsign]; rfl) (by rw [magnitude_posZero]; simp)
  rw [sineValue, hmul, sinF_isZero (isZero_posZero f)]

/-- R123: on `[+0.0, 1.0)` the argument of the sine does not overflow. -/
theorem sineValue_inBipolar (hp : inUnit f p = true) : inBipolar f (sineValue f k p) = true := by
  obtain ⟨hfin, -, hlt⟩ := (inUnit_iff f p).1 hp
  have hproduct : magnitude f (tauC f) * magnitude f p < overflowBound f * 2 ^ scaleOf f := by
    rw [magnitude_oneC] at hlt
    exact Nat.mul_lt_mul_of_lt_of_le (magnitude_lt_overflowBound (isFinite_tauC f)) hlt.le (by positivity)
  apply sinF_inBipolar
  rw [fmul_finite (isFinite_tauC f) hfin]
  exact roundTo_isFinite (roundBits_lt_infBits (by positivity) hproduct)

/-- Settles O35: the constants are powers of two or PI_F's own significand, so the products with them are exact; the
range is R86's. -/
theorem sineOutput : Obligations.SineOutput := fun f k =>
  ⟨rfl, rfl, abs_scaled_piC_sub_pi f, fmul_twoC_piC f k, scaled_tauC f, fun _ => ⟨_, rfl⟩, sineValue_posZero f k,
    by rw [sineValue, fmul_tauC_halfC], fun _ => sineValue_isNaN, fun _ => sineValue_inBipolar⟩

/-! ### A whole process (R123 to R127, R130) -/

theorem squareValue_inBipolar (p d : Word) : inBipolar f (squareValue f p d) = true := by
  rw [inBipolar_iff]
  cases h : flt f p d with
  | true =>
    rw [squareValue_of_flt h]
    exact ⟨isFinite_oneC f, le_rfl⟩
  | false =>
    rw [squareValue_of_not_flt h, minusOneC_eq_fneg, isFinite_fneg, magnitude_fneg]
    exact ⟨isFinite_oneC f, le_rfl⟩

theorem waveValue_inBipolar {w : Waveform} (hw : w ≠ .additive) (hp : inUnit f p = true) (d : Word) (harm : List Word) :
    inBipolar f (waveValue f k w p d harm) = true := by
  cases w with
  | sine => exact sineValue_inBipolar hp
  | square | pulse => exact squareValue_inBipolar p d
  | sawtooth => exact sawtoothValue_inBipolar hp
  | triangle => exact triangleValue_inBipolar hp
  | additive => exact absurd rfl hw

theorem phaseAfter_inUnit {s : State} (hs : inUnit s.fmt s.phase = true) (hinc : isFinite s.fmt s.increment = true)
    (j : Nat) : inUnit s.fmt (phaseAfter s j) = true := by
  induction j with
  | zero => exact hs
  | succ j ih => exact wrap_inUnit (fadd_inUnit_isFinite ih hinc)

/-- Settles O36: every sample is a value of the waveform at a phase of `[+0.0, 1.0)`, or the `+0.0` of the silence
path. -/
theorem closedFormSamplesAreBounded : Obligations.ClosedFormSamplesAreBounded := by
  intro len s hcon hlen hw hphase hinc
  have hexec := exec_completes hcon (overCapacity_process hlen)
  cases h : s.silent with
  | true =>
    rw [completed_process_silent h] at hexec
    refine ⟨_, _, hexec, rfl, List.length_replicate, fun v hv => ?_⟩
    rw [List.eq_of_mem_replicate hv]
    exact inBipolar_of_isZero (isZero_posZero s.fmt)
  | false =>
    rw [completed_process_eq_atSample h] at hexec
    refine ⟨_, _, hexec, rfl, by rw [samplesOf, List.length_map, List.length_range], fun v hv => ?_⟩
    obtain ⟨j, -, rfl⟩ := List.mem_map.1 hv
    exact waveValue_inBipolar hw (phaseAfter_inUnit hphase hinc j) _ _

end Sys2Proof.Machine
end

section
/-! Additive (R150 to R156): the two loops entry by entry, the division above one, and harmonics `[1.0]`. -/

namespace Sys2Proof.Machine

variable {f : Fmt} {k : DrawSite} {a b p v : Word}

/-! ### The loops of R151 and R152 with one more entry -/

theorem harmonicSumFrom_concat (harm : List Word) (h : Word) (i : Nat) (v : Word) :
    harmonicSumFrom f k p i v (harm ++ [h]) =
      if fgt f h posZero then
        fadd f ((k.sub (i + harm.length)).sub 3) (harmonicSumFrom f k p i v harm)
          (harmonicTerm f (k.sub (i + harm.length)) p (i + harm.length) h)
      else harmonicSumFrom f k p i v harm := by
  induction harm generalizing i v with
  | nil => rfl
  | cons h' rest ih =>
    rw [List.cons_append, harmonicSumFrom, ih, harmonicSumFrom, List.length_cons, Nat.add_right_comm, Nat.add_assoc]

theorem harmonicSum_concat_of_not_positive (harm : List Word) {h : Word} (hh : fgt f h posZero = false) :
    harmonicSum f k p (harm ++ [h]) = harmonicSum f k p harm := by
  rw [harmonicSum, harmonicSumFrom_concat, hh, if_neg Bool.false_ne_true, harmonicSum]

theorem harmonicSum_concat_of_positive (harm : List Word) {h : Word} (hh : fgt f h posZero = true) :
    harmonicSum f k p (harm ++ [h]) =
      fadd f ((k.sub harm.length).sub 3) (harmonicSum f k p harm)
        (harmonicTerm f (k.sub harm.length) p harm.length h) := by
  rw [harmonicSum, harmonicSumFrom_concat, hh, if_pos rfl, Nat.zero_add, harmonicSum]

/-- Settles O38: the loop's last turn is the turn of the entry at the end. -/
theorem harmonicSumSkipsNonPositive : Obligations.HarmonicSumSkipsNonPositive := fun _ _ _ harm _ =>
  ⟨rfl, harmonicSum_concat_of_not_positive harm, fun hh => ⟨_, _, _, _, harmonicSum_concat_of_positive harm hh⟩⟩

theorem amplitudeTotalFrom_concat (harm : List Word) (h : Word) (i : Nat) (v : Word) :
    amplitudeTotalFrom f k i v (harm ++ [h]) =
      fadd f (k.sub (i + harm.length)) (amplitudeTotalFrom f k i v harm) h := by
  induction harm generalizing i v with
  | nil => rfl
  | cons h' rest ih =>
    rw [List.cons_append, amplitudeTotalFrom, ih, amplitudeTotalFrom, List.length_cons, Nat.add_right_comm,
      Nat.add_assoc]

/-- Once the total is a NaN it stays one. -/
theorem amplitudeTotalFrom_isNaN_of_total (harm : List Word) (i : Nat) (hv : isNaN f v = true) :
    isNaN f (amplitudeTotalFrom f k i v harm) = true := by
  induction harm generalizing i v with
  | nil => exact hv
  | cons h rest ih => exact ih _ (fadd_isNaN (.inl hv))

theorem amplitudeTotalFrom_isNaN {harm : List Word} {h : Word} (hmem : h ∈ harm) (hnan : isNaN f h = true) (i : Nat)
    (v : Word) : isNaN f (amplitudeTotalFrom f k i v harm) = true := by
  induction hmem generalizing i v with
  | head rest => exact amplitudeTotalFrom_isNaN_of_total rest _ (fadd_isNaN (.inr hnan))
  | tail h' _ ih => exact ih _ _

/-! ### Neutral operands -/

/-- `+0.0` adds nothing to a value other than `-0.0`. -/
theorem fadd_posZero_left (hfit : f.fits a = true) (ha : isFinite f a = true) (hne : a ≠ zeroOf f true) :
    fadd f k posZero a = a := by
  cases hz : isZero f a with
  | true =>
    have hself := zeroOf_signBit_self hfit hz
    cases hs : signBit f a with
    | true => exact absurd (by rw [← hself, hs]) hne
    | false => rw [← hself, hs, ← zeroOf_false f, fadd_zeroOf_zeroOf, Bool.false_and]
  | false =>
    have hscaled : scaled f a ≠ 0 := by simp [scaled_eq_zero_iff, hz]
    rw [fadd_finite (isFinite_posZero f) ha, addFinite, scaled_posZero, Int.zero_add, if_neg hscaled,
      ← signBit_of_scaled_ne_zero hscaled, natAbs_scaled, ← Nat.mul_one (magnitude f a), roundTo_self one_pos hfit ha]

theorem signBit_oneC (f : Fmt) : signBit f (oneC f) = false :=
  signBit_of_scaled_pos (by rw [scaled_oneC]; positivity)

theorem fadd_posZero_oneC (f : Fmt) (k : DrawSite) : fadd f k posZero (oneC f) = oneC f := by
  refine fadd_posZero_left (oneC_fits f) (isFinite_oneC f) fun heq => ?_
  have hzero := zeroOf_isZero f true
  rw [← heq, oneC_not_isZero] at hzero
  exact absurd hzero (by decide)

theorem fmul_oneC_right (hfit : f.fits a = true) (ha : isFinite f a = true) : fmul f k a (oneC f) = a :=
  fmul_eq_of_magnitude ha (isFinite_oneC f) ha hfit (by rw [signBit_oneC, Bool.bne_false]) (by rw [magnitude_oneC])

theorem toF_one (f : Fmt) : toF f 1 = oneC f := by
  have hself := roundTo_self one_pos (oneC_fits f) (isFinite_oneC f)
  rwa [signBit_oneC, magnitude_oneC, Nat.mul_one, ← Nat.one_mul (2 ^ scaleOf f)] at hself

/-- The first of two entries stands as it is, so one addition is left. -/
theorem amplitudeTotal_pair (hfit : f.fits a = true) (ha : isFinite f a = true) (hne : a ≠ zeroOf f true)
    (hb : isFinite f b = true) : amplitudeTotal f k [a, b] = addFinite f a b := by
  rw [amplitudeTotal, amplitudeTotalFrom, fadd_posZero_left hfit ha hne, amplitudeTotalFrom, fadd_finite ha hb,
    amplitudeTotalFrom]

/-- Settles O39: the loop adds every entry, and R157's totals are one finite addition each. -/
theorem amplitudeTotalCountsEveryEntry : Obligations.AmplitudeTotalCountsEveryEntry := by
  refine fun f k harm h => ⟨rfl, ⟨_, amplitudeTotalFrom_concat harm h 0 posZero⟩,
    fun hmem hnan => amplitudeTotalFrom_isNaN hmem hnan 0 posZero, ?_, ?_⟩
  · rw [amplitudeTotal_pair (by decide) (by decide) (by decide) (by decide)]
    decide
  · rw [amplitudeTotal_pair (by decide) (by decide) (by decide) (by decide)]
    decide

/-! ### The division above one (R153) -/

theorem normalize_of_fgt (h : fgt f b (oneC f) = true) : normalize f k a b = fdiv f k a b := by
  rw [normalize, h, if_pos rfl]

theorem normalize_of_not_fgt (h : fgt f b (oneC f) = false) : normalize f k a b = a := by
  rw [normalize, h, if_neg Bool.false_ne_true]

theorem fgt_oneC_self (f : Fmt) : fgt f (oneC f) (oneC f) = false := by rw [fgt_eq_flt, flt_self]

theorem fgt_infOf_oneC (f : Fmt) : fgt f (infOf f false) (oneC f) = true := by
  rw [fgt_eq_flt, flt_posInf (isFinite_oneC f)]

/-- An infinity or a NaN over an infinity is a NaN. -/
theorem fdiv_isInf_isNaN (ha : isFinite f a = false) (hb : isInf f b = true) : isNaN f (fdiv f k a b) = true := by
  rcases kind_cases f a with hnan | hinf | hfin
  · exact fdiv_isNaN (.inl hnan)
  · rw [fdiv_isInf_isInf hinf hb]
    exact drawNaN_isNaN f k
  · exact absurd hfin (by simp [ha])

/-- Settles O40: the comparison decides, and `+inf` is the one divisor whose quotients are all a zero or a NaN. -/
theorem normalizeDividesAboveOne : Obligations.NormalizeDividesAboveOne := by
  refine fun f k value total => ⟨normalize_of_fgt, normalize_of_not_fgt, normalize_of_not_fgt (fgt_oneC_self f),
    fun hnan => normalize_of_not_fgt (comparisons_of_isNaN (.inl hnan)).2.1, fun hfin => ?_, fun hfin => ?_,
    fun p harm => ⟨_, _, _, rfl⟩⟩
  · rw [normalize_of_fgt (fgt_infOf_oneC f)]
    exact fdiv_inf_isZero hfin (infOf_isInf f false)
  · rw [normalize_of_fgt (fgt_infOf_oneC f)]
    exact fdiv_isInf_isNaN hfin (infOf_isInf f false)

/-! ### Without a positive entry (R155) -/

/-- Settles O42: no term is added, and a total of such entries is not above `1.0`. -/
theorem additiveWithoutPositiveEntryIsZero : Obligations.AdditiveWithoutPositiveEntryIsZero :=
  fun _ _ _ _ => additiveValue_of_no_positive

/-! ### Harmonics `[1.0]` (R156) -/

theorem fmul_not_isFinite_left (ha : isFinite f a = false) (hb : isFinite f b = true) :
    isFinite f (fmul f k a b) = false := by
  rcases kind_cases f a with hnan | hinf | hfin
  · exact not_isFinite_of_isNaN (fmul_isNaN (.inl hnan))
  · rw [fmul_isInf_left hinf hb]
    split
    · exact drawNaN_not_isFinite f k
    · exact infOf_not_isFinite f _
  · exact absurd hfin (by simp [ha])

/-- The sine is a NaN exactly where its argument is not finite. -/
theorem isNaN_sinF (f : Fmt) (a : Word) : isNaN f (sinF f a) = !isFinite f a := by
  rcases kind_cases f a with hnan | hinf | hfin
  · rw [sinF_not_finite (.inl hnan), not_isFinite_of_isNaN hnan, Bool.not_false]
  · rw [sinF_not_finite (.inr hinf), not_isFinite_of_isInf hinf, Bool.not_false]
  · obtain ⟨hsin, -⟩ := (inBipolar_iff f _).1 (sinF_inBipolar hfin)
    rw [not_isNaN_of_isFinite hsin, hfin, Bool.not_true]

/-- A factor of `[+0.0, 1.0)` takes a finite value no farther from zero. -/
theorem fmul_inUnit_le (ha : isFinite f a = true) (hp : inUnit f p = true) :
    isFinite f (fmul f k a p) = true ∧ magnitude f (fmul f k a p) ≤ magnitude f a := by
  obtain ⟨hfin, -, hlt⟩ := (inUnit_iff f p).1 hp
  obtain ⟨hbits, hmag⟩ := representable_magnitude ha
  have hround : roundBits f (magnitude f a * magnitude f p) (2 ^ scaleOf f) ≤ roundBits f (magnitude f a) 1 := by
    rw [magnitude_oneC] at hlt
    refine roundBits_mono (by positivity) one_pos ?_
    rw [Nat.mul_one]
    exact Nat.mul_le_mul_left _ hlt.le
  rw [fmul_finite ha hfin, magnitude_roundTo]
  exact ⟨roundTo_isFinite (hround.trans_lt hbits), (bitsMagnitude_mono hround hbits.le).trans hmag.le⟩

/-- On `[+0.0, 1.0)` the sine's argument lies in `[+0.0, TAU_F]`, where R86 leaves no `-0.0`. -/
theorem sinF_tau_ne_negZero (hp : inUnit f p = true) : sinF f (fmul f k (tauC f) p) ≠ zeroOf f true := by
  obtain ⟨hfin, hle⟩ := fmul_inUnit_le (k := k) (isFinite_tauC f) hp
  obtain ⟨hpfin, hpsign, -⟩ := (inUnit_iff f p).1 hp
  obtain ⟨-, -, htau, -⟩ := piC_layout f
  have hsign : signBit f (fmul f k (tauC f) p) = false := by
    rw [fmul_signBit (isFinite_tauC f) hpfin, htau, hpsign]
    rfl
  generalize fmul f k (tauC f) p = x at hfin hle hsign
  cases hz : isZero f x with
  | true =>
    rw [sinF_isZero hz]
    intro heq
    rw [heq, zeroOf_signBit] at hsign
    exact absurd hsign (by decide)
  | false =>
    have hpos : magnitude f x ≠ 0 := by simp [magnitude_eq_zero_iff, hz]
    apply sinF_ne_negZero hfin <;> rw [scaled_eq_magnitude hsign]
    · omega
    · rw [scaled_eq_magnitude htau]
      exact_mod_cast hle

theorem harmonicTerm_one (hx : isFinite f (fmul f (k.sub 0) (tauC f) p) = true) :
    harmonicTerm f k p 0 (oneC f) = sinF f (fmul f (k.sub 0) (tauC f) p) := by
  have hxfit := fmul_fits f (k.sub 0) (tauC f) p
  obtain ⟨hsin, -⟩ := (inBipolar_iff f _).1 (sinF_inBipolar hx)
  rw [harmonicTerm, Nat.zero_add, toF_one, fmul_oneC_right hxfit hx, fmul_oneC_right (sinF_fits hxfit) hsin]

theorem harmonicTerm_one_isNaN (hx : isFinite f (fmul f (k.sub 0) (tauC f) p) = false) :
    isNaN f (harmonicTerm f k p 0 (oneC f)) = true := by
  rw [harmonicTerm, Nat.zero_add, toF_one]
  apply fmul_isNaN
  rw [isNaN_sinF, fmul_not_isFinite_left hx (isFinite_oneC f)]
  exact .inl rfl

/-- The one entry is positive, and its total is exactly `1.0`, which divides nothing. -/
theorem additiveValue_one (f : Fmt) (k : DrawSite) (p : Word) :
    additiveValue f k p [oneC f] =
      fadd f (((k.sub 0).sub 0).sub 3) posZero (harmonicTerm f ((k.sub 0).sub 0) p 0 (oneC f)) := by
  have htotal : amplitudeTotal f (k.sub 1) [oneC f] = oneC f := fadd_posZero_oneC f _
  have hpos : fgt f (oneC f) posZero = true := by
    rw [fgt_of_isFinite (isFinite_oneC f) (isFinite_posZero f), scaled_posZero, scaled_oneC]
    exact decide_eq_true (by positivity)
  rw [additiveValue, htotal, normalize_of_not_fgt (fgt_oneC_self f), harmonicSum, harmonicSumFrom, hpos, if_pos rfl,
    harmonicSumFrom]

theorem isFinite_fmul_site (k k' : DrawSite) (a b : Word) : isFinite f (fmul f k a b) = isFinite f (fmul f k' a b) := by
  rcases fmul_sameDatum (k := k) (k' := k') (sameDatum_refl f a) (sameDatum_refl f b) with h | ⟨h, h'⟩
  · rw [h]
  · rw [not_isFinite_of_isNaN h, not_isFinite_of_isNaN h']

theorem additiveValue_one_of_inUnit (k' : DrawSite) (hp : inUnit f p = true) :
    additiveValue f k p [oneC f] = sineValue f k' p := by
  obtain ⟨hpfin, -⟩ := (inUnit_iff f p).1 hp
  obtain ⟨hx, -⟩ := fmul_inUnit_le (k := ((k.sub 0).sub 0).sub 0) (isFinite_tauC f) hp
  obtain ⟨hsin, -⟩ := (inBipolar_iff f _).1 (sinF_inBipolar hx)
  rw [additiveValue_one, harmonicTerm_one hx,
    fadd_posZero_left (sinF_fits (fmul_fits f _ _ _)) hsin (sinF_tau_ne_negZero hp), sineValue,
    fmul_site (k'.sub 0) (isFinite_tauC f) hpfin]

/-- Both are a NaN exactly where the product of TAU_F and the phase is not finite. -/
theorem isNaN_additiveValue_one (k k' : DrawSite) (p : Word) :
    isNaN f (additiveValue f k p [oneC f]) = isNaN f (sineValue f k' p) := by
  rw [additiveValue_one, sineValue, isNaN_sinF, isFinite_fmul_site _ (((k.sub 0).sub 0).sub 0)]
  cases hx : isFinite f (fmul f (((k.sub 0).sub 0).sub 0) (tauC f) p) with
  | true =>
    obtain ⟨hsin, -⟩ := (inBipolar_iff f _).1 (sinF_inBipolar hx)
    rw [harmonicTerm_one hx, fadd_finite (isFinite_posZero f) hsin, addFinite_not_isNaN, Bool.not_true]
  | false => rw [fadd_isNaN (.inr (harmonicTerm_one_isNaN hx)), Bool.not_false]

/-- Settles O43: multiplying by `1.0` and adding to `+0.0` change nothing but a `-0.0`, and a NaN stays a NaN. -/
theorem additiveOfOneEqualsSine : Obligations.AdditiveOfOneEqualsSine := fun _ k k' p =>
  ⟨additiveValue_one_of_inUnit k', by rw [isNaN_additiveValue_one k k' p]⟩

end Sys2Proof.Machine
end

section
/-! Bounds and zeros under the operations (R81, R82): a rounding stays between values of FMT, and a zero times or over
a positive value is that zero. -/

namespace Sys2Proof.Machine

variable {f : Fmt} {k : DrawSite} {a b : Word} {m n : Nat}

/-! ### Between values of FMT -/

/-- What is at or below a value of FMT is rounded to a finite value at or below it. -/
theorem roundTo_le {den : Nat} (neg : Bool) (hden : 0 < den) (hm : Representable f m) (h : n ≤ m * den) :
    isFinite f (roundTo f neg n den) = true ∧ magnitude f (roundTo f neg n den) ≤ m := by
  obtain ⟨hfin, hmag⟩ := hm
  have hround : roundBits f n den ≤ roundBits f m 1 := roundBits_mono hden one_pos (by omega)
  rw [magnitude_roundTo]
  exact ⟨roundTo_isFinite (hround.trans_lt hfin), (bitsMagnitude_mono hround hfin.le).trans hmag.le⟩

/-- What is at or above a value of FMT is rounded to no less. -/
theorem le_roundTo {den : Nat} (neg : Bool) (hden : 0 < den) (hm : Representable f m) (h : m * den ≤ n) :
    m ≤ magnitude f (roundTo f neg n den) := by
  have hround : roundBits f m 1 ≤ roundBits f n den := roundBits_mono one_pos hden (by omega)
  rw [magnitude_roundTo, ← hm.2]
  exact bitsMagnitude_mono hround (roundBits_le f n den)

/-- A factor of magnitude at most `1.0` takes a finite value no farther from zero. -/
theorem fmul_le_left (ha : isFinite f a = true) (hb : isFinite f b = true) (hone : magnitude f b ≤ 2 ^ scaleOf f) :
    isFinite f (fmul f k a b) = true ∧ magnitude f (fmul f k a b) ≤ magnitude f a := by
  rw [fmul_finite ha hb]
  exact roundTo_le _ (by positivity) (representable_magnitude ha) (Nat.mul_le_mul_left _ hone)

theorem representable_whole (hn : n < 2 ^ (f.fracBits + 1)) : Representable f (n * 2 ^ scaleOf f) :=
  representable_of_significand hn (whole_lt_overflowBound hn.le)

/-! ### Zeros, and results that are not finite -/

theorem fmul_zeroOf_right (neg : Bool) (ha : isFinite f a = true) (hsign : signBit f a = false) :
    fmul f k a (zeroOf f neg) = zeroOf f neg := by
  have hzero := zeroOf_isZero f neg
  have hfin := isFinite_of_isZero hzero
  refine fmul_eq_of_magnitude ha hfin hfin (zeroOf_fits f neg) (by rw [hsign, Bool.false_bne]) ?_
  rw [(magnitude_eq_zero_iff f _).2 hzero, Nat.mul_zero, Nat.zero_mul]

theorem fdiv_zeroOf_left (neg : Bool) (hb : isFinite f b = true) (hz : isZero f b = false)
    (hsign : signBit f b = false) : fdiv f k (zeroOf f neg) b = zeroOf f neg := by
  have hzero := zeroOf_isZero f neg
  have hfin := isFinite_of_isZero hzero
  have hpos : 0 < magnitude f b := by
    rw [Nat.pos_iff_ne_zero, ne_eq, magnitude_eq_zero_iff, hz]
    decide
  have hself := roundTo_self hpos (zeroOf_fits f neg) hfin
  rw [(magnitude_eq_zero_iff f _).2 hzero, Nat.zero_mul, zeroOf_signBit] at hself
  rw [fdiv_finite hfin hb hz, (magnitude_eq_zero_iff f _).2 hzero, Nat.zero_mul, zeroOf_signBit, hsign, Bool.bne_false,
    hself]

theorem fmul_not_isFinite_right (ha : isFinite f a = true) (hb : isFinite f b = false) :
    isFinite f (fmul f k a b) = false := by
  rcases kind_cases f b with hnan | hinf | hfin
  · exact not_isFinite_of_isNaN (fmul_isNaN (.inr hnan))
  · rw [fmul_isInf_right ha hinf]
    split
    · exact drawNaN_not_isFinite f k
    · exact infOf_not_isFinite f _
  · exact absurd hfin (by simp [hb])

end Sys2Proof.Machine
end

section
/-! The preview (R170 to R173): the vector `get_pulse_waveform_data` answers, R171's divisor, and the
coefficients at the corners of the duty cycle and over its nominal domain. -/

namespace Sys2Proof.Machine

variable {f : Fmt} {k : DrawSite} {a d : Word} {n : Nat}

/-! ### The coefficient and the vector (R170 to R172) -/

/-- `fmul(PI_F, toF(n))`, which R171 computes once in the sine's argument and once as the divisor. -/
def piTimes (f : Fmt) (k : DrawSite) (n : Nat) : Word := fmul f k (piC f) (toF f n)

theorem coefficient_eq (f : Fmt) (k : DrawSite) (n : Nat) (d : Word) :
    coefficient f k n d = fdiv f (k.sub 4)
      (fmul f (k.sub 2) (twoC f) (sinF f (fmul f (k.sub 1) (piTimes f (k.sub 0) n) d))) (piTimes f (k.sub 3) n) := rfl

theorem previewValue_zero (f : Fmt) (k : DrawSite) (d : Word) : previewValue f k d 0 = posZero := if_pos rfl

theorem previewValue_of_pos (hn : 1 ≤ n) : previewValue f k d n = coefficient f (k.sub n) n d := if_neg (by omega)

theorem previewVector_length (f : Fmt) (k : DrawSite) (d : Word) : (previewVector f k d).length = previewLen := by
  rw [previewVector, List.length_map, List.length_range]

theorem previewVector_getElem? (hn : n < previewLen) : (previewVector f k d)[n]? = some (previewValue f k d n) := by
  rw [previewVector, List.getElem?_map, List.getElem?_range hn, Option.map_some]

/-- Settles O54: the completed command answers the vector, whose entries `previewValue` gives. -/
theorem previewResult : Obligations.PreviewResult := by
  refine fun s => ⟨rfl, fun hcon => ⟨_, _, exec_preview hcon, rfl, rfl, rfl, rfl, previewVector_length .., ?_,
    fun n hpos hle => ?_⟩, fun hcon => exec_unconstructed hcon rfl⟩
  · rw [previewVector_getElem? (by decide), previewValue_zero, posZero]
  · rw [previewVector_getElem? (Nat.lt_succ_of_le hle), previewValue_of_pos hpos]
    exact ⟨_, _, _, _, _, rfl⟩

/-! ### The divisor (R171) -/

theorem two_pow_scaleOf_eq_fracBits (f : Fmt) : 2 ^ scaleOf f = 2 ^ f.fracBits * 2 ^ (scaleOf f - f.fracBits) := by
  obtain ⟨-, -, -, hle, -⟩ := oneC_layout f
  rw [← pow_add, Nat.add_sub_cancel' hle]

theorem magnitude_piC_bounds (f : Fmt) :
    3 * 2 ^ scaleOf f ≤ magnitude f (piC f) ∧ magnitude f (piC f) ≤ 4 * 2 ^ scaleOf f := by
  have hsig : 3 * 2 ^ f.fracBits ≤ 2 * piSignificand f ∧ 2 * piSignificand f ≤ 4 * 2 ^ f.fracBits := by
    cases f <;> decide
  rw [magnitude_piC, two_pow_scaleOf_eq_fracBits, ← mul_assoc, ← mul_assoc]
  exact ⟨Nat.mul_le_mul_right _ hsig.1, Nat.mul_le_mul_right _ hsig.2⟩

/-- The spectral index is far below the whole numbers a format holds exactly (R85). -/
theorem index_lt_significand (hn : n ≤ 511) : 4 * n < 2 ^ (f.fracBits + 1) := by
  have hbits : 2 ^ 11 ≤ 2 ^ (f.fracBits + 1) := Nat.pow_le_pow_right (by decide) (by cases f <;> decide)
  omega

theorem toF_index (hn : n ≤ 511) : isFinite f (toF f n) = true ∧ magnitude f (toF f n) = n * 2 ^ scaleOf f := by
  have hlt := index_lt_significand (f := f) hn
  obtain ⟨hfin, hscaled⟩ := toF_exact (f := f) (n := n) (by omega)
  refine ⟨hfin, ?_⟩
  rw [← natAbs_scaled, hscaled]
  exact_mod_cast Int.natAbs_natCast _

/-- The product lies between the values `3 n` and `4 n` of FMT, so it neither overflows nor is rounded below `3 n`. -/
theorem piTimes_bounds (k : DrawSite) (hn : n ≤ 511) :
    isFinite f (piTimes f k n) = true ∧ signBit f (piTimes f k n) = false ∧
      3 * n * 2 ^ scaleOf f ≤ magnitude f (piTimes f k n) := by
  obtain ⟨hpi, hsign, -⟩ := piC_layout f
  obtain ⟨hlow, hhigh⟩ := magnitude_piC_bounds f
  obtain ⟨hfin, hmag⟩ := toF_index (f := f) hn
  have hlt := index_lt_significand (f := f) hn
  have hsignN : signBit f (toF f n) = false := roundTo_signBit f _ _ _
  rw [piTimes, fmul_finite hpi hfin, roundTo_signBit, hsign, hsignN, hmag]
  have hbelow : magnitude f (piC f) * (n * 2 ^ scaleOf f) ≤ 4 * n * 2 ^ scaleOf f * 2 ^ scaleOf f := by
    calc _ ≤ 4 * 2 ^ scaleOf f * (n * 2 ^ scaleOf f) := Nat.mul_le_mul_right _ hhigh
      _ = _ := by ring
  have habove : 3 * n * 2 ^ scaleOf f * 2 ^ scaleOf f ≤ magnitude f (piC f) * (n * 2 ^ scaleOf f) := by
    calc _ = 3 * 2 ^ scaleOf f * (n * 2 ^ scaleOf f) := by ring
      _ ≤ _ := Nat.mul_le_mul_right _ hlow
  exact ⟨(roundTo_le _ (by positivity) (representable_whole hlt) hbelow).1, rfl,
    le_roundTo _ (by positivity) (representable_whole (by omega)) habove⟩

theorem piTimes_not_isZero (k : DrawSite) (hpos : 1 ≤ n) (hn : n ≤ 511) : isZero f (piTimes f k n) = false := by
  obtain ⟨-, -, hlow⟩ := piTimes_bounds (f := f) k hn
  have hthree : 0 < 3 * n * 2 ^ scaleOf f := by positivity
  rw [← Bool.not_eq_true, ← magnitude_eq_zero_iff]
  omega

/-! ### Zero, NaN and infinite duty cycles (R173) -/

/-- A zero keeps its sign through every operation of R171, whose other factors and divisor are positive. -/
theorem coefficient_zeroOf (k : DrawSite) (neg : Bool) (hpos : 1 ≤ n) (hn : n ≤ 511) :
    coefficient f k n (zeroOf f neg) = zeroOf f neg := by
  obtain ⟨hfin, hsign, -⟩ := piTimes_bounds (f := f) (k.sub 0) hn
  obtain ⟨hfinDiv, hsignDiv, -⟩ := piTimes_bounds (f := f) (k.sub 3) hn
  obtain ⟨htwo, -, hsignTwo, -⟩ := twoC_layout f
  rw [coefficient_eq, fmul_zeroOf_right neg hfin hsign, sinF_isZero (zeroOf_isZero f neg),
    fmul_zeroOf_right neg htwo hsignTwo, fdiv_zeroOf_left neg hfinDiv (piTimes_not_isZero _ hpos hn) hsignDiv]

/-- Where the sine's argument is not finite its value is a NaN, and so is what is computed from it. -/
theorem coefficient_isNaN (h : isFinite f (fmul f (k.sub 1) (piTimes f (k.sub 0) n) d) = false) :
    isNaN f (coefficient f k n d) = true := by
  rw [coefficient_eq]
  exact fdiv_isNaN (.inl (fmul_isNaN (.inr (by rw [isNaN_sinF, h, Bool.not_false]))))

/-- Settles O56: a zero passes through, and a duty cycle that is not finite makes the sine's argument not finite. -/
theorem previewCornerDutyCycles : Obligations.PreviewCornerDutyCycles := by
  intro f k n hpos hn
  refine ⟨fun d => ⟨_, _, _, _, _, rfl⟩, coefficient_zeroOf k false hpos hn, coefficient_zeroOf k true hpos hn,
    fun d hd => coefficient_isNaN ?_⟩
  obtain ⟨hfin, -⟩ := piTimes_bounds (f := f) (k.sub 0) hn
  exact fmul_not_isFinite_right hfin (hd.elim not_isFinite_of_isNaN not_isFinite_of_isInf)

/-! ### The nominal domain (R173) -/

theorem magnitude_le_one_of_nominal (hd : isFinite f d = true) (hlow : flt f d posZero = false)
    (hhigh : fgt f d (oneC f) = false) : magnitude f d ≤ 2 ^ scaleOf f := by
  rw [flt_of_isFinite hd (isFinite_posZero f), scaled_posZero, decide_eq_false_iff_not, not_lt] at hlow
  rw [fgt_of_isFinite hd (isFinite_oneC f), scaled_oneC, decide_eq_false_iff_not, not_lt] at hhigh
  rw [← natAbs_scaled]
  zify
  rwa [abs_of_nonneg hlow]

theorem fmul_twoC_sinF_le (k : DrawSite) (ha : isFinite f a = true) :
    isFinite f (fmul f k (twoC f) (sinF f a)) = true ∧
      magnitude f (fmul f k (twoC f) (sinF f a)) ≤ 2 * 2 ^ scaleOf f := by
  obtain ⟨htwo, -⟩ := twoC_layout f
  obtain ⟨hsin, hle⟩ := (inBipolar_iff f _).1 (sinF_inBipolar ha)
  rw [magnitude_oneC] at hle
  have hbound := two_mul_one_lt_overflowBound f
  obtain ⟨hfin, hmag⟩ := magnitude_fmul_two_pow (k := k) htwo hsin (magnitude_twoC f) (by omega)
  exact ⟨hfin, by omega⟩

/-- A value of FMT from `2 / (3 n)` to `1 / n`: the significand `2 ^ fracBits / n` lies between them. -/
theorem exists_representable_reciprocal (f : Fmt) (hpos : 1 ≤ n) (hn : n ≤ 511) :
    ∃ m, Representable f m ∧ 2 * 2 ^ scaleOf f ≤ m * (3 * n) ∧ m * n ≤ 2 ^ scaleOf f := by
  have hroom : 3 * 511 ≤ 2 ^ f.fracBits := by cases f <;> decide
  have hself : 2 ^ f.fracBits / n ≤ 2 ^ f.fracBits := Nat.div_le_self _ _
  have hbelow : 2 ^ f.fracBits / n * n ≤ 2 ^ f.fracBits := Nat.div_mul_le_self _ _
  have habove : 2 ^ f.fracBits < 2 ^ f.fracBits / n * n + n := Nat.lt_div_mul_add hpos
  have hsplit := two_pow_scaleOf_eq_fracBits f
  have hsig : 2 ^ f.fracBits / n < 2 ^ (f.fracBits + 1) := by
    rw [pow_succ]
    omega
  refine ⟨2 ^ f.fracBits / n * 2 ^ (scaleOf f - f.fracBits), representable_of_significand hsig ?_, ?_, ?_⟩
  · have hone : 2 ^ f.fracBits / n * 2 ^ (scaleOf f - f.fracBits) ≤ 2 ^ scaleOf f :=
      hsplit ▸ Nat.mul_le_mul_right _ hself
    have hbound := two_mul_one_lt_overflowBound f
    omega
  · calc 2 * 2 ^ scaleOf f = 2 * 2 ^ f.fracBits * 2 ^ (scaleOf f - f.fracBits) := by rw [hsplit, mul_assoc]
      _ ≤ 3 * (2 ^ f.fracBits / n * n) * 2 ^ (scaleOf f - f.fracBits) := Nat.mul_le_mul_right _ (by omega)
      _ = _ := by ring
  · calc _ = 2 ^ f.fracBits / n * n * 2 ^ (scaleOf f - f.fracBits) := by ring
      _ ≤ 2 ^ scaleOf f := hsplit ▸ Nat.mul_le_mul_right _ hbelow

/-- A finite sine keeps the coefficient finite: at most twice `1.0` is divided by at least `3 n`. -/
theorem coefficient_le (k : DrawSite) (hpos : 1 ≤ n) (hn : n ≤ 511)
    (harg : isFinite f (fmul f (k.sub 1) (piTimes f (k.sub 0) n) d) = true) :
    isFinite f (coefficient f k n d) = true ∧ magnitude f (coefficient f k n d) * n ≤ 2 ^ scaleOf f := by
  obtain ⟨hden, -, hlow⟩ := piTimes_bounds (f := f) (k.sub 3) hn
  obtain ⟨hnum, hle⟩ := fmul_twoC_sinF_le (k.sub 2) harg
  obtain ⟨m, hm, htwo, hone⟩ := exists_representable_reciprocal f hpos hn
  have hquot : magnitude f (fmul f (k.sub 2) (twoC f) (sinF f (fmul f (k.sub 1) (piTimes f (k.sub 0) n) d))) *
      2 ^ scaleOf f ≤ m * magnitude f (piTimes f (k.sub 3) n) := by
    calc _ ≤ m * (3 * n) * 2 ^ scaleOf f := Nat.mul_le_mul_right _ (hle.trans htwo)
      _ = m * (3 * n * 2 ^ scaleOf f) := by ring
      _ ≤ _ := Nat.mul_le_mul_left _ hlow
  have hdenPos : 0 < magnitude f (piTimes f (k.sub 3) n) := lt_of_lt_of_le (by positivity) hlow
  rw [coefficient_eq, fdiv_finite hnum hden (piTimes_not_isZero _ hpos hn)]
  obtain ⟨hfin, hmag⟩ := roundTo_le _ hdenPos hm hquot
  exact ⟨hfin, (Nat.mul_le_mul_right n hmag).trans hone⟩

/-- Settles O57: a duty cycle of at most `1.0` does not take the sine's argument past `fmul(PI_F, toF(n))`. -/
theorem previewFiniteInNominalDomain : Obligations.PreviewFiniteInNominalDomain := by
  intro f k n d hpos hn hd hlow hhigh
  obtain ⟨hfin, -⟩ := piTimes_bounds (f := f) (k.sub 0) hn
  rw [magnitude_oneC]
  exact coefficient_le k hpos hn (fmul_le_left hfin hd (magnitude_le_one_of_nominal hd hlow hhigh)).1

/-! ### A finite duty cycle whose coefficient is a NaN (R173, log 21) -/

theorem piTimes_one (f : Fmt) (k : DrawSite) : piTimes f k 1 = piC f := by
  obtain ⟨hfin, -⟩ := piC_layout f
  rw [piTimes, toF_one, fmul_oneC_right (piC_fits f) hfin]

/-- PI_F times the largest finite value of binary32 overflows (R81). -/
theorem fmul_piC_largest_not_isFinite (k : DrawSite) :
    isFinite .binary32 (fmul .binary32 k (piC .binary32) 0x7F7FFFFF) = false := by
  have hover : overflowBound .binary32 * 2 ^ scaleOf .binary32 ≤
      magnitude .binary32 (piC .binary32) * magnitude .binary32 0x7F7FFFFF := by decide
  rw [fmul_finite (by decide) (by decide), ← Bool.not_eq_true, roundTo_isFinite_iff,
    roundBits_lt_infBits_iff (by positivity)]
  exact hover.not_gt

/-- Refutes O58: the first coefficient of binary32's largest finite duty cycle takes the sine of an infinity. -/
theorem not_previewFiniteForEveryFiniteDuty : ¬ Obligations.PreviewFiniteForEveryFiniteDuty := by
  intro h
  have hfin := h .binary32 { cmd := 0, path := [] } 1 0x7F7FFFFF (by decide) (by decide) (by decide)
  have hnan : isNaN .binary32 (coefficient .binary32 { cmd := 0, path := [] } 1 0x7F7FFFFF) = true :=
    coefficient_isNaN (by rw [piTimes_one, fmul_piC_largest_not_isFinite])
  rw [not_isFinite_of_isNaN hnan] at hfin
  exact absurd hfin (by decide)

end Sys2Proof.Machine
end

section
/-! The faults (R180 to R184): a command is refused for its word alone, a step reports the status R183 gives, and a
status other than OK leaves everything else as it was. All three are read off `step_reports_statusOf`. -/

namespace Sys2Proof.Machine

/-! ### The words the decoder refuses (R64, R66) -/

theorem wfField_eq_zero_iff (cw : CmdWord) : wfField cw = 0 ↔ cw.toNat / 256 % 8 = 0 := by
  rw [← wfField_toNat, ← BitVec.toNat_inj]
  rfl

theorem rsvField_eq_zero_iff (cw : CmdWord) : rsvField cw = 0 ↔ cw.toNat / 2 ^ 11 = 0 := by
  rw [← BitVec.toNat_inj, rsvField_toNat]
  rfl

theorem plainCommand_error_iff (cw : CmdWord) (i : Instr) :
    (∃ e, plainCommand cw i = .error e) ↔ cw.toNat / 256 % 8 ≠ 0 := by
  rw [plainCommand, Ne, ← wfField_eq_zero_iff]
  split <;> simp_all

/-- R65: of the eight codes six name a waveform. -/
theorem ofCode_eq_none_iff (code : BitVec 3) : Waveform.ofCode code = none ↔ 6 ≤ code.toNat := by
  revert code
  decide

theorem waveformCommand_error_iff (cw : CmdWord) :
    (∃ e, waveformCommand cw = .error e) ↔ 6 ≤ cw.toNat / 256 % 8 := by
  rw [waveformCommand, ← wfField_toNat, ← ofCode_eq_none_iff]
  split <;> simp_all

/-- The decoder refuses a command for its word, whatever its operands: the words it refuses are R66's. -/
theorem decode_error_iff (c : Command) : (∃ e, decode c = .error e) ↔ reservedWord c.cw := by
  simp only [decode, ne_eq, rsvField_eq_zero_iff, opField_toNat, reservedWord]
  split
  case isTrue hrsv => exact ⟨fun _ => .inl hrsv, fun _ => ⟨_, rfl⟩⟩
  case isFalse hrsv =>
    split
    case h_2 hop =>
      rw [waveformCommand_error_iff]
      omega
    case h_9 =>
      have hop : c.cw.toNat % 256 = 0 ∨ 9 ≤ c.cw.toNat % 256 := by
        simp only [imp_false] at *
        omega
      exact ⟨fun _ => .inr (hop.imp_right .inl), fun _ => ⟨_, rfl⟩⟩
    all_goals
      rw [plainCommand_error_iff]
      omega

/-! ### The status of a step (R183) -/

theorem statusOf_error {c : Command} {e : Illegal} (h : decode c = .error e) (s : State) :
    statusOf s c = .illegalCommand := by rw [statusOf, h]

theorem statusOf_ok {c : Command} {i : Instr} (h : decode c = .ok i) (s : State) :
    statusOf s c =
      if isConstruct i then .ok else if s.constructed = false then .notConstructed
      else if overCapacity s.params i then .capacityExceeded else .ok := by rw [statusOf, h]

/-- R182: ILLEGAL_COMMAND is the decoder's alone; no check after it gives that status. -/
theorem statusOf_eq_illegalCommand_iff (s : State) (c : Command) :
    statusOf s c = .illegalCommand ↔ ∃ e, decode c = .error e := by
  cases hdec : decode c with
  | error e => exact ⟨fun _ => ⟨e, rfl⟩, fun _ => statusOf_error hdec s⟩
  | ok i =>
    rw [statusOf_ok hdec]
    split_ifs <;> simp

/-- R183: running a command completes its instruction when the status is OK, and raises the status otherwise. -/
theorem runCommand_cases (c : Command) (s : State) :
    (statusOf s c = .ok ∧ ∃ i, runCommand c s = .next (completed i s)) ∨
      (statusOf s c ≠ .ok ∧ runCommand c s = .next (s.raise (statusOf s c))) := by
  cases hdec : decode c with
  | error e =>
    rw [statusOf_error hdec, runCommand_error hdec]
    exact .inr ⟨by decide, rfl⟩
  | ok i =>
    rw [statusOf_ok hdec, runCommand_ok hdec]
    split_ifs with hi hs hcap
    · exact .inl ⟨rfl, i, by rw [exec_eq, if_pos hi]⟩
    · exact .inr ⟨by decide, exec_unconstructed hs (Bool.eq_false_of_not_eq_true hi)⟩
    · exact .inr ⟨by decide, exec_overCapacity (Bool.eq_true_of_not_eq_false hs) hcap⟩
    · exact .inl ⟨rfl, i, exec_completes (Bool.eq_true_of_not_eq_false hs) (Bool.eq_false_of_not_eq_true hcap)⟩

/-- R180, R183, R184: a step reports the status of the command it takes, and a status other than OK is all it
reports and all it does. -/
theorem step_reports_statusOf {s : State} {c : Command} {rest : List Command} (h : s.port = c :: rest) :
    ∃ t r, step s = .next t ∧ t.response = some r ∧ r.status = statusOf s (onPort s.fmt c) ∧
      (statusOf s (onPort s.fmt c) ≠ .ok → r.data = [] ∧ t = { s with port := rest, response := some r }) := by
  have htaken : statusOf (s.setPort rest) (onPort s.fmt c) = statusOf s (onPort s.fmt c) := rfl
  rw [step_cons h, ← htaken]
  rcases runCommand_cases (onPort s.fmt c) (s.setPort rest) with ⟨hok, i, hrun⟩ | ⟨-, hrun⟩
  · obtain ⟨data, hdata⟩ := completed_answers i (s.setPort rest)
    exact ⟨_, _, hrun, hdata, hok.symm, fun hne => absurd hok hne⟩
  · exact ⟨_, _, hrun, rfl, rfl, fun _ => ⟨rfl, rfl⟩⟩

/-! ### The three statements -/

/-- Settles O2: the port passes the word whole, the decoder refuses the reserved words, and ILLEGAL_COMMAND is
reported for what the decoder refuses. -/
theorem illegalExactlyForReservedWords : Obligations.IllegalExactlyForReservedWords := by
  refine fun s c rest hport => ⟨decode_error_iff c, ?_⟩
  obtain ⟨t, r, hstep, hr, hstatus, hfault⟩ := step_reports_statusOf hport
  have hillegal : reservedWord c.cw ↔ r.status = .illegalCommand := by
    rw [hstatus, statusOf_eq_illegalCommand_iff, decode_error_iff, onPort]
  rw [hillegal]
  constructor
  · intro hill
    obtain ⟨hdata, -⟩ := hfault (by rw [← hstatus, hill]; decide)
    exact ⟨t, hstep, by rw [hr, ← hill, ← hdata]⟩
  · rintro ⟨u, hu, hresp⟩
    rw [hstep] at hu
    injection hu with hu
    rw [← hu, hr] at hresp
    injection hresp with hresp
    rw [hresp]

/-- Settles O10: a well-formed command passes the port whole, so the status reported is its own. -/
theorem faultsReportedByPriority : Obligations.FaultsReportedByPriority := by
  refine ⟨⟨rfl, rfl, rfl, rfl⟩, fun s c rest hport hwf => ?_⟩
  obtain ⟨t, r, hstep, hr, hstatus, hfault⟩ := step_reports_statusOf hport
  rw [onPort_of_wellFormed hwf] at hstatus hfault
  exact ⟨t, r, hstep, hr, hstatus, fun hne => (hfault hne).left⟩

/-- Settles O11: a status other than OK is one the step raised. -/
theorem faultedCommandChangesNothing : Obligations.FaultedCommandChangesNothing := by
  intro s t c rest r hport hstep hr hne
  obtain ⟨u, r', hstep', hr', hstatus, hfault⟩ := step_reports_statusOf hport
  obtain rfl : t = u := by
    rw [hstep] at hstep'
    injection hstep'
  obtain rfl : r = r' := by
    rw [hr] at hr'
    injection hr'
  exact hfault (hstatus ▸ hne)

end Sys2Proof.Machine
end

section
/-! The lifecycle (R202). It is read off CONSTRUCTED and FREQUENCY alone, so a command moves the block only if it
writes one of the two. -/

namespace Sys2Proof.Machine

/-! ### Where a state stands -/

/-- R84: the equality with `+0.0` holds of the two zeros and of nothing else, NaNs and infinities included. -/
theorem feq_posZero (f : Fmt) (a : Word) : feq f a posZero = isZero f a := by
  cases hnan : isNaN f a with
  | true =>
    obtain ⟨-, -, heq⟩ := comparisons_of_isNaN (b := posZero) (.inl hnan)
    have hzero : isZero f a ≠ true := fun hz => by simp [not_isNaN_of_isFinite (isFinite_of_isZero hz)] at hnan
    rw [heq, Bool.eq_false_of_not_eq_true hzero]
  | false =>
    obtain ⟨-, -, heq⟩ := comparisons_of_not_isNaN hnan (not_isNaN_of_isFinite (isFinite_posZero f))
    rw [heq, scaled_posZero, Bool.eq_iff_iff, decide_eq_true_eq, scaled_eq_zero_iff]

/-- R23, R202: a constructed block is silent or sounding by its FREQUENCY alone. -/
theorem lifecycle_of_constructed {s : State} (h : s.constructed = true) :
    s.lifecycle = if isZero s.fmt s.frequency then .silent else .sounding := by
  rw [State.lifecycle, h, if_neg (by decide), State.silent, feq_posZero]

theorem lifecycle_of_posZero_frequency {s : State} (hcon : s.constructed = true) (hfreq : s.frequency = posZero) :
    s.lifecycle = .silent := by
  rw [lifecycle_of_constructed hcon, hfreq, isZero_posZero, if_pos rfl]

theorem lifecycle_eq_silent_iff (s : State) :
    s.lifecycle = .silent ↔ s.constructed = true ∧ s.silent = true := by
  cases hcon : s.constructed <;> cases hsilent : s.silent <;> simp [State.lifecycle, hcon, hsilent]

theorem lifecycle_eq_sounding_iff (s : State) :
    s.lifecycle = .sounding ↔ s.constructed = true ∧ s.silent = false := by
  cases hcon : s.constructed <;> cases hsilent : s.silent <;> simp [State.lifecycle, hcon, hsilent]

/-! ### What moves it -/

/-- A completed command that is none of R202's three leaves both registers the lifecycle is read off. -/
theorem completed_lifecycle {i : Instr} {s : State} (hcon : isConstruct i = false) (hoff : i ≠ .noteOff)
    (hon : ∀ v, i ≠ .noteOn v) : (completed i s).lifecycle = s.lifecycle := by
  cases i with
  | construct _ => cases hcon
  | noteOn v => exact absurd rfl (hon v)
  | noteOff => exact absurd rfl hoff
  | process len =>
    obtain ⟨_, _, _, _, _, hframe, -⟩ := completed_process_frame len s
    rw [hframe]
    rfl
  | setWaveform _ | setHarmonics _ | setDutyCycle _ | getPulseWaveformData => rfl

theorem exec_lifecycle {i : Instr} {s t : State} (hcon : isConstruct i = false) (hoff : i ≠ .noteOff)
    (hon : ∀ v, i ≠ .noteOn v) (h : exec i s = .next t) : t.lifecycle = s.lifecycle := by
  rcases exec_cases h with ⟨code, rfl⟩ | ⟨-, rfl⟩
  · rfl
  · exact completed_lifecycle hcon hoff hon

/-- R121, R202: a sounding `process` advances PHASE once per sample. -/
theorem exec_process_phase_of_sounding {s : State} {len : Nat} (h : s.lifecycle = .sounding)
    (hlen : withinBound s.params.lMax len = true) :
    ∃ t, exec (.process len) s = .next t ∧ t.phase = phaseAfter s len := by
  obtain ⟨hcon, hsilent⟩ := (lifecycle_eq_sounding_iff s).1 h
  exact ⟨_, exec_completes hcon (overCapacity_process hlen), by rw [completed_process_eq_atSample hsilent]; rfl⟩

/-- Settles O21: the three commands that write CONSTRUCTED or FREQUENCY move the block, no other does, and the
lifecycle decides the path of `process`. -/
theorem lifecycleMoves : Obligations.LifecycleMoves := by
  refine ⟨fun sr s => ⟨_, exec_construct sr s, lifecycle_of_posZero_frequency rfl rfl⟩,
    fun s hs => ⟨_, exec_noteOff hs, lifecycle_of_posZero_frequency hs rfl⟩,
    fun v s hs => ⟨_, exec_completes hs rfl, lifecycle_of_constructed (completed_constructed (.noteOn v) hs)⟩,
    fun _ _ _ => exec_lifecycle, (lifecycle_eq_unconstructed_iff _).2 reset_not_constructed,
    fun len s hs => ?_, fun _ _ => exec_process_phase_of_sounding⟩
  obtain ⟨-, hsilent⟩ := (lifecycle_eq_silent_iff s).1 hs
  obtain ⟨t, ht⟩ := exec_next (.process len) s
  exact ⟨t, ht, exec_process_phase_of_silent hsilent ht⟩

end Sys2Proof.Machine
end

section
/-! A booted block whose increment overflows (R81, R120, R201, log 21). -/

namespace Sys2Proof.Machine

/-- Binary32's block after power-on, `construct` with the smallest subnormal and `note_on` with the largest finite
value. -/
def overflowingBlock : State := completed (.noteOn 0x7F7FFFFF) (completed (.construct 0x00000001) State.reset)

/-- The host reaches the block from power-on with two commands. -/
theorem overflowingBlock_reached :
    core.run 2 (State.reset.setPort [encode (.construct 0x00000001), encode (.noteOn 0x7F7FFFFF)]) =
      .next overflowingBlock := rfl

/-- The host met the boot requirement (R201), and the frequency it sent is finite. -/
theorem overflowingBlock_booted : bootedRate overflowingBlock = true ∧
    isFinite overflowingBlock.fmt overflowingBlock.frequency = true := by
  decide

/-- A finite quotient stays below R81's overflow bound. -/
theorem scaled_lt_of_fdiv_isFinite {f : Fmt} {k : DrawSite} {a b : Word} (ha : isFinite f a = true)
    (hb : isFinite f b = true) (hz : isZero f b = false) (h : isFinite f (fdiv f k a b) = true) :
    |scaled f a * 2 ^ scaleOf f| < overflowBound f * |scaled f b| := by
  obtain ⟨hover, -⟩ := fdiv_roundedOnce (k := k) ha hb hz
  by_contra hge
  rw [hover.2 (not_lt.1 hge)] at h
  cases h

/-- Refutes O30: the largest finite frequency over the smallest subnormal rate is past the overflow bound. -/
theorem not_everyBootedRateGivesFiniteIncrement : ¬ Obligations.EveryBootedRateGivesFiniteIncrement := by
  intro h
  obtain ⟨hrate, hfreq⟩ := overflowingBlock_booted
  have hfin : isFinite .binary32 (fdiv .binary32 (overflowingBlock.site.sub 0) 0x7F7FFFFF 0x00000001) = true :=
    h overflowingBlock hrate hfreq
  exact absurd (scaled_lt_of_fdiv_isFinite (by decide) (by decide) (by decide) hfin) (by decide)

end Sys2Proof.Machine
end
